-- ==== Sys2Proof/Word.lean ====
section
/-! DEFINITION. The word types of HTB (00_scope.md R8, R11): widths only, no behaviour. -/

namespace Sys2Proof

/-- A register, a weight, a command word or a bus word: 32 bits (`W_BITS`, `DATA_BITS`). -/
abbrev Word := BitVec 32

/-- A symbol, or one byte of a buffer: 8 bits, unsigned (`SYM_BITS`). -/
abbrev Byte := BitVec 8

/-- A node index: 9 bits (`IDX_BITS`). -/
abbrev NodeIdx := BitVec 9

/-- A byte address on the host bus: 16 bits (`ADDR_BITS`). -/
abbrev BusAddr := BitVec 16

end Sys2Proof
end

