-- ==== Sys2Proof/Config.lean ====
section
/-! DEFINITION. What an instance fixes (00_scope.md R8, R10) and the free values the spec leaves open. -/

namespace Sys2Proof

/-- The two parameters an instance may vary, the buffer sizes in bytes (00_scope.md R3, R8; D5).
They are held in `State.params`, which no step changes, so that a statement for every state is one
for every instance. -/
structure Params where
  /-- `IN_BYTES`, the size of `IN_MEM`. -/
  inBytes : Nat
  /-- `OUT_BYTES`, the size of `OUT_MEM`. -/
  outBytes : Nat
  deriving DecidableEq, Repr

/-- The default instance of 00_scope.md R8: 4096 and 4096. -/
def Params.default : Params := ⟨4096, 4096⟩

/-- FREE VALUE. The number of host moves that may pass before the engine finishes the `k`-th operation
it starts (00_scope.md R10, U1): finite, and otherwise unconstrained. -/
opaque Config.latency : Nat → Nat

/-- FREE VALUE. The `k`-th byte drawn for a buffer byte that nothing has written since reset
(70_reset_and_hazards.md R252, U4). -/
opaque Config.freeByte : Nat → Byte

end Sys2Proof
end

