-- ==== Sys2Proof/Syntax.lean ====
section
/-! DEFINITION. The thirteen commands of HTB-CMD1 (30_encoding.md R95), one constructor per row of the opcode table. -/

namespace Sys2Proof

/-- A command. Operands are not in the command word but in the latched argument registers
(30_encoding.md R93), so only ENCODE carries a field: its APPEND bit. -/
inductive Instr where
  /-- NOP, 40_control.md R110. -/
  | nop
  /-- CLEAR, 40_control.md R111. -/
  | clear
  /-- HEAP_BUILD, 41_priority_queue.md R126. -/
  | heapBuild
  /-- PQ_INSERT, 41_priority_queue.md R127. -/
  | pqInsert
  /-- PQ_EXTRACT, 41_priority_queue.md R128. -/
  | pqExtract
  /-- PQ_PEEK, 41_priority_queue.md R129. -/
  | pqPeek
  /-- NODE_MERGE, 42_tree_builder.md R152. -/
  | nodeMerge
  /-- MERGE_STEP, 42_tree_builder.md R153. -/
  | mergeStep
  /-- SET_ROOT, 42_tree_builder.md R154. -/
  | setRoot
  /-- BUILD_TREE, 42_tree_builder.md R155. -/
  | buildTree
  /-- GEN_CODES, 43_code_table.md R183. -/
  | genCodes
  /-- CT_CLEAR, 43_code_table.md R184. -/
  | ctClear
  /-- ENCODE, 44_encoder.md R201; `append` is bit 8 of the word. -/
  | encode (append : Bool)
  deriving DecidableEq, Repr

end Sys2Proof
end

