-- ==== Sys2Proof/WellFormed.lean ====
section
/-! DEFINITION. What it takes for a command and for an instance to be one the spec allows. -/

namespace Sys2Proof

/-- A buffer size the spec allows: a multiple of 4 in 4..4096 (00_scope.md R8). -/
def sizeOk (n : Nat) : Bool := n % 4 == 0 && decide (4 ≤ n) && decide (n ≤ 4096)

/-- An instance the spec allows (00_scope.md R8). -/
def Params.wf (p : Params) : Bool := sizeOk p.inBytes && sizeOk p.outBytes

/-- A well-formed command. The only field of a command is ENCODE's APPEND bit, and both of its values
have an encoding (30_encoding.md R95), so every term of `Instr` is well-formed. -/
def Instr.wf : Instr → Bool
  | .nop => true
  | .clear => true
  | .heapBuild => true
  | .pqInsert => true
  | .pqExtract => true
  | .pqPeek => true
  | .nodeMerge => true
  | .mergeStep => true
  | .setRoot => true
  | .buildTree => true
  | .genCodes => true
  | .ctClear => true
  | .encode _ => true

end Sys2Proof
end

