-- ==== Sys2Proof/Decode.lean ====
section
/-! DEFINITION. The decoder of 30_encoding.md R91, total on 32-bit words, the encoder of R95, and the opcode map. -/

namespace Sys2Proof

/-- Why a command word is ILLEGAL (30_encoding.md R91, R96). The machine treats all three alike
(40_control.md R112). -/
inductive Illegal where
  /-- A nonzero bit in 31:9. -/
  | reservedBits
  /-- Bit 8 set on an opcode other than ENCODE's. -/
  | appendOnOther
  /-- An opcode that is not in the map of R95. -/
  | reservedOpcode
  deriving DecidableEq, Repr

/-- OPCODE, bits 7:0 of the command word (30_encoding.md R90). -/
def opcodeField (v : Word) : BitVec 8 := v.extractLsb' 0 8

/-- A (APPEND), bit 8 of the command word (30_encoding.md R90). -/
def appendField (v : Word) : Bool := v.getLsbD 8

/-- RSV, bits 31:9 of the command word (30_encoding.md R90). -/
def reservedField (v : Word) : BitVec 23 := v.extractLsb' 9 23

/-- ENCODE's opcode (30_encoding.md R95). -/
def encodeOpcode : BitVec 8 := 0x30#8

/-- The opcode map of 30_encoding.md R95, less ENCODE's row, which carries the APPEND bit. -/
def opcodeMap : List (BitVec 8 × Instr) :=
  [(0x00#8, .nop), (0x01#8, .clear),
   (0x10#8, .heapBuild), (0x11#8, .pqInsert), (0x12#8, .pqExtract), (0x13#8, .pqPeek),
   (0x14#8, .nodeMerge), (0x15#8, .mergeStep), (0x16#8, .setRoot), (0x17#8, .buildTree),
   (0x20#8, .genCodes), (0x21#8, .ctClear)]

/-- The command an opcode without APPEND bit selects, if R95 has a row for it. -/
def ofOpcode (op : BitVec 8) : Option Instr := opcodeMap.lookup op

/-- Decoding, 30_encoding.md R91, case by case in the rule's order. -/
def decode (v : Word) : Except Illegal Instr :=
  if reservedField v ≠ 0#23 then .error .reservedBits
  else if opcodeField v = encodeOpcode then .ok (.encode (appendField v))
  else if appendField v then .error .appendOnOther
  else
    match ofOpcode (opcodeField v) with
    | some i => .ok i
    | none => .error .reservedOpcode

/-- The command word of a command (30_encoding.md R95). -/
def encode : Instr → Word
  | .nop => 0x00000000#32
  | .clear => 0x00000001#32
  | .heapBuild => 0x00000010#32
  | .pqInsert => 0x00000011#32
  | .pqExtract => 0x00000012#32
  | .pqPeek => 0x00000013#32
  | .nodeMerge => 0x00000014#32
  | .mergeStep => 0x00000015#32
  | .setRoot => 0x00000016#32
  | .buildTree => 0x00000017#32
  | .genCodes => 0x00000020#32
  | .ctClear => 0x00000021#32
  | .encode false => 0x00000030#32
  | .encode true => 0x00000130#32

/-- The 32-bit word the host writes to CMD for a table word of `nbits` bits: the bits at and above
`nbits` are 0. A command is one 32-bit bus word, so byte order does not arise (20_memory.md R78). -/
def tableWord (nbits w : Nat) : Word := BitVec.ofNat 32 (w % 2 ^ nbits)

/-- What the decoder reads from a word numbered as the opcode table numbers it. -/
def decodeTableWord (nbits w : Nat) : Option Instr :=
  match decode (tableWord nbits w) with
  | .ok i => some i
  | .error _ => none

end Sys2Proof
end

