-- ==== Sys2Proof/Machine/State.lean ====
section
/-! DEFINITION. The state of HTB (10_state.md) as plain data, the reasons a step can stop, and the state right after reset (R46). -/

namespace Sys2Proof.Machine

/-- The engine's phase (10_state.md R42). -/
inductive Phase where
  /-- From reset to the initialisation step. -/
  | init
  /-- No command in progress. -/
  | idle
  /-- From a command's acceptance to its completion. -/
  | busy
  deriving DecidableEq, Repr

/-- The ownership state of an arena entry (10_state.md R33); the code is `ownCode`. -/
inductive Own where
  /-- Allocated, no parent, not queued, not the root. -/
  | loose
  /-- In the heap array. -/
  | queued
  /-- A child of exactly one internal node. -/
  | child
  /-- The selected root. -/
  | rooted
  deriving DecidableEq, Repr

/-- One entry of the node arena (10_state.md R32). -/
structure Node where
  /-- TAG: false (0) for a leaf, true (1) for an internal node. -/
  tag : Bool
  /-- SYM: the symbol of a leaf. -/
  sym : Byte
  /-- WEIGHT. -/
  weight : Word
  /-- LEFT: the child under code bit 0. -/
  left : NodeIdx
  /-- RIGHT: the child under code bit 1. -/
  right : NodeIdx
  deriving DecidableEq, Repr

/-- One entry of the code table (10_state.md R35). -/
structure CtEntry where
  /-- VALID. -/
  valid : Bool
  /-- LEN. -/
  len : Byte
  /-- CW[0..7]; code bit `j` is bit `31 - j mod 32` of word `j div 32`. -/
  cw : Vector Word 8
  deriving DecidableEq, Repr

/-- A byte memory: the written bytes, each with its index, indices strictly rising. An index that is not
listed has not been written since reset and holds no value (10_state.md R36, R37; log 5). -/
abbrev Memory := List Host.Cell

/-- The engine-owned state, the `S` of 20_memory.md R75. -/
structure Engine where
  /-- FREQ[0..255], 10_state.md R30. -/
  freq : Vector Word 256
  /-- NODE[0..510], 10_state.md R32. -/
  node : Vector Node 511
  /-- OWN[0..510], 10_state.md R33. -/
  own : Vector Own 511
  /-- H[0..255], 10_state.md R34. -/
  heap : Vector NodeIdx 256
  /-- HEAP_SIZE.SIZE, 10_state.md R27. -/
  heapSize : BitVec 9
  /-- NODE_COUNT.COUNT, 10_state.md R28. -/
  nodeCount : BitVec 10
  /-- LEAF_COUNT.COUNT, 10_state.md R31. -/
  leafCount : BitVec 9
  /-- ROOT.VALID, 10_state.md R29. -/
  rootValid : Bool
  /-- ROOT.INDEX, 10_state.md R29. -/
  rootIdx : NodeIdx
  /-- CT[0..255], 10_state.md R35. -/
  ct : Vector CtEntry 256
  /-- IN_MEM, 10_state.md R36. -/
  inMem : Memory
  /-- OUT_MEM, 10_state.md R37. -/
  outMem : Memory
  /-- OUT_BITS, 10_state.md R38. -/
  outBits : Word
  deriving DecidableEq, Repr

/-- One move of the host: an aligned or misaligned bus transfer (20_memory.md R61), one of its two ways
of waiting (20_memory.md R82), or asserting `rst_n` (70_reset_and_hazards.md R250). -/
inductive HostMove where
  /-- `read(a) -> (data, err)`. -/
  | read (a : BusAddr)
  /-- `write(a, d) -> err`. -/
  | write (a : BusAddr) (d : Word)
  /-- WAIT: read STATUS until BUSY is 0 (30_encoding.md R100). -/
  | wait
  /-- Wait until `irq` is 1 (20_memory.md R82). -/
  | waitIrq
  /-- Assert `rst_n` and deassert it. -/
  | reset
  deriving DecidableEq, Repr

/-- What a bus transfer gives back (20_memory.md R61). -/
inductive BusResponse where
  /-- PRDATA and PSLVERR of a read. -/
  | readDone (data : Word) (slverr : Bool)
  /-- PSLVERR of a write. -/
  | writeDone (slverr : Bool)
  deriving DecidableEq, Repr

/-- The state of the machine: HTB's registers and engine, the host's pending moves, and the counters
that index the free values. -/
structure State where
  /-- IN_BYTES and OUT_BYTES of this instance (log 1). No step changes them. -/
  params : Params
  /-- The engine-owned state, 20_memory.md R75. -/
  eng : Engine
  /-- PHASE, 10_state.md R42. -/
  phase : Phase
  /-- CTRL.IE, 10_state.md R22. -/
  ie : Bool
  /-- STATUS.DONE, 10_state.md R23. -/
  done : Bool
  /-- STATUS.OVERRUN, 10_state.md R23. -/
  overrun : Bool
  /-- STATUS.ERR, 10_state.md R23. -/
  err : BitVec 4
  /-- ARG0, 10_state.md R25. -/
  arg0 : Word
  /-- ARG1, 10_state.md R25. -/
  arg1 : Word
  /-- RES0, 10_state.md R26. -/
  res0 : Word
  /-- RES1, 10_state.md R26. -/
  res1 : Word
  /-- The latch CMD_L, 10_state.md R40. -/
  cmdL : Word
  /-- The latch ARG0_L, 10_state.md R40. -/
  arg0L : Word
  /-- The latch ARG1_L, 10_state.md R40. -/
  arg1L : Word
  /-- MODEL'S OWN (log 2): the host's moves still to be made, oldest first. -/
  host : List HostMove
  /-- MODEL'S OWN (log 2): what the last bus transfer gave back. -/
  resp : Option BusResponse
  /-- MODEL'S OWN (log 3): engine operations started so far, the index of the free latency. -/
  starts : Nat
  /-- MODEL'S OWN (log 3): host moves since the present engine operation started. -/
  busyMoves : Nat
  /-- MODEL'S OWN (log 6): bytes drawn so far, the index of the free byte. -/
  draws : Nat
  deriving DecidableEq, Repr

/-- Why the machine stops with a fault. -/
inductive Fault where
  /-- Raised by ENCODE alone, when it reads IN_MEM at offset `off` and that byte has not been written
  since reset: 44_encoder.md R204 tells a model to fault here. SAFE: nothing can be proved of the run. -/
  | unwrittenInput (off : Nat)
  /-- Raised by GEN_CODES alone, when it meets an internal node at depth 255, the depth of the hardware's
  stack and path buffer (10_state.md R43). By 00_scope.md R9 no state that a run reaches has one
  (log 7). SAFE: nothing can be proved of the run. -/
  | codeTooLong
  deriving DecidableEq, Repr

/-- Why a step has no meaning. -/
inductive Refusal where
  /-- Raised by an arm of `exec` whose command has no meaning yet. No arm does. SAFE. -/
  | notModelled (mnemonic : String)
  deriving DecidableEq, Repr

/-- An arena entry with every field 0: what the model puts where the spec leaves the contents
unspecified and unobservable (10_state.md R46; log 4). -/
def Node.blank : Node := ⟨false, 0#8, 0#32, 0#9, 0#9⟩

/-- A code table entry with VALID = 0, LEN = 0, CW = 0 (70_reset_and_hazards.md R251). -/
def CtEntry.blank : CtEntry := ⟨false, 0#8, Vector.replicate 8 0#32⟩

/-- The engine-owned state right after reset (10_state.md R46, column "at reset"). FREQ, CT, NODE, OWN and
H are unspecified there and not observable (log 4). -/
def Engine.reset : Engine where
  freq := Vector.replicate 256 0#32
  node := Vector.replicate 511 Node.blank
  own := Vector.replicate 511 Own.loose
  heap := Vector.replicate 256 0#9
  heapSize := 0#9
  nodeCount := 0#10
  leafCount := 0#9
  rootValid := false
  rootIdx := 0#9
  ct := Vector.replicate 256 CtEntry.blank
  inMem := []
  outMem := []
  outBits := 0#32

/-- The state right after reset of the instance `p` (10_state.md R46, column "at reset"). -/
def State.resetOf (p : Params) : State where
  params := p
  eng := Engine.reset
  phase := .init
  ie := false
  done := false
  overrun := false
  err := 0#4
  arg0 := 0#32
  arg1 := 0#32
  res0 := 0#32
  res1 := 0#32
  cmdL := 0#32
  arg0L := 0#32
  arg1L := 0#32
  host := []
  resp := none
  starts := 0
  busyMoves := 0
  draws := 0

/-- The state right after reset of the default instance (00_scope.md R8). -/
def State.reset : State := State.resetOf Params.default

end Sys2Proof.Machine
end

