-- ==== Sys2Proof/Machine/Ops.lean ====
section
/-! DEFINITION. The named operations over the state: arrays, byte memories, bit setting, the error codes, and the one operation by which a command ends, with or without an error. -/

namespace Sys2Proof.Machine

/-! ## Arrays -/

/-- Entry `i` of an array; `d` where there is no such entry (log 8). -/
def tget {α : Type} {n : Nat} (v : Vector α n) (i : Nat) (d : α) : α := v[i]?.getD d

/-- The array with entry `i` set to `x`; unchanged where there is no such entry (log 8). -/
def tset {α : Type} {n : Nat} (v : Vector α n) (i : Nat) (x : α) : Vector α n := v.setIfInBounds i x

/-- `FREQ[s]`. -/
def Engine.freqAt (e : Engine) (s : Nat) : Word := tget e.freq s 0#32

/-- `NODE[i]`. -/
def Engine.nodeAt (e : Engine) (i : Nat) : Node := tget e.node i Node.blank

/-- `OWN[i]`. -/
def Engine.ownAt (e : Engine) (i : Nat) : Own := tget e.own i Own.loose

/-- `H[i]`. -/
def Engine.heapAt (e : Engine) (i : Nat) : NodeIdx := tget e.heap i 0#9

/-- `CT[s]`. -/
def Engine.ctAt (e : Engine) (s : Nat) : CtEntry := tget e.ct s CtEntry.blank

/-- `FREQ[s] <- w`. -/
def Engine.setFreq (e : Engine) (s : Nat) (w : Word) : Engine := { e with freq := tset e.freq s w }

/-- `OWN[i] <- o`. -/
def Engine.setOwn (e : Engine) (i : Nat) (o : Own) : Engine := { e with own := tset e.own i o }

/-- `CT[s] <- c`. -/
def Engine.setCt (e : Engine) (s : Nat) (c : CtEntry) : Engine := { e with ct := tset e.ct s c }

/-! ## Bits -/

/-- The value with bit `i` set to `b` (notation of 00_scope.md R11). -/
def setBit {w : Nat} (v : BitVec w) (i : Nat) (b : Bool) : BitVec w :=
  if b then v ||| BitVec.twoPow w i else v &&& ~~~ BitVec.twoPow w i

/-! ## Byte memories -/

/-- The canonical form of a byte memory: indices strictly rising. An unlisted index has no value, so no
listed entry can repeat it. -/
def Memory.wf : Memory → Bool
  | [] => true
  | [_] => true
  | c :: d :: m => decide (c.1 < d.1) && Memory.wf (d :: m)

/-- The byte at index `a`, if it has been written since reset. -/
def Memory.read (m : Memory) (a : Nat) : Option Byte := m.lookup a

/-- The memory with `b` written at index `a`; keeps the canonical form. -/
def Memory.write : Memory → Nat → Byte → Memory
  | [], a, b => [(a, b)]
  | c :: m, a, b =>
    if a < c.1 then (a, b) :: c :: m
    else if a = c.1 then (a, b) :: m
    else c :: Memory.write m a b

/-- Byte `k` of a bus word, byte 0 the least significant (20_memory.md R68). -/
def byteOf (d : Word) (k : Nat) : Byte := d.extractLsb' (8 * k) 8

/-- Four bytes as a bus word, the first the least significant (20_memory.md R68). -/
def wordOf (b0 b1 b2 b3 : Byte) : Word := b3 ++ b2 ++ b1 ++ b0

/-- A write of word `j` of a byte window, little-endian (20_memory.md R68, R69). -/
def Memory.writeWord (m : Memory) (j : Nat) (d : Word) : Memory :=
  (((m.write (4 * j) (byteOf d 0)).write (4 * j + 1) (byteOf d 1)).write (4 * j + 2) (byteOf d 2)).write
    (4 * j + 3) (byteOf d 3)

/-- The byte at index `a`, or the free byte number `k` where nothing has been written since reset
(70_reset_and_hazards.md R252; log 6). -/
def Memory.readFree (m : Memory) (a k : Nat) : Byte := (m.read a).getD (Config.freeByte k)

/-- A read of word `j` of a byte window, little-endian (20_memory.md R68, R69). Unwritten bytes are the
free bytes numbered `k` to `k + 3`. -/
def Memory.readWord (m : Memory) (j k : Nat) : Word :=
  wordOf (m.readFree (4 * j) k) (m.readFree (4 * j + 1) (k + 1)) (m.readFree (4 * j + 2) (k + 2))
    (m.readFree (4 * j + 3) (k + 3))

/-! ## Errors, and the end of a command -/

/-- The command error codes (60_exceptions.md R221). -/
inductive ErrCode where
  /-- Success. -/
  | ok
  /-- FREQ all zero, or ENCODE of no symbol. -/
  | invalidInput
  /-- An input symbol without a code. -/
  | symbolNotFound
  /-- Reserved for a decoder; never raised. -/
  | malformedBitstream
  /-- An ILLEGAL command word. -/
  | illegalCommand
  /-- Too few queued nodes. -/
  | queueEmpty
  /-- A node operand that is not allocated. -/
  | badNode
  /-- A node operand that is not LOOSE. -/
  | nodeNotLoose
  /-- No root selected. -/
  | noTree
  /-- A weight sum above 0xFFFFFFFF. -/
  | weightOverflow
  /-- An ENCODE range past the end of IN_MEM. -/
  | badRange
  /-- A code that does not fit in OUT_MEM. -/
  | outOverflow
  /-- HEAP_SIZE = 256. -/
  | queueFull
  /-- NODE_COUNT = 511. -/
  | arenaFull
  deriving DecidableEq, Repr

/-- The number of an error code (60_exceptions.md R221). -/
def errNumber : ErrCode → BitVec 4
  | .ok => 0x0#4
  | .invalidInput => 0x1#4
  | .symbolNotFound => 0x2#4
  | .malformedBitstream => 0x3#4
  | .illegalCommand => 0x4#4
  | .queueEmpty => 0x5#4
  | .badNode => 0x6#4
  | .nodeNotLoose => 0x7#4
  | .noTree => 0x8#4
  | .weightOverflow => 0x9#4
  | .badRange => 0xA#4
  | .outOverflow => 0xB#4
  | .queueFull => 0xC#4
  | .arenaFull => 0xD#4

/-- What `Exec` of 20_memory.md R75 answers: `(S', err, r0, r1)`. -/
structure Completion where
  /-- `S'`. -/
  eng : Engine
  /-- `err`. -/
  err : ErrCode
  /-- `r0`. -/
  r0 : Word
  /-- `r1`. -/
  r1 : Word
  deriving DecidableEq, Repr

/-- `return (r0, r1)` on the working copy `e` (00_scope.md R13). -/
def success (e : Engine) (r0 r1 : Word) : Completion := ⟨e, .ok, r0, r1⟩

/-- `raise x(0, 0)`: the working copy is discarded and `e`, the state before the command, is kept
(60_exceptions.md R224, R225). -/
def raised (e : Engine) (x : ErrCode) : Completion := ⟨e, x, 0#32, 0#32⟩

/-- The completion step's commit (20_memory.md R75), the one operation by which every command ends, with
success or with an error: an error is recorded in ERR, RES0 and RES1 and saves nothing else, and control
flow does not change (60_exceptions.md R224, R229). -/
def State.complete (s : State) (c : Completion) : State :=
  { s with
    eng := c.eng
    res0 := c.r0
    res1 := c.r1
    err := errNumber c.err
    done := true
    phase := .idle }

/-- The completion of an ILLEGAL word: `raise ILLEGAL_COMMAND(0, 0)` (40_control.md R112). -/
def State.completeIllegal (s : State) : State := s.complete (raised s.eng .illegalCommand)

/-- Acceptance of the value `v` written to CMD (20_memory.md R74). Acceptance also acknowledges the
previous completion, the nearest HTB has to a return from an exception (60_exceptions.md R230). The
model starts the count of host moves afresh (log 3). -/
def State.accept (s : State) (v : Word) : State :=
  { s with
    cmdL := v
    arg0L := s.arg0
    arg1L := s.arg1
    done := false
    err := 0#4
    phase := .busy
    starts := s.starts + 1
    busyMoves := 0 }

/-- FREQ, CT, the counts, ROOT and OUT_BITS cleared: the body shared by CLEAR (40_control.md R111) and
the initialisation step (70_reset_and_hazards.md R251). -/
def Engine.cleared (e : Engine) : Engine :=
  { e with
    freq := Vector.replicate 256 0#32
    ct := Vector.replicate 256 CtEntry.blank
    nodeCount := 0#10
    leafCount := 0#9
    heapSize := 0#9
    rootValid := false
    rootIdx := 0#9
    outBits := 0#32 }

/-- CT cleared (43_code_table.md R183, R184). -/
def Engine.ctCleared (e : Engine) : Engine := { e with ct := Vector.replicate 256 CtEntry.blank }

/-- The initialisation step (70_reset_and_hazards.md R251). It writes no RES, ERR or DONE. -/
def State.initStep (s : State) : State := { s with eng := s.eng.cleared, phase := .idle }

/-- Hardware reset (70_reset_and_hazards.md R250, R252): every register at its reset value, PHASE = INIT,
both buffers unwritten, a command in progress abandoned. No register of HTB, and so kept: the instance, the
host's remaining moves, and what the host holds of its last transfer (`resp`: the spec is silent on it, DESIGN
CHOICE, log 2). The counters of the free values go on (logs 3, 6). -/
def State.hardReset (s : State) : State :=
  { State.resetOf s.params with
    host := s.host
    resp := s.resp
    starts := s.starts + 1
    draws := s.draws }

end Sys2Proof.Machine
end

