-- ==== Sys2Proof/Machine/Flags.lean ====
section
/-! DEFINITION. STATUS and irq: how every status bit is computed, read and cleared (10_state.md R23, R45). -/

namespace Sys2Proof.Machine

/-- STATUS.BUSY: 1 exactly while PHASE is not IDLE (10_state.md R42). -/
def State.busy (s : State) : Bool := decide (s.phase ≠ .idle)

/-- The STATUS word: BUSY at 0, DONE at 1, OVERRUN at 2, ERR at 7:4, every other bit 0 (10_state.md R23). -/
def State.statusWord (s : State) : Word :=
  (0#24 : BitVec 24) ++ s.err ++ (0#1 : BitVec 1) ++ BitVec.ofBool s.overrun ++ BitVec.ofBool s.done ++
    BitVec.ofBool s.busy

/-- A write of `d` to STATUS: clears DONE where bit 1 is 1 and OVERRUN where bit 2 is 1, and nothing else
(10_state.md R23). The write that clears DONE is how the host acknowledges a completion
(60_exceptions.md R230). -/
def State.writeStatus (s : State) (d : Word) : State :=
  { s with
    done := s.done && !d.getLsbD 1
    overrun := s.overrun && !d.getLsbD 2 }

/-- The interrupt output (10_state.md R45). -/
def State.irq (s : State) : Bool := s.ie && s.done

/-- The CTRL word: IE at bit 0 (10_state.md R22). -/
def State.ctrlWord (s : State) : Word := (BitVec.ofBool s.ie).zeroExtend 32

/-- A write of `d` to CTRL: IE takes bit 0 (10_state.md R22). -/
def State.writeCtrl (s : State) (d : Word) : State := { s with ie := d.getLsbD 0 }

/-- The overrun bit set (20_memory.md R76, 60_exceptions.md R227). -/
def State.setOverrun (s : State) : State := { s with overrun := true }

/-- The two-bit code of an ownership state (10_state.md R33). -/
def ownCode : Own → BitVec 2
  | .loose => 0#2
  | .queued => 1#2
  | .child => 2#2
  | .rooted => 3#2

end Sys2Proof.Machine
end

