-- ==== Sys2Proof/Machine/Operands.lean ====
section
/-! DEFINITION. The operand forms of the commands: node-index operands, byte ranges, and the bits of a stored code. -/

namespace Sys2Proof.Machine

/-- A node-index operand names an allocated entry: the full 32-bit value is compared with NODE_COUNT
(30_encoding.md R93). -/
def Engine.allocated (e : Engine) (v : Word) : Bool := decide (v.toNat < e.nodeCount.toNat)

/-- `OWN[v] = LOOSE` for a node operand. -/
def Engine.isLoose (e : Engine) (v : Word) : Bool := decide (e.ownAt v.toNat = .loose)

/-- The node index of an operand already checked against NODE_COUNT, which is at most 511. -/
def nodeOperand (v : Word) : NodeIdx := BitVec.ofNat 9 v.toNat

/-- A node index as a result, zero-extended (00_scope.md R11). -/
def idxWord (n : NodeIdx) : Word := n.zeroExtend 32

/-- A symbol as a result, zero-extended. -/
def symWord (b : Byte) : Word := b.zeroExtend 32

/-- An exact number as a result word. Every rule that returns one has checked or bounded it first
(00_scope.md R14). -/
def natWord (n : Nat) : Word := BitVec.ofNat 32 n

/-- ENCODE's range check: `start + n` exceeds IN_BYTES, the sum exact (44_encoder.md R201). -/
def rangeBad (p : Params) (start n : Word) : Bool := decide (p.inBytes < start.toNat + n.toNat)

/-- `codebit`, bit `j` of a stored code (43_code_table.md R180). -/
def CtEntry.codebit (c : CtEntry) (j : Nat) : Bool := (tget c.cw (j / 32) 0#32).getLsbD (31 - j % 32)

/-- `code`, the stored code as a bit string, bit 0 first (43_code_table.md R180). -/
def CtEntry.code (c : CtEntry) : List Bool := (List.range c.len.toNat).map c.codebit

/-- The writes of `store_code`'s loop from bit `j` on (43_code_table.md R180). -/
def storeBits : List Bool → Nat → Vector Word 8 → Vector Word 8
  | [], _, cw => cw
  | b :: bs, j, cw => storeBits bs (j + 1) (tset cw (j / 32) (setBit (tget cw (j / 32) 0#32) (31 - j % 32) b))

/-- The entry `store_code` leaves for the code `c`: all words zeroed, the bits of `c` set, LEN and VALID
written (43_code_table.md R180). -/
def codeEntry (c : List Bool) : CtEntry :=
  ⟨true, BitVec.ofNat 8 c.length, storeBits c 0 (Vector.replicate 8 0#32)⟩

/-- `store_code(s, c)` (43_code_table.md R180). -/
def Engine.storeCode (e : Engine) (s : Byte) (c : List Bool) : Engine := e.setCt s.toNat (codeEntry c)

end Sys2Proof.Machine
end

