-- ==== Sys2Proof/Machine/Bus.lean ====
section
/-! DEFINITION. The host bus (20_memory.md): the address map, register and window reads and writes, and one bus transfer. -/

namespace Sys2Proof.Machine

/-- The registers at 0x0000-0x003B (20_memory.md R64). -/
inductive Reg where
  | id | ctrl | status | cmd | arg0 | arg1 | res0 | res1
  | heapSize | nodeCount | leafCount | root | outBits | inSize | outSize
  deriving DecidableEq, Repr

/-- What a bus address selects (20_memory.md R62, R64, R65). -/
inductive Region where
  /-- PADDR[1:0] is not 0. -/
  | misaligned
  /-- Aligned, and in no row of the address map. -/
  | unmapped
  /-- A register. -/
  | reg (r : Reg)
  /-- The FREQ window, word `s`. -/
  | freq (s : Nat)
  /-- The IN window, word `j`. -/
  | input (j : Nat)
  /-- The OUT window, word `j`. -/
  | output (j : Nat)
  /-- The CT window, entry `s`, word `w` in 0..15. -/
  | ct (s w : Nat)
  /-- The NODE window, entry `i`, word `w` in 0..3. -/
  | node (i w : Nat)
  /-- The HEAP window, word `i`. -/
  | heap (i : Nat)
  deriving DecidableEq, Repr

/-- The byte offset of a register (20_memory.md R64). -/
def regOffset : Reg → Nat
  | .id => 0x000
  | .ctrl => 0x004
  | .status => 0x008
  | .cmd => 0x00C
  | .arg0 => 0x010
  | .arg1 => 0x014
  | .res0 => 0x018
  | .res1 => 0x01C
  | .heapSize => 0x020
  | .nodeCount => 0x024
  | .leafCount => 0x028
  | .root => 0x02C
  | .outBits => 0x030
  | .inSize => 0x034
  | .outSize => 0x038

/-- Every register, in the order of its offset. -/
def allRegs : List Reg :=
  [.id, .ctrl, .status, .cmd, .arg0, .arg1, .res0, .res1,
   .heapSize, .nodeCount, .leafCount, .root, .outBits, .inSize, .outSize]

/-- The register at the aligned byte offset `n`, if there is one. -/
def regAt (n : Nat) : Option Reg := allRegs.find? fun r => regOffset r == n

/-- The address map of the instance `p` (20_memory.md R62, R64, R65). -/
def region (p : Params) (a : BusAddr) : Region :=
  let n := a.toNat
  if n % 4 ≠ 0 then .misaligned
  else if n < 0x003C then
    match regAt n with
    | some r => .reg r
    | none => .unmapped
  else if 0x0400 ≤ n ∧ n < 0x0800 then .freq ((n - 0x0400) / 4)
  else if 0x1000 ≤ n ∧ n < 0x1000 + p.inBytes ∧ n < 0x2000 then .input ((n - 0x1000) / 4)
  else if 0x2000 ≤ n ∧ n < 0x2000 + p.outBytes ∧ n < 0x3000 then .output ((n - 0x2000) / 4)
  else if 0x4000 ≤ n ∧ n < 0x8000 then .ct ((n - 0x4000) / 64) ((n - 0x4000) % 64 / 4)
  else if 0x8000 ≤ n ∧ n < 0xA000 then .node ((n - 0x8000) / 16) ((n - 0x8000) % 16 / 4)
  else if 0xA000 ≤ n ∧ n < 0xA400 then .heap ((n - 0xA000) / 4)
  else .unmapped

/-- The value of ID (10_state.md R21). -/
def idValue : Word := 0x48544231#32

/-- What a read of a register returns, in any phase (10_state.md R21-R39, 20_memory.md R66, R77). -/
def State.readReg (s : State) : Reg → Word
  | .id => idValue
  | .ctrl => s.ctrlWord
  | .status => s.statusWord
  | .cmd => 0#32
  | .arg0 => s.arg0
  | .arg1 => s.arg1
  | .res0 => s.res0
  | .res1 => s.res1
  | .heapSize => s.eng.heapSize.zeroExtend 32
  | .nodeCount => s.eng.nodeCount.zeroExtend 32
  | .leafCount => s.eng.leafCount.zeroExtend 32
  | .root => BitVec.ofBool s.eng.rootValid ++ (0#22 : BitVec 22) ++ s.eng.rootIdx
  | .outBits => s.eng.outBits
  | .inSize => natWord s.params.inBytes
  | .outSize => natWord s.params.outBytes

/-- A write of `d` to CMD: accepted while IDLE, else dropped with OVERRUN set (20_memory.md R74, R76). -/
def State.writeCmd (s : State) (d : Word) : State := if s.phase = .idle then s.accept d else s.setOverrun

/-- A write of `d` to a register, in any phase; a read-only register ignores it
(20_memory.md R66, R77). -/
def State.writeReg (s : State) (d : Word) : Reg → State
  | .id => s
  | .ctrl => s.writeCtrl d
  | .status => s.writeStatus d
  | .cmd => s.writeCmd d
  | .arg0 => { s with arg0 := d }
  | .arg1 => { s with arg1 := d }
  | .res0 => s
  | .res1 => s
  | .heapSize => s
  | .nodeCount => s
  | .leafCount => s
  | .root => s
  | .outBits => s
  | .inSize => s
  | .outSize => s

/-- The entry word of a code table entry (20_memory.md R70). -/
def CtEntry.word (c : CtEntry) : Word := BitVec.ofBool c.valid ++ (0#23 : BitVec 23) ++ c.len

/-- Word `w` of a code table entry as the CT window reads it; words 9-15 read 0 (20_memory.md R70). -/
def CtEntry.readWord (c : CtEntry) (w : Nat) : Word :=
  if w = 0 then c.word else if w ≤ 8 then tget c.cw (w - 1) 0#32 else 0#32

/-- A write of `d` to word `w` of a code table entry; words 9-15 ignore it (20_memory.md R70). -/
def CtEntry.writeWord (c : CtEntry) (w : Nat) (d : Word) : CtEntry :=
  if w = 0 then { c with valid := d.getLsbD 31, len := d.extractLsb' 0 8 }
  else if w ≤ 8 then { c with cw := tset c.cw (w - 1) d }
  else c

/-- The first word of a NODE window entry: TAG at 31, OWN at 29:28, SYM at 7:0 (20_memory.md R71). -/
def nodeWord (n : Node) (o : Own) : Word :=
  BitVec.ofBool n.tag ++ (0#1 : BitVec 1) ++ ownCode o ++ (0#20 : BitVec 20) ++ n.sym

/-- Word `w` of entry `i` as the NODE window reads it; 0 for an unallocated entry (20_memory.md R71). -/
def Engine.readNode (e : Engine) (i w : Nat) : Word :=
  if i < e.nodeCount.toNat then
    if w = 0 then nodeWord (e.nodeAt i) (e.ownAt i)
    else if w = 1 then (e.nodeAt i).weight
    else if w = 2 then (e.nodeAt i).left.zeroExtend 32
    else (e.nodeAt i).right.zeroExtend 32
  else 0#32

/-- Word `i` as the HEAP window reads it; 0 at and above HEAP_SIZE (20_memory.md R72). -/
def Engine.readHeap (e : Engine) (i : Nat) : Word :=
  if i < e.heapSize.toNat then (e.heapAt i).zeroExtend 32 else 0#32

/-- A read of a window, defined where PHASE is IDLE (20_memory.md R67-R72); 0 for anything that is no
window. Unwritten buffer bytes are the free bytes from number `k` on. -/
def Engine.readWindow (e : Engine) (k : Nat) : Region → Word
  | .misaligned => 0#32
  | .unmapped => 0#32
  | .reg _ => 0#32
  | .freq s => e.freqAt s
  | .input j => e.inMem.readWord j k
  | .output j => e.outMem.readWord j k
  | .ct s w => (e.ctAt s).readWord w
  | .node i w => e.readNode i w
  | .heap i => e.readHeap i

/-- A write of `d` to a window, defined where PHASE is IDLE (20_memory.md R66-R72); the read-only NODE
and HEAP windows, and anything that is no window, ignore it. -/
def Engine.writeWindow (e : Engine) (d : Word) : Region → Engine
  | .misaligned => e
  | .unmapped => e
  | .reg _ => e
  | .freq s => e.setFreq s d
  | .input j => { e with inMem := e.inMem.writeWord j d }
  | .output j => { e with outMem := e.outMem.writeWord j d }
  | .ct s w => e.setCt s ((e.ctAt s).writeWord w d)
  | .node _ _ => e
  | .heap _ => e

/-- PSLVERR of a transfer to a region: exactly misaligned, unmapped, or a window while PHASE is not IDLE
(60_exceptions.md R226). -/
def State.busError (s : State) : Region → Bool
  | .misaligned => true
  | .unmapped => true
  | .reg _ => false
  | .freq _ => s.busy
  | .input _ => s.busy
  | .output _ => s.busy
  | .ct _ _ => s.busy
  | .node _ _ => s.busy
  | .heap _ => s.busy

/-- PRDATA of a read of a region: 0 where the transfer fails (20_memory.md R62, R65, R73). -/
def State.busData (s : State) (g : Region) : Word :=
  if s.busError g then 0#32
  else
    match g with
    | .reg r => s.readReg r
    | g' => s.eng.readWindow s.draws g'

/-- The state after a write of `d` to a region: unchanged where the transfer fails. -/
def State.busStore (s : State) (g : Region) (d : Word) : State :=
  if s.busError g then s
  else
    match g with
    | .reg r => s.writeReg d r
    | g' => { s with eng := s.eng.writeWindow d g' }

/-- One read transfer (20_memory.md R61, R63). It changes nothing of HTB (20_memory.md R80): only what
the host got back, and the count of free bytes, of which one read can use four (log 6). -/
def State.busRead (s : State) (a : BusAddr) : State :=
  { s with
    resp := some (.readDone (s.busData (region s.params a)) (s.busError (region s.params a)))
    draws := s.draws + 4 }

/-- One write transfer (20_memory.md R61, R63). -/
def State.busWrite (s : State) (a : BusAddr) (d : Word) : State :=
  { s.busStore (region s.params a) d with
    resp := some (.writeDone (s.busError (region s.params a))) }

end Sys2Proof.Machine
end

