-- ==== Sys2Proof/Machine/CodeTable.lean ====
section
/-! DEFINITION. The code table generator (43_code_table.md): the depth-first walk and the commands GEN_CODES and CT_CLEAR. -/

namespace Sys2Proof.Machine

/-- The leaves under node `i` in pre-order, each symbol with its path, where `i` has the path `p`
(43_code_table.md R181, R183): left appends 0 and is visited first, right appends 1. The first
argument is the depth still allowed, so that a leaf has depth at most `L_MAX` = 255
(00_scope.md R9, 10_state.md R43); `none` where an internal node stands at that depth (log 7). -/
def Engine.walk (e : Engine) : Nat → NodeIdx → List Bool → Option (List (Byte × List Bool))
  | fuel, i, p =>
    if (e.nodeAt i.toNat).tag then
      match fuel with
      | 0 => none
      | f + 1 =>
        match Engine.walk e f (e.nodeAt i.toNat).left (p ++ [false]) with
        | none => none
        | some l =>
          match Engine.walk e f (e.nodeAt i.toNat).right (p ++ [true]) with
          | none => none
          | some r => some (l ++ r)
    else some [((e.nodeAt i.toNat).sym, p)]

/-- The codes GEN_CODES assigns under ROOT: "0" for a root that is a leaf (43_code_table.md R182), the
paths of the leaves otherwise (R181). -/
def Engine.rootCodes (e : Engine) : Option (List (Byte × List Bool)) :=
  if (e.nodeAt e.rootIdx.toNat).tag then e.walk 255 e.rootIdx []
  else some [((e.nodeAt e.rootIdx.toNat).sym, [false])]

/-- The codes of a list stored one after another (43_code_table.md R183). -/
def Engine.storeCodes (e : Engine) : List (Byte × List Bool) → Engine
  | [] => e
  | c :: cs => Engine.storeCodes (e.storeCode c.1 c.2) cs

/-- The greatest length in a list of codes (43_code_table.md R183). -/
def maxLen : List (Byte × List Bool) → Nat
  | [] => 0
  | c :: cs => max c.2.length (maxLen cs)

/-- GEN_CODES, 43_code_table.md R183. -/
def execGenCodes (s : State) : Host.Outcome State Fault Refusal :=
  if s.eng.rootValid then
    match s.eng.rootCodes with
    | none => .fault .codeTooLong
    | some cs => .next (s.complete (success (s.eng.ctCleared.storeCodes cs) (natWord cs.length) (natWord (maxLen cs))))
  else .next (s.complete (raised s.eng .noTree))

/-- CT_CLEAR, 43_code_table.md R184. -/
def execCtClear (s : State) : Host.Outcome State Fault Refusal :=
  .next (s.complete (success s.eng.ctCleared 0#32 0#32))

end Sys2Proof.Machine
end

