-- ==== Sys2Proof/Machine/Control.lean ====
section
/-! DEFINITION. The control commands (40_control.md): NOP and CLEAR. An ILLEGAL word is no command; the step takes it by `State.completeIllegal`. -/

namespace Sys2Proof.Machine

/-- NOP, 40_control.md R110. -/
def execNop (s : State) : Host.Outcome State Fault Refusal :=
  .next (s.complete (success s.eng 0#32 0#32))

/-- CLEAR, 40_control.md R111. -/
def execClear (s : State) : Host.Outcome State Fault Refusal :=
  .next (s.complete (success s.eng.cleared 0#32 0#32))

end Sys2Proof.Machine
end

