-- ==== Sys2Proof/Machine/Encoder.lean ====
section
/-! DEFINITION. The bit-string encoder (44_encoder.md): emit_bit and the command ENCODE. -/

namespace Sys2Proof.Machine

/-- `emit_bit(b)` (44_encoder.md R200): bit position `p = OUT_BITS` of the stream is bit `7 - p mod 8` of
`OUT_MEM[p div 8]`, and a byte is zeroed when its first bit is written. `junk` stands for a byte that
has other bits to keep and that nothing has written, which no run reaches (log 6). -/
def Engine.emitBit (junk : Byte) (e : Engine) (b : Bool) : Engine :=
  let p := e.outBits.toNat
  let old := if p % 8 = 0 then 0#8 else (e.outMem.read (p / 8)).getD junk
  { e with
    outMem := e.outMem.write (p / 8) (setBit old (7 - p % 8) b)
    outBits := BitVec.ofNat 32 (p + 1) }

/-- A whole code emitted, bit 0 first (44_encoder.md R201). -/
def Engine.emitCode (junk : Byte) (e : Engine) (c : List Bool) : Engine := c.foldl (Engine.emitBit junk) e

/-- How ENCODE's loop ends. -/
inductive EncodeEnd where
  /-- Every symbol encoded: the state after and the bits emitted. -/
  | finished (e : Engine) (bits : Nat)
  /-- `raise x(off, s)` with the output of the earlier symbols kept (60_exceptions.md R225). -/
  | stopped (x : ErrCode) (e : Engine) (off : Nat) (sym : Byte)
  /-- IN_MEM at `off` was never written (44_encoder.md R204). -/
  | unwritten (off : Nat)
  deriving DecidableEq, Repr

/-- ENCODE's loop over the `n` symbols from `off` on, with `k` bits emitted so far (44_encoder.md R201).
`outBytes` is OUT_BYTES. -/
def encodeLoop (outBytes : Nat) (junk : Byte) : Nat → Nat → Nat → Engine → EncodeEnd
  | 0, _, k, e => .finished e k
  | n + 1, off, k, e =>
    match e.inMem.read off with
    | none => .unwritten off
    | some s =>
      if !(e.ctAt s.toNat).valid then .stopped .symbolNotFound e off s
      else if 8 * outBytes < e.outBits.toNat + (e.ctAt s.toNat).len.toNat then .stopped .outOverflow e off s
      else
        encodeLoop outBytes junk n (off + 1) (k + (e.ctAt s.toNat).len.toNat)
          (e.emitCode junk (e.ctAt s.toNat).code)

/-- `if A = 0: OUT_BITS <- 0` (44_encoder.md R201). -/
def Engine.startOutput (e : Engine) (append : Bool) : Engine := if append then e else { e with outBits := 0#32 }

/-- ENCODE's loop on the state's operands (44_encoder.md R201). -/
def State.encodeRun (s : State) (append : Bool) : EncodeEnd :=
  encodeLoop s.params.outBytes (Config.freeByte s.draws) s.arg1L.toNat s.arg0L.toNat 0 (s.eng.startOutput append)

/-- ENCODE, 44_encoder.md R201, checks in the order of 60_exceptions.md R223. The free byte, once it may
have been used, is not drawn again (log 6). -/
def execEncode (append : Bool) (s : State) : Host.Outcome State Fault Refusal :=
  if s.arg1L.toNat = 0 then .next (s.complete (raised s.eng .invalidInput))
  else if rangeBad s.params s.arg0L s.arg1L then .next (s.complete (raised s.eng .badRange))
  else
    match s.encodeRun append with
    | .finished e k => .next (({ s with draws := s.draws + 1 }).complete (success e (natWord k) s.arg1L))
    | .stopped x e off b => .next (({ s with draws := s.draws + 1 }).complete ⟨e, x, natWord off, symWord b⟩)
    | .unwritten off => .fault (.unwrittenInput off)

end Sys2Proof.Machine
end

