-- ==== Sys2Proof/Machine/PriorityQueue.lean ====
section
/-! DEFINITION. The priority queue (41_priority_queue.md): the heap order, the sift procedures, heap_insert and heap_extract, and the commands HEAP_BUILD, PQ_INSERT, PQ_EXTRACT and PQ_PEEK. -/

namespace Sys2Proof.Machine

/-! ## Heap order and primitives -/

/-- `less(x, y)`: the key (WEIGHT, index) compared lexicographically (41_priority_queue.md R120). -/
def Engine.less (e : Engine) (x y : NodeIdx) : Bool :=
  decide ((e.nodeAt x.toNat).weight.toNat < (e.nodeAt y.toNat).weight.toNat) ||
    (decide ((e.nodeAt x.toNat).weight.toNat = (e.nodeAt y.toNat).weight.toNat) && decide (x.toNat < y.toNat))

/-- `H[i]` of a heap array. -/
def hget (h : Vector NodeIdx 256) (i : Nat) : NodeIdx := tget h i 0#9

/-- `swap H[i], H[j]`. -/
def hswap (h : Vector NodeIdx 256) (i j : Nat) : Vector NodeIdx 256 := tset (tset h i (hget h j)) j (hget h i)

/-- The position among `i` and its children within `n` whose node is least, the left child compared
first, then the right (41_priority_queue.md R122). -/
def minChild (lt : NodeIdx → NodeIdx → Bool) (h : Vector NodeIdx 256) (n i : Nat) : Nat :=
  let m := if 2 * i + 1 < n ∧ lt (hget h (2 * i + 1)) (hget h i) then 2 * i + 1 else i
  if 2 * i + 2 < n ∧ lt (hget h (2 * i + 2)) (hget h m) then 2 * i + 2 else m

/-- `sift_down(i, n)` (41_priority_queue.md R122) on a heap array. The first argument bounds the turns of
the loop; `n` turns are more than it takes, since each moves to a position above `i`. -/
def siftDown (lt : NodeIdx → NodeIdx → Bool) : Nat → Nat → Nat → Vector NodeIdx 256 → Vector NodeIdx 256
  | 0, _, _, h => h
  | fuel + 1, i, n, h =>
    if minChild lt h n i = i then h
    else siftDown lt fuel (minChild lt h n i) n (hswap h i (minChild lt h n i))

/-- `sift_up(i)` (41_priority_queue.md R123) on a heap array. The first argument bounds the turns of the
loop; `i` turns are enough, since each moves to a position below `i`. -/
def siftUp (lt : NodeIdx → NodeIdx → Bool) : Nat → Nat → Vector NodeIdx 256 → Vector NodeIdx 256
  | 0, _, h => h
  | fuel + 1, i, h =>
    if 0 < i ∧ lt (hget h i) (hget h ((i - 1) / 2)) then
      siftUp lt fuel ((i - 1) / 2) (hswap h i ((i - 1) / 2))
    else h

/-- `heap_insert(n)` (41_priority_queue.md R124). -/
def Engine.heapInsert (e : Engine) (n : NodeIdx) : Engine :=
  let k := e.heapSize.toNat
  { e with
    heap := siftUp e.less k k (tset e.heap k n)
    heapSize := BitVec.ofNat 9 (k + 1)
    own := tset e.own n.toNat .queued }

/-- `heap_extract()` (41_priority_queue.md R125): the extracted node and the state after. The entry left
behind at the new HEAP_SIZE is not cleared. -/
def Engine.heapExtract (e : Engine) : NodeIdx × Engine :=
  let t := e.heapAt 0
  let k := e.heapSize.toNat - 1
  (t, { e with
    heap := if 0 < k then siftDown e.less k 0 k (tset e.heap 0 (e.heapAt k)) else e.heap
    heapSize := BitVec.ofNat 9 k
    own := tset e.own t.toNat .loose })

/-! ## HEAP_BUILD -/

/-- The symbols present in FREQ, ascending (41_priority_queue.md R126, 10_state.md R30). -/
def Engine.presentSyms (e : Engine) : List Nat := (List.range 256).filter fun s => e.freqAt s ≠ 0#32

/-- The exact total weight of FREQ (41_priority_queue.md R126). -/
def Engine.totalFreq (e : Engine) : Nat := (e.presentSyms.map fun s => (e.freqAt s).toNat).sum

/-- The leaf of symbol `s` (41_priority_queue.md R126). -/
def Engine.leafOf (e : Engine) (s : Nat) : Node := ⟨false, BitVec.ofNat 8 s, e.freqAt s, 0#9, 0#9⟩

/-- HEAP_BUILD's leaf loop from index `i` on: one leaf per symbol, QUEUED and placed at `H[i]`
(41_priority_queue.md R126). -/
def Engine.createLeaves (e : Engine) : List Nat → Nat → Engine
  | [], _ => e
  | s :: ss, i =>
    Engine.createLeaves
      { e with
        node := tset e.node i (e.leafOf s)
        own := tset e.own i .queued
        heap := tset e.heap i (BitVec.ofNat 9 i) } ss (i + 1)

/-- HEAP_BUILD's last loop, `for i in j - 1 downto 0: sift_down(i, n)` (41_priority_queue.md R126). -/
def heapify (lt : NodeIdx → NodeIdx → Bool) (n : Nat) : Nat → Vector NodeIdx 256 → Vector NodeIdx 256
  | 0, h => h
  | j + 1, h => heapify lt n j (siftDown lt n j n h)

/-- HEAP_BUILD once its checks have passed (41_priority_queue.md R126). -/
def Engine.heapBuilt (e : Engine) : Engine :=
  let k := e.presentSyms.length
  let e1 := e.createLeaves e.presentSyms 0
  { e1 with
    nodeCount := BitVec.ofNat 10 k
    leafCount := BitVec.ofNat 9 k
    heapSize := BitVec.ofNat 9 k
    rootValid := false
    rootIdx := 0#9
    heap := heapify e1.less k (k / 2) e1.heap }

/-- The body of HEAP_BUILD (41_priority_queue.md R126), shared with BUILD_TREE: its checks in the order
of 60_exceptions.md R223, then the new state. -/
def Engine.heapBuildBody (e : Engine) : Except ErrCode Engine :=
  if e.presentSyms.length = 0 then .error .invalidInput
  else if 0xFFFFFFFF < e.totalFreq then .error .weightOverflow
  else .ok e.heapBuilt

/-- The completion of HEAP_BUILD: RES0 = K and RES1 = T on success. -/
def Engine.cmdHeapBuild (e : Engine) : Completion :=
  match e.heapBuildBody with
  | .error x => raised e x
  | .ok e' => success e' (natWord e.presentSyms.length) (natWord e.totalFreq)

/-- HEAP_BUILD, 41_priority_queue.md R126. -/
def execHeapBuild (s : State) : Host.Outcome State Fault Refusal := .next (s.complete s.eng.cmdHeapBuild)

/-! ## PQ_INSERT, PQ_EXTRACT, PQ_PEEK -/

/-- The completion of PQ_INSERT of the operand `n`, checks in the order of 60_exceptions.md R223. -/
def Engine.cmdPqInsert (e : Engine) (n : Word) : Completion :=
  if !e.allocated n then raised e .badNode
  else if !e.isLoose n then raised e .nodeNotLoose
  else if e.heapSize.toNat = 256 then raised e .queueFull
  else success (e.heapInsert (nodeOperand n)) n (e.nodeAt n.toNat).weight

/-- PQ_INSERT, 41_priority_queue.md R127. -/
def execPqInsert (s : State) : Host.Outcome State Fault Refusal := .next (s.complete (s.eng.cmdPqInsert s.arg0L))

/-- The completion of PQ_EXTRACT. -/
def Engine.cmdPqExtract (e : Engine) : Completion :=
  if e.heapSize.toNat = 0 then raised e .queueEmpty
  else success e.heapExtract.2 (idxWord e.heapExtract.1) (e.nodeAt e.heapExtract.1.toNat).weight

/-- PQ_EXTRACT, 41_priority_queue.md R128. -/
def execPqExtract (s : State) : Host.Outcome State Fault Refusal := .next (s.complete s.eng.cmdPqExtract)

/-- The completion of PQ_PEEK. It changes no engine-owned state, as 41_priority_queue.md R129 and 20_memory.md R84
say, although 30_encoding.md R97 calls NOP the only such command (DESIGN CHOICE, log 11). -/
def Engine.cmdPqPeek (e : Engine) : Completion :=
  if e.heapSize.toNat = 0 then raised e .queueEmpty
  else success e (idxWord (e.heapAt 0)) (e.nodeAt (e.heapAt 0).toNat).weight

/-- PQ_PEEK, 41_priority_queue.md R129. -/
def execPqPeek (s : State) : Host.Outcome State Fault Refusal := .next (s.complete s.eng.cmdPqPeek)

end Sys2Proof.Machine
end

