-- ==== Sys2Proof/Machine/TreeBuilder.lean ====
section
/-! DEFINITION. The tree builder (42_tree_builder.md): merge_nodes and the commands NODE_MERGE, MERGE_STEP, SET_ROOT and BUILD_TREE. -/

namespace Sys2Proof.Machine

/-- The exact weight of a new node over `a` and `b`. -/
def Engine.mergedWeight (e : Engine) (a b : NodeIdx) : Nat :=
  (e.nodeAt a.toNat).weight.toNat + (e.nodeAt b.toNat).weight.toNat

/-- The index the next allocation takes, NODE_COUNT (42_tree_builder.md R151). -/
def Engine.nextIdx (e : Engine) : NodeIdx := BitVec.ofNat 9 e.nodeCount.toNat

/-- `merge_nodes(a, b)` (42_tree_builder.md R151): the state after; the new node is `e.nextIdx`. -/
def Engine.mergeNodes (e : Engine) (a b : NodeIdx) : Engine :=
  let n := e.nodeCount.toNat
  { e with
    node := tset e.node n ⟨true, 0#8, BitVec.ofNat 32 (e.mergedWeight a b), a, b⟩
    nodeCount := BitVec.ofNat 10 (n + 1)
    own := tset (tset (tset e.own a.toNat .child) b.toNat .child) n .loose }

/-- The completion of NODE_MERGE of the operands `a` and `b`, checks in the order of
60_exceptions.md R223. -/
def Engine.cmdNodeMerge (e : Engine) (a b : Word) : Completion :=
  if !e.allocated a || !e.allocated b then raised e .badNode
  else if decide (a = b) || !e.isLoose a || !e.isLoose b then raised e .nodeNotLoose
  else if e.nodeCount.toNat = 511 then raised e .arenaFull
  else if 0xFFFFFFFF < e.mergedWeight (nodeOperand a) (nodeOperand b) then raised e .weightOverflow
  else
    success (e.mergeNodes (nodeOperand a) (nodeOperand b)) (idxWord e.nextIdx)
      (natWord (e.mergedWeight (nodeOperand a) (nodeOperand b)))

/-- NODE_MERGE, 42_tree_builder.md R152. -/
def execNodeMerge (s : State) : Host.Outcome State Fault Refusal :=
  .next (s.complete (s.eng.cmdNodeMerge s.arg0L s.arg1L))

/-- The body of MERGE_STEP (42_tree_builder.md R153), shared with BUILD_TREE: the new node and the state
after, or the error. -/
def Engine.mergeStepBody (e : Engine) : Except ErrCode (NodeIdx × Engine) :=
  if e.heapSize.toNat < 2 then .error .queueEmpty
  else if e.nodeCount.toNat = 511 then .error .arenaFull
  else
    let a := e.heapExtract.1
    let e1 := e.heapExtract.2
    let b := e1.heapExtract.1
    let e2 := e1.heapExtract.2
    if 0xFFFFFFFF < e2.mergedWeight a b then .error .weightOverflow
    else .ok (e2.nextIdx, (e2.mergeNodes a b).heapInsert e2.nextIdx)

/-- The completion of MERGE_STEP. -/
def Engine.cmdMergeStep (e : Engine) : Completion :=
  match e.mergeStepBody with
  | .error x => raised e x
  | .ok (n, e') => success e' (idxWord n) (e'.nodeAt n.toNat).weight

/-- MERGE_STEP, 42_tree_builder.md R153. -/
def execMergeStep (s : State) : Host.Outcome State Fault Refusal := .next (s.complete s.eng.cmdMergeStep)

/-- A root that is already selected becomes LOOSE: released to the host (42_tree_builder.md R154). -/
def Engine.releaseRoot (e : Engine) : Engine :=
  if e.rootValid then e.setOwn e.rootIdx.toNat .loose else e

/-- The node `n` selected as the root: ROOT and OWN (42_tree_builder.md R154, R155). -/
def Engine.selectRoot (e : Engine) (n : NodeIdx) : Engine :=
  { e with
    rootIdx := n
    rootValid := true
    own := tset e.own n.toNat .rooted }

/-- The completion of SET_ROOT of the operand `n`, checks in the order of 60_exceptions.md R223. -/
def Engine.cmdSetRoot (e : Engine) (n : Word) : Completion :=
  if !e.allocated n then raised e .badNode
  else if !e.isLoose n then raised e .nodeNotLoose
  else success (e.releaseRoot.selectRoot (nodeOperand n)) n (e.nodeAt n.toNat).weight

/-- SET_ROOT, 42_tree_builder.md R154. -/
def execSetRoot (s : State) : Host.Outcome State Fault Refusal := .next (s.complete (s.eng.cmdSetRoot s.arg0L))

/-- BUILD_TREE's loop, `while HEAP_SIZE > 1: body of MERGE_STEP` (42_tree_builder.md R155). The first
argument bounds the turns; HEAP_SIZE turns are enough, since each leaves one node fewer queued. -/
def buildLoop : Nat → Engine → Except ErrCode Engine
  | 0, e => .ok e
  | fuel + 1, e =>
    if 1 < e.heapSize.toNat then
      match e.mergeStepBody with
      | .error x => .error x
      | .ok (_, e') => buildLoop fuel e'
    else .ok e

/-- The body of BUILD_TREE (42_tree_builder.md R155): the state after, with the root selected. -/
def Engine.buildTreeBody (e : Engine) : Except ErrCode Engine :=
  match e.heapBuildBody with
  | .error x => .error x
  | .ok e1 =>
    match buildLoop e1.heapSize.toNat e1 with
    | .error x => .error x
    | .ok e2 => .ok (e2.heapExtract.2.selectRoot e2.heapExtract.1)

/-- The completion of BUILD_TREE. -/
def Engine.cmdBuildTree (e : Engine) : Completion :=
  match e.buildTreeBody with
  | .error x => raised e x
  | .ok e' => success e' (idxWord e'.rootIdx) (e'.nodeAt e'.rootIdx.toNat).weight

/-- BUILD_TREE, 42_tree_builder.md R155. -/
def execBuildTree (s : State) : Host.Outcome State Fault Refusal := .next (s.complete s.eng.cmdBuildTree)

end Sys2Proof.Machine
end

