-- ==== Sys2Proof/Machine/Dispatch.lean ====
section
/-! DEFINITION. exec: one arm per command, each one direct call of its meaning. -/

namespace Sys2Proof.Machine

/-- What a command does at its completion step (20_memory.md R75). -/
def exec (i : Instr) (s : State) : Host.Outcome State Fault Refusal :=
  match i with
  | .nop => Sys2Proof.Machine.execNop s
  | .clear => Sys2Proof.Machine.execClear s
  | .heapBuild => Sys2Proof.Machine.execHeapBuild s
  | .pqInsert => Sys2Proof.Machine.execPqInsert s
  | .pqExtract => Sys2Proof.Machine.execPqExtract s
  | .pqPeek => Sys2Proof.Machine.execPqPeek s
  | .nodeMerge => Sys2Proof.Machine.execNodeMerge s
  | .mergeStep => Sys2Proof.Machine.execMergeStep s
  | .setRoot => Sys2Proof.Machine.execSetRoot s
  | .buildTree => Sys2Proof.Machine.execBuildTree s
  | .genCodes => Sys2Proof.Machine.execGenCodes s
  | .ctClear => Sys2Proof.Machine.execCtClear s
  | .encode append => Sys2Proof.Machine.execEncode append s

end Sys2Proof.Machine
end

