-- ==== Sys2Proof/Machine/Agents.lean ====
section
/-! DEFINITION. The two agents (00_scope.md R6): what a move of the host does, what a step of the engine does, and which of the two moves next. -/

namespace Sys2Proof.Machine

/-- Who takes the next step. -/
inductive Agent where
  /-- The engine: initialisation or completion. -/
  | engine
  /-- The host: its oldest pending move. -/
  | host
  /-- Neither has anything to do. -/
  | nobody
  deriving DecidableEq, Repr

/-- Which agent moves next. While IDLE only the host can. In INIT or BUSY both can: the engine's operation
number `starts` finishes once the host has made `Config.latency starts` moves, or has none left, so
every operation completes after a finite and otherwise free time (00_scope.md R10, U1; log 3). -/
def State.nextAgent (s : State) : Agent :=
  if s.phase = .idle then
    if s.host = [] then .nobody else .host
  else if s.host = [] then .engine
  else if s.busyMoves < Config.latency s.starts then .host
  else .engine

/-- The engine's step: the initialisation step (70_reset_and_hazards.md R251), or the completion step of
the command CMD_L selects (20_memory.md R75, 30_encoding.md R91). -/
def State.engineMove (s : State) : Host.Outcome State Fault Refusal :=
  match s.phase with
  | .init => .next s.initStep
  | .idle => .next s
  | .busy =>
    match decode s.cmdL with
    | .ok i => exec i s
    | .error _ => .next s.completeIllegal

/-- One move of the host (20_memory.md R61; 30_encoding.md R100; 70_reset_and_hazards.md R250). A wait
that has not ended stays at the head of the list. -/
def State.hostMove (s : State) : HostMove → List HostMove → State
  | .read a, rest => { s with host := rest }.busRead a
  | .write a d, rest => { s with host := rest }.busWrite a d
  | .wait, rest =>
    if s.busy then s.busRead (BitVec.ofNat 16 (regOffset .status))
    else { s with host := rest }.busRead (BitVec.ofNat 16 (regOffset .status))
  | .waitIrq, rest => if s.irq then { s with host := rest } else s
  | .reset, rest => { s with host := rest }.hardReset

/-- The host's step: its oldest pending move, counted. The count starts afresh with every engine
operation and is read only while one is under way. -/
def State.hostStep (s : State) : State :=
  match s.host with
  | [] => s
  | m :: rest => { s with busyMoves := s.busyMoves + 1 }.hostMove m rest

/-- One step of the machine: the agent whose turn it is takes its step. Where neither has anything to do
the clock edge changes nothing (60_exceptions.md R235). -/
def State.advance (s : State) : Host.Outcome State Fault Refusal :=
  match s.nextAgent with
  | .engine => s.engineMove
  | .host => .next s.hostStep
  | .nobody => .next s

/-- The state in which the engine's next step runs the command word `v`: the word has just been accepted
(20_memory.md R74) and the host has nothing left to do, so the engine moves next (log 10). -/
def State.withCommand (s : State) (v : Word) : State := { s with host := [] }.accept v

end Sys2Proof.Machine
end

