-- ==== Sys2Proof/Machine/Step.lean ====
section
/-! DEFINITION. One step of the machine, and the state in which the next step runs a given command word. -/

namespace Sys2Proof.Machine

/-- One step of HTB and its host (00_scope.md R6). -/
def step (s : State) : Host.Outcome State Fault Refusal := s.advance

/-- `s` with the command word `w` accepted, so that the very next step runs it (log 10). -/
def State.withFetchWord (s : State) (nbits w : Nat) : State := s.withCommand (tableWord nbits w)

end Sys2Proof.Machine
end

