-- ==== Sys2Proof/Machine/HostProgram.lean ====
section
/-! DEFINITION. Host programs (30_encoding.md R99-R101): the host syntax, its pseudo-instructions, and their expansion into host moves. -/

namespace Sys2Proof.Machine

/-- The target of a `W` or an `R`: a register name or an address (30_encoding.md R99). -/
inductive Target where
  | reg (r : Reg)
  | addr (a : BusAddr)
  deriving DecidableEq, Repr

/-- One line of a host program (30_encoding.md R99, R100). -/
inductive Line where
  /-- `W <target>, <value>`. -/
  | w (t : Target) (v : Word)
  /-- `R <target>`. -/
  | r (t : Target)
  /-- `CMD <MNEMONIC>`. -/
  | cmd (i : Instr)
  /-- `WAIT`. -/
  | wait
  /-- `RUN <MN>`. -/
  | run (i : Instr)
  /-- `RUN <MN> a0`. -/
  | run1 (i : Instr) (a0 : Word)
  /-- `RUN <MN> a0, a1`. -/
  | run2 (i : Instr) (a0 a1 : Word)
  /-- `SETFREQ s, c`. -/
  | setFreq (s : Byte) (c : Word)
  /-- `LOADTEXT "t"`. -/
  | loadText (t : List Byte)
  /-- `SETCODE s, L, "c"`. -/
  | setCode (s : Byte) (len : Nat) (c : List Bool)
  deriving DecidableEq, Repr

/-- A line the spec gives a meaning: SETCODE's code has length L and L is at most 255
(30_encoding.md R101), and a LOADTEXT fits in the largest IN window (20_memory.md R64). -/
def Line.wf : Line → Bool
  | .w _ _ => true
  | .r _ => true
  | .cmd i => i.wf
  | .wait => true
  | .run i => i.wf
  | .run1 i _ => i.wf
  | .run2 i _ _ => i.wf
  | .setFreq _ _ => true
  | .loadText t => decide (t.length ≤ 4096)
  | .setCode _ len c => decide (c.length = len) && decide (len ≤ 255)

/-- The bus address of a register. -/
def regAddr (r : Reg) : BusAddr := BitVec.ofNat 16 (regOffset r)

/-- The bus address a target stands for. -/
def targetAddr : Target → BusAddr
  | .reg r => regAddr r
  | .addr a => a

/-- The word of four bytes of a text at position `k`, zero where the text ends (30_encoding.md R100). -/
def textWord (t : List Byte) (k : Nat) : Word :=
  wordOf (t.getD k 0#8) (t.getD (k + 1) 0#8) (t.getD (k + 2) 0#8) (t.getD (k + 3) 0#8)

/-- The code word `w` that SETCODE writes: bit `31 - k` is code bit `32 w + k`, 0 past the end
(30_encoding.md R101). -/
def setCodeWord (c : List Bool) (w : Nat) : Word :=
  (List.range 32).foldl (fun v k => setBit v (31 - k) (c.getD (32 * w + k) false)) 0#32

/-- The moves a line expands to (30_encoding.md R99-R101). -/
def Line.moves : Line → List HostMove
  | .w t v => [.write (targetAddr t) v]
  | .r t => [.read (targetAddr t)]
  | .cmd i => [.write (regAddr .cmd) (encode i)]
  | .wait => [.wait]
  | .run i => [.write (regAddr .cmd) (encode i), .wait]
  | .run1 i a0 => [.write (regAddr .arg0) a0, .write (regAddr .cmd) (encode i), .wait]
  | .run2 i a0 a1 =>
    [.write (regAddr .arg0) a0, .write (regAddr .arg1) a1, .write (regAddr .cmd) (encode i), .wait]
  | .setFreq s c => [.write (BitVec.ofNat 16 (0x0400 + 4 * s.toNat)) c]
  | .loadText t =>
    (List.range ((t.length + 3) / 4)).map fun j => .write (BitVec.ofNat 16 (0x1000 + 4 * j)) (textWord t (4 * j))
  | .setCode s len c =>
    ((List.range 8).map fun w => .write (BitVec.ofNat 16 (0x4000 + 64 * s.toNat + 4 + 4 * w)) (setCodeWord c w)) ++
      [.write (BitVec.ofNat 16 (0x4000 + 64 * s.toNat)) (0x80000000#32 ||| BitVec.ofNat 32 len)]

/-- The moves of a whole program, in order. -/
def programMoves (p : List Line) : List HostMove := p.flatMap Line.moves

/-- A host about to run the program `p` after the moves it still has to make (log 2). -/
def State.withProgram (s : State) (p : List Line) : State := { s with host := s.host ++ programMoves p }

end Sys2Proof.Machine
end

