-- ==== Sys2Proof/Safety.lean ====
section
/-! DEFINITION. The terms in which claims are stated: the structural invariants of 10_state.md R44, binary trees in the arena, the output stream, the reference decoder of 95_test_vectors.md, and the end of a run. -/

namespace Sys2Proof.Machine

/-! ## The heap -/

/-- `H[0..HEAP_SIZE-1]` as a list. -/
def Engine.queue (e : Engine) : List NodeIdx := (List.range e.heapSize.toNat).map e.heapAt

/-- The heap property of the first `n` entries of a heap array (41_priority_queue.md R121). -/
def HeapOrdered (lt : NodeIdx → NodeIdx → Bool) (h : Vector NodeIdx 256) (n : Nat) : Prop :=
  ∀ i, 0 < i → i < n → lt (hget h ((i - 1) / 2)) (hget h i) = true

/-! ## Counting over the arena -/

/-- A top-level node: LOOSE, QUEUED or ROOTED (00_scope.md, glossary). -/
def Engine.topLevel (e : Engine) (i : Nat) : Bool := decide (e.ownAt i ≠ .child)

/-- The weight of entry `i`, as a number. -/
def Engine.weightAt (e : Engine) (i : Nat) : Nat := (e.nodeAt i).weight.toNat

/-- The sum of the weights of the first `n` entries for which `p` holds. -/
def Engine.weightSum (e : Engine) (n : Nat) (p : Nat → Bool) : Nat :=
  (((List.range n).filter p).map e.weightAt).sum

/-- `j` is a child of `i`. -/
def Engine.childOf (e : Engine) (j i : Nat) : Prop :=
  (e.nodeAt i).left.toNat = j ∨ (e.nodeAt i).right.toNat = j

/-- `i` is `r` or a descendant of `r`. -/
inductive Engine.Under (e : Engine) (r : Nat) : Nat → Prop where
  | self : Engine.Under e r r
  | left {i : Nat} : Engine.Under e r i → (e.nodeAt i).tag = true → Engine.Under e r (e.nodeAt i).left.toNat
  | right {i : Nat} : Engine.Under e r i → (e.nodeAt i).tag = true → Engine.Under e r (e.nodeAt i).right.toNat

/-! ## Trees -/

/-- A full binary tree whose nodes carry arena indices. -/
inductive HTree where
  | leaf (i : Nat)
  | node (i : Nat) (l r : HTree)
  deriving DecidableEq, Repr

/-- The index of the root of a tree. -/
def HTree.idx : HTree → Nat
  | .leaf i => i
  | .node i _ _ => i

/-- The number of leaves. -/
def HTree.leaves : HTree → Nat
  | .leaf _ => 1
  | .node _ l r => l.leaves + r.leaves

/-- The depth: 0 for a leaf. -/
def HTree.depth : HTree → Nat
  | .leaf _ => 0
  | .node _ l r => max l.depth r.depth + 1

/-- The leaves in pre-order, each with its path (43_code_table.md R181). -/
def HTree.paths : HTree → List (Nat × List Bool)
  | .leaf i => [(i, [])]
  | .node _ l r => (l.paths.map fun c => (c.1, false :: c.2)) ++ r.paths.map fun c => (c.1, true :: c.2)

/-- The codes of the leaves: their paths, but "0" for a tree that is a single leaf
(43_code_table.md R181, R182). -/
def HTree.codes : HTree → List (Nat × List Bool)
  | .leaf i => [(i, [false])]
  | .node i l r => (HTree.node i l r).paths

/-- The tree stands in the arena: every index is allocated, leaves are leaves and internal nodes have the
tree's children. -/
def Engine.Holds (e : Engine) : HTree → Prop
  | .leaf i => i < e.nodeCount.toNat ∧ (e.nodeAt i).tag = false
  | .node i l r =>
    i < e.nodeCount.toNat ∧ (e.nodeAt i).tag = true ∧ (e.nodeAt i).left.toNat = l.idx ∧
      (e.nodeAt i).right.toNat = r.idx ∧ Engine.Holds e l ∧ Engine.Holds e r

/-! ## The structural invariants, 10_state.md R44 -/

/-- The nine structural invariants of 10_state.md R44, field `item<n>` for item n, with the bounds its
other rules give: LEAF_COUNT at most 256 (R31) and ROOT.INDEX 0 while ROOT.VALID is 0 (R29). -/
structure StructInv (e : Engine) : Prop where
  leafBound : e.leafCount.toNat ≤ 256
  item1a : e.leafCount.toNat = 0 → e.nodeCount.toNat = 0 ∧ e.heapSize.toNat = 0 ∧ e.rootValid = false
  item1b : 1 ≤ e.leafCount.toNat →
    e.leafCount.toNat ≤ e.nodeCount.toNat ∧ e.nodeCount.toNat ≤ 2 * e.leafCount.toNat - 1
  item2a : ∀ i, i < e.leafCount.toNat → (e.nodeAt i).tag = false
  item2b : ∀ i j, i < j → j < e.leafCount.toNat → (e.nodeAt i).sym.toNat < (e.nodeAt j).sym.toNat
  item2c : ∀ i, e.leafCount.toNat ≤ i → i < e.nodeCount.toNat → (e.nodeAt i).tag = true
  item3 : ∀ i, e.leafCount.toNat ≤ i → i < e.nodeCount.toNat →
    (e.nodeAt i).left.toNat < i ∧ (e.nodeAt i).right.toNat < i ∧ (e.nodeAt i).left ≠ (e.nodeAt i).right ∧
      e.ownAt (e.nodeAt i).left.toNat = .child ∧ e.ownAt (e.nodeAt i).right.toNat = .child ∧
      e.weightAt i = e.weightAt (e.nodeAt i).left.toNat + e.weightAt (e.nodeAt i).right.toNat
  item4a : ∀ j, j < e.nodeCount.toNat → e.ownAt j = .child →
    ∃ i, (e.leafCount.toNat ≤ i ∧ i < e.nodeCount.toNat ∧ e.childOf j i) ∧
      ∀ i', e.leafCount.toNat ≤ i' → i' < e.nodeCount.toNat → e.childOf j i' → i' = i
  item4b : ∀ j, j < e.nodeCount.toNat → e.ownAt j ≠ .child →
    ∀ i, e.leafCount.toNat ≤ i → i < e.nodeCount.toNat → ¬ e.childOf j i
  item5a : e.heapSize.toNat = ((List.range e.nodeCount.toNat).filter fun i => decide (e.ownAt i = .queued)).length
  item5b : e.queue.Nodup
  item5c : ∀ n : NodeIdx, n ∈ e.queue ↔ n.toNat < e.nodeCount.toNat ∧ e.ownAt n.toNat = .queued
  item5d : HeapOrdered e.less e.heap e.heapSize.toNat
  item6a : ∀ i, i < e.nodeCount.toNat → e.ownAt i = .rooted → e.rootValid = true ∧ e.rootIdx.toNat = i
  item6b : e.rootValid = true → e.rootIdx.toNat < e.nodeCount.toNat ∧ e.ownAt e.rootIdx.toNat = .rooted
  item6c : e.rootValid = false → e.rootIdx = 0#9
  item7 : ((List.range e.nodeCount.toNat).filter e.topLevel).length + e.nodeCount.toNat = 2 * e.leafCount.toNat
  item8a : e.weightSum e.nodeCount.toNat e.topLevel = e.weightSum e.leafCount.toNat fun _ => true
  item8b : e.weightSum e.leafCount.toNat (fun _ => true) ≤ 0xFFFFFFFF
  item9a : ∀ i, i < e.nodeCount.toNat →
    ∃ r, (r < e.nodeCount.toNat ∧ e.topLevel r = true ∧ e.Under r i) ∧
      ∀ r', r' < e.nodeCount.toNat → e.topLevel r' = true → e.Under r' i → r' = r
  item9b : ∀ r, r < e.nodeCount.toNat → e.topLevel r = true →
    ∃ t : HTree, t.idx = r ∧ e.Holds t ∧ t.depth ≤ t.leaves - 1

/-- The buffers of the instance `p`: canonical, within their sizes, OUT_BITS within OUT_MEM, and every byte
that holds a bit of the output stream written (10_state.md R36-R38). -/
structure BufferInv (p : Params) (e : Engine) : Prop where
  inWf : e.inMem.wf = true
  outWf : e.outMem.wf = true
  inBound : ∀ a b, e.inMem.read a = some b → a < p.inBytes
  outBound : ∀ a b, e.outMem.read a = some b → a < p.outBytes
  bitsBound : e.outBits.toNat ≤ 8 * p.outBytes
  streamWritten : ∀ a, 8 * a < e.outBits.toNat → (e.outMem.read a).isSome = true

/-- The invariant of the machine: an allowed instance, its buffers, and the structure of R44. -/
structure Inv (s : State) : Prop where
  params : s.params.wf = true
  buffers : BufferInv s.params s.eng
  struct : StructInv s.eng

/-! ## Runs of commands -/

/-- RES0 of each of `k` successive PQ_EXTRACTs, where each completes (41_priority_queue.md R130). -/
def extractedBy : Nat → State → Option (List Word)
  | 0, _ => some []
  | k + 1, s =>
    match exec .pqExtract s with
    | .next t => (extractedBy k t).map (t.res0 :: ·)
    | .fault _ => none
    | .refused _ => none

/-- `while HEAP_SIZE > 1: MERGE_STEP`, each MERGE_STEP without error (42_tree_builder.md R155). -/
inductive MergeRun : State → State → Prop where
  | stop {s : State} : s.eng.heapSize.toNat ≤ 1 → MergeRun s s
  | turn {s s1 s2 : State} : 1 < s.eng.heapSize.toNat → exec .mergeStep s = .next s1 → s1.err = 0#4 →
      MergeRun s1 s2 → MergeRun s s2

/-! ## The output stream and the reference decoder -/

/-- Bit `p` of the output stream, where its byte has been written (44_encoder.md R200). -/
def Engine.streamBit (e : Engine) (p : Nat) : Option Bool :=
  (e.outMem.read (p / 8)).map fun b => b.getLsbD (7 - p % 8)

/-- Bits 0..OUT_BITS-1 of the output stream (10_state.md R38). -/
def Engine.stream (e : Engine) : List Bool := (List.range e.outBits.toNat).map fun p => (e.streamBit p).getD false

/-- The text `IN_MEM[start .. start+n-1]`, where every byte of it has been written. -/
def Engine.text (e : Engine) : Nat → Nat → Option (List Byte)
  | _, 0 => some []
  | start, n + 1 =>
    match e.inMem.read start with
    | none => none
    | some b => (Engine.text e (start + 1) n).map (b :: ·)

/-- The concatenated codes of a text, preserving input order (44_encoder.md R202). -/
def Engine.codesOf (e : Engine) (t : List Byte) : List Bool := t.flatMap fun b => (e.ctAt b.toNat).code

/-- The loop of the reference decoder, with its cursor at `n` under the root `r`
(95_test_vectors.md section 2). -/
def Engine.decodeFrom (e : Engine) (r : NodeIdx) : NodeIdx → List Bool → Option (List Byte)
  | n, [] => if n = r then some [] else none
  | n, x :: xs =>
    let c := if x then (e.nodeAt n.toNat).right else (e.nodeAt n.toNat).left
    if (e.nodeAt c.toNat).tag then Engine.decodeFrom e r c xs
    else (Engine.decodeFrom e r r xs).map ((e.nodeAt c.toNat).sym :: ·)

/-- The reference decoder of 95_test_vectors.md section 2, a checker and no hardware: `none` is
MalformedBitstream. -/
def Engine.refDecode (e : Engine) (bits : List Bool) : Option (List Byte) :=
  if (e.nodeAt e.rootIdx.toNat).tag then e.decodeFrom e.rootIdx e.rootIdx bits
  else if bits.any id then none
  else some (bits.map fun _ => (e.nodeAt e.rootIdx.toNat).sym)

/-! ## The address map -/

/-- The registers' range of the address map (20_memory.md R64). -/
def inRegisters (n : Nat) : Prop := n < 0x003C

/-- The windows' ranges of the address map of the instance `p` (20_memory.md R64). -/
def inWindow (p : Params) (n : Nat) : Prop :=
  (0x0400 ≤ n ∧ n < 0x0800) ∨ (0x1000 ≤ n ∧ n < 0x1000 + p.inBytes) ∨ (0x2000 ≤ n ∧ n < 0x2000 + p.outBytes) ∨
    (0x4000 ≤ n ∧ n < 0x8000) ∨ (0x8000 ≤ n ∧ n < 0xA000) ∨ (0xA000 ≤ n ∧ n < 0xA400)

/-! ## Whose turn it is -/

/-- It is the engine's turn: an operation is under way, and the host has no move left or has made as many as
the free latency allows (00_scope.md R10; log 3). -/
def State.enginesTurn (s : State) : Prop :=
  s.phase ≠ .idle ∧ (s.host = [] ∨ Config.latency s.starts ≤ s.busyMoves)

/-! ## The end of a run -/

/-- A run has ended: the host has made its last move and PHASE is IDLE (70_reset_and_hazards.md R262). -/
def State.runEnded (s : State) : Bool := decide (s.host = []) && decide (s.phase = .idle)

end Sys2Proof.Machine
end

