-- ==== Sys2Proof/Certificates/Slice0/Obligations.lean ====
section
/-! DEFINITION. The statements for the provers, in the order of OBLIGATIONS.json: encoding and step, the command lifecycle, the bus, reset, one result statement per command, frames, the helper procedures, and what follows for the whole machine. -/

open Sys2Proof Sys2Proof.Machine

/-! ## Encoding and the step -/

/-- 30_encoding.md R95: the CMD words of the opcode map select their commands. -/
def Obligations.OpcodeMapWords : Prop :=
  decode 0x00000000#32 = .ok .nop ∧ decode 0x00000001#32 = .ok .clear ∧
    decode 0x00000010#32 = .ok .heapBuild ∧ decode 0x00000011#32 = .ok .pqInsert ∧
    decode 0x00000012#32 = .ok .pqExtract ∧ decode 0x00000013#32 = .ok .pqPeek ∧
    decode 0x00000014#32 = .ok .nodeMerge ∧ decode 0x00000015#32 = .ok .mergeStep ∧
    decode 0x00000016#32 = .ok .setRoot ∧ decode 0x00000017#32 = .ok .buildTree ∧
    decode 0x00000020#32 = .ok .genCodes ∧ decode 0x00000021#32 = .ok .ctClear ∧
    decode 0x00000030#32 = .ok (.encode false) ∧ decode 0x00000130#32 = .ok (.encode true)

/-- 30_encoding.md R91: the decoding of `v`, case by case in the rule's order, with ILLEGAL as an error; and how
an ILLEGAL word is executed (40_control.md R112). -/
def Obligations.DecodeCaseByCase : Prop :=
  ∀ v : Word,
    (v.extractLsb' 9 23 ≠ 0#23 → ∃ x, decode v = .error x) ∧
      (v.extractLsb' 9 23 = 0#23 → v.extractLsb' 0 8 = 0x30#8 → decode v = .ok (.encode (v.getLsbD 8))) ∧
      (v.extractLsb' 9 23 = 0#23 → v.extractLsb' 0 8 ≠ 0x30#8 → v.getLsbD 8 = true → ∃ x, decode v = .error x) ∧
      (v.extractLsb' 9 23 = 0#23 → v.extractLsb' 0 8 ≠ 0x30#8 → v.getLsbD 8 = false →
        (∀ i, (encode i).extractLsb' 0 8 = v.extractLsb' 0 8 → decode v = .ok i) ∧
          ((∀ i, (encode i).extractLsb' 0 8 ≠ v.extractLsb' 0 8) → ∃ x, decode v = .error x)) ∧
      ∀ (s : State) (x : Illegal), s.phase = .busy → s.enginesTurn → s.cmdL = v → decode v = .error x →
        step s = .next s.completeIllegal ∧ s.completeIllegal.err = 4#4

/-- 30_encoding.md R90-R92, R95: a word decodes to a command exactly when it is that command's word. So decode
inverts encode, no bit of a word is dropped, and no two words decode to one command. -/
def Obligations.DecodeInvertsEncode : Prop := ∀ (v : Word) (i : Instr), decode v = .ok i ↔ v = encode i

/-- 30_encoding.md R96, 40_control.md R112: exactly the listed words are ILLEGAL; each is accepted like any other
and completes with ILLEGAL_COMMAND, RES0 = RES1 = 0 and no engine-owned state changed. -/
def Obligations.IllegalWordsComplete : Prop :=
  ∀ v : Word,
    ((∃ x, decode v = .error x) ↔
        512 ≤ v.toNat ∨ (v.toNat / 256 % 2 = 1 ∧ v.toNat % 256 ≠ 0x30) ∨
          (0x02 ≤ v.toNat % 256 ∧ v.toNat % 256 ≤ 0x0F) ∨ (0x18 ≤ v.toNat % 256 ∧ v.toNat % 256 ≤ 0x1F) ∨
          (0x22 ≤ v.toNat % 256 ∧ v.toNat % 256 ≤ 0x2F) ∨ 0x31 ≤ v.toNat % 256) ∧
      (∀ s : State, s.phase = .busy → s.enginesTurn → s.cmdL = v → (∃ x, decode v = .error x) →
        step s = .next { s with res0 := 0#32, res1 := 0#32, err := 4#4, done := true, phase := .idle }) ∧
      ∀ s : State, s.phase = .idle →
        (s.busWrite 0x000C#16 v).phase = .busy ∧ (s.busWrite 0x000C#16 v).done = false ∧
          (s.busWrite 0x000C#16 v).eng = s.eng

/-- 20_memory.md R75: the completion step runs the command CMD_L decodes to, and adds nothing to it; and the
step after `withFetchWord` runs the word it was given. -/
def Obligations.StepRunsDecodedCommand : Prop :=
  (∀ (s : State) (i : Instr), s.phase = .busy → s.enginesTurn → decode s.cmdL = .ok i → step s = exec i s) ∧
    ∀ (s : State) (nbits w : Nat) (i : Instr), decodeTableWord nbits w = some i →
      step (s.withFetchWord nbits w) = exec i (s.withFetchWord nbits w)

/-! ## The command lifecycle -/

/-- 20_memory.md R74: what a write of `v` to CMD does while PHASE is IDLE, for every `v`; where `v` is ILLEGAL
the command fails at completion. (`starts` and `busyMoves` are the model's own counters, log 3.) -/
def Obligations.AcceptanceLatchesOperands : Prop :=
  ∀ (s : State) (v : Word), s.phase = .idle →
    s.busWrite 0x000C#16 v =
        { s with
          cmdL := v
          arg0L := s.arg0
          arg1L := s.arg1
          done := false
          err := 0#4
          phase := .busy
          resp := some (.writeDone false)
          starts := s.starts + 1
          busyMoves := 0 } ∧
      ∀ (t : State) (x : Illegal), decode v = .error x → t.phase = .busy → t.cmdL = v → t.enginesTurn →
        ∃ u, step t = .next u ∧ u.err = 4#4 ∧ u.done = true ∧ u.eng = t.eng

/-- 20_memory.md R76: a write to CMD while PHASE is not IDLE sets OVERRUN and changes nothing else. -/
def Obligations.OverrunDropsCommand : Prop :=
  ∀ (s : State) (v : Word), s.phase ≠ .idle →
    s.busWrite 0x000C#16 v = { s with overrun := true, resp := some (.writeDone false) }

/-- 20_memory.md R75: a completion writes engine-owned state, RES0, RES1, ERR, DONE and PHASE, and no other
register, whatever the command and whether or not it ends in an error. (Only ENCODE draws a free byte,
log 6.) -/
def Obligations.CompletionWritesOnlyResults : Prop :=
  ∀ (i : Instr) (s t : State), exec i s = .next t →
    t = { s with eng := t.eng, res0 := t.res0, res1 := t.res1, err := t.err, done := true, phase := .idle,
                 draws := t.draws } ∧
      ((∀ A, i ≠ .encode A) → t.draws = s.draws)

/-- 20_memory.md R73, R75, R77: while a command runs no host move but a reset changes what the command reads,
and the result is a function of that alone. -/
def Obligations.RunningCommandIsIsolated : Prop :=
  (∀ (s : State) (m : HostMove) (rest : List HostMove), s.phase ≠ .idle → m ≠ .reset →
      (s.hostMove m rest).eng = s.eng ∧ (s.hostMove m rest).cmdL = s.cmdL ∧
        (s.hostMove m rest).arg0L = s.arg0L ∧ (s.hostMove m rest).arg1L = s.arg1L ∧
        (s.hostMove m rest).params = s.params ∧ (s.hostMove m rest).phase = s.phase) ∧
    ∀ (i : Instr) (s s' : State), BufferInv s.params s.eng → s'.params = s.params → s'.eng = s.eng →
      s'.arg0L = s.arg0L → s'.arg1L = s.arg1L →
      (∀ t, exec i s = .next t →
          ∃ t', exec i s' = .next t' ∧ t'.eng = t.eng ∧ t'.res0 = t.res0 ∧ t'.res1 = t.res1 ∧ t'.err = t.err) ∧
        ∀ f, exec i s = .fault f → exec i s' = .fault f

/-- 20_memory.md R77: register access while PHASE is not IDLE. A read gives the register's current value and
changes nothing; writes to ARG0, ARG1, CTRL and STATUS take effect at once and change nothing else, so
none of them touches the running command, its latches or the engine-owned state. No host move but a reset
changes RES0, RES1 or the engine-owned state, so these still show their values of before the command. -/
def Obligations.RegisterAccessWhileBusy : Prop :=
  ∀ (s : State) (d : Word), s.phase ≠ .idle →
    (∀ a x, (a, x) ∈
        [(0x0000#16, 0x48544231#32), (0x0004#16, (BitVec.ofBool s.ie).zeroExtend 32), (0x0008#16, s.statusWord), (0x000C#16, 0#32),
         (0x0010#16, s.arg0), (0x0014#16, s.arg1), (0x0018#16, s.res0), (0x001C#16, s.res1),
         (0x0020#16, s.eng.heapSize.zeroExtend 32), (0x0024#16, s.eng.nodeCount.zeroExtend 32),
         (0x0028#16, s.eng.leafCount.zeroExtend 32),
         (0x002C#16, BitVec.ofBool s.eng.rootValid ++ (0#22 : BitVec 22) ++ s.eng.rootIdx),
         (0x0030#16, s.eng.outBits), (0x0034#16, BitVec.ofNat 32 s.params.inBytes),
         (0x0038#16, BitVec.ofNat 32 s.params.outBytes)] →
        s.busRead a = { s with resp := some (.readDone x false), draws := (s.busRead a).draws }) ∧
      s.busWrite 0x0010#16 d = { s with arg0 := d, resp := some (.writeDone false) } ∧
      s.busWrite 0x0014#16 d = { s with arg1 := d, resp := some (.writeDone false) } ∧
      s.busWrite 0x0004#16 d = { s with ie := d.getLsbD 0, resp := some (.writeDone false) } ∧
      s.busWrite 0x0008#16 d =
        { s with
          done := s.done && !d.getLsbD 1
          overrun := s.overrun && !d.getLsbD 2
          resp := some (.writeDone false) } ∧
      ∀ m rest, m ≠ .reset →
        (s.hostMove m rest).res0 = s.res0 ∧ (s.hostMove m rest).res1 = s.res1 ∧ (s.hostMove m rest).eng = s.eng

/-- 20_memory.md R73: while PHASE is not IDLE every transfer to a window fails, reads 0 and writes nothing,
and a transfer to a register proceeds as in IDLE (STATUS.BUSY and a CMD write, which the phase itself
decides, apart). -/
def Obligations.WindowsLockedWhileBusy : Prop :=
  ∀ (s : State) (a : BusAddr) (d : Word), s.phase ≠ .idle →
    (inWindow s.params a.toNat →
        s.busRead a = { s with resp := some (.readDone 0#32 true), draws := (s.busRead a).draws } ∧
          s.busWrite a d = { s with resp := some (.writeDone true) }) ∧
      (inRegisters a.toNat →
        (a ≠ 0x0008#16 → (s.busRead a).resp = ({ s with phase := .idle }.busRead a).resp) ∧
          (a ≠ 0x000C#16 → s.busWrite a d = { { s with phase := .idle }.busWrite a d with phase := s.phase }))

/-- 60_exceptions.md R227, R228: what sets and clears the two sticky status bits in a step. OVERRUN is set
only by a CMD write while PHASE is not IDLE, which changes nothing else and leaves irq alone, and is cleared
only by writing 1 to it or by reset. DONE is set only by a completion, and is cleared only by writing 1 to
it, by acceptance or by reset. -/
def Obligations.StickyStatusBits : Prop :=
  ∀ s t : State, step s = .next t →
    (s.overrun = false → t.overrun = true →
        s.phase ≠ .idle ∧ t.irq = s.irq ∧ ∃ v rest, s.host = .write 0x000C#16 v :: rest ∧
          t = { s with overrun := true, resp := some (.writeDone false), host := rest,
                       busyMoves := s.busyMoves + 1 }) ∧
      (s.overrun = true → t.overrun = false →
        ∃ rest, s.host = .reset :: rest ∨ ∃ d, s.host = .write 0x0008#16 d :: rest ∧ d.getLsbD 2 = true) ∧
      (s.done = false → t.done = true → s.phase = .busy ∧ t.phase = .idle) ∧
      (s.done = true → t.done = false →
        ∃ rest, s.host = .reset :: rest ∨ ∃ d, (s.host = .write 0x0008#16 d :: rest ∧ d.getLsbD 1 = true) ∨
          (s.host = .write 0x000C#16 d :: rest ∧ s.phase = .idle ∧ t.phase = .busy))

/-- 00_scope.md R10: whatever the free latency and whatever the host still does, an operation under way
reaches PHASE = IDLE after finitely many steps, unless the run stops in a fault. -/
def Obligations.OperationsFinish : Prop :=
  ∀ s : State, s.phase ≠ .idle →
    ∃ n, (∃ t, core.run n s = .next t ∧ State.phase t = .idle) ∨ ∃ f, core.run n s = .fault f

/-! ## The host bus -/

/-- 60_exceptions.md R226, 20_memory.md R62, R65: a transfer fails in exactly the three cases; a failed read
gives 0, a failed write changes nothing, and no read changes anything. -/
def Obligations.BusErrorsExactly : Prop :=
  ∀ (s : State) (a : BusAddr) (d : Word), s.params.wf = true →
    ∃ (e : Bool) (x : Word),
      (e = true ↔
          a.toNat % 4 ≠ 0 ∨ ¬ (inRegisters a.toNat ∨ inWindow s.params a.toNat) ∨
            (inWindow s.params a.toNat ∧ s.phase ≠ .idle)) ∧
        (e = true → x = 0#32) ∧
        s.busRead a = { s with resp := some (.readDone x e), draws := (s.busRead a).draws } ∧
        (s.busWrite a d).resp = some (.writeDone e) ∧
        (e = true → s.busWrite a d = { s with resp := some (.writeDone true) })

/-- 20_memory.md R66: read-only registers, the read-only bits of STATUS, the read-only windows and reserved
bits ignore writes without a bus error; CMD and reserved bits read 0. -/
def Obligations.ReadOnlyIgnoresWrites : Prop :=
  ∀ (s : State) (d : Word),
    (∀ a ∈ [0x0000#16, 0x0018#16, 0x001C#16, 0x0020#16, 0x0024#16, 0x0028#16, 0x002C#16, 0x0030#16, 0x0034#16,
        0x0038#16], s.busWrite a d = { s with resp := some (.writeDone false) }) ∧
      s.busWrite 0x0008#16 d =
        { s with
          done := s.done && !d.getLsbD 1
          overrun := s.overrun && !d.getLsbD 2
          resp := some (.writeDone false) } ∧
      s.busWrite 0x0004#16 d = { s with ie := d.getLsbD 0, resp := some (.writeDone false) } ∧
      (∀ a : BusAddr, s.phase = .idle → 0x8000 ≤ a.toNat → a.toNat < 0xA400 → a.toNat % 4 = 0 →
        s.busWrite a d = { s with resp := some (.writeDone false) }) ∧
      (s.busRead 0x000C#16).resp = some (.readDone 0#32 false) ∧
      (∀ (x : Byte) (w : Nat), s.phase = .idle → 9 ≤ w → w ≤ 15 →
        (s.busRead (BitVec.ofNat 16 (0x4000 + 64 * x.toNat + 4 * w))).resp = some (.readDone 0#32 false) ∧
          s.busWrite (BitVec.ofNat 16 (0x4000 + 64 * x.toNat + 4 * w)) d = { s with resp := some (.writeDone false) }) ∧
      (∀ (x : Byte) (d' : Word), s.phase = .idle → d'.getLsbD 31 = d.getLsbD 31 → d'.extractLsb' 0 8 = d.extractLsb' 0 8 →
        s.busWrite (BitVec.ofNat 16 (0x4000 + 64 * x.toNat)) d' = s.busWrite (BitVec.ofNat 16 (0x4000 + 64 * x.toNat)) d) ∧
      (∀ (x : Byte) (k : Nat), s.phase = .idle → 8 ≤ k → k ≤ 30 →
        ∃ v, (s.busRead (BitVec.ofNat 16 (0x4000 + 64 * x.toNat))).resp = some (.readDone v false) ∧ v.getLsbD k = false) ∧
      ∀ a k, (a = 0x0004#16 ∧ 1 ≤ k) ∨ (a = 0x0008#16 ∧ (k = 3 ∨ 8 ≤ k)) ∨ (a = 0x0020#16 ∧ 9 ≤ k) ∨
          (a = 0x0024#16 ∧ 10 ≤ k) ∨ (a = 0x0028#16 ∧ 9 ≤ k) ∨ (a = 0x002C#16 ∧ 9 ≤ k ∧ k ≤ 30) →
        ∃ x, (s.busRead a).resp = some (.readDone x false) ∧ x.getLsbD k = false

/-- 20_memory.md R67: the FREQ window. -/
def Obligations.FreqWindow : Prop :=
  ∀ (s : State) (x : Byte) (d : Word), s.phase = .idle →
    (s.busRead (BitVec.ofNat 16 (0x0400 + 4 * x.toNat))).resp = some (.readDone (s.eng.freqAt x.toNat) false) ∧
      ∃ e : Engine,
        s.busWrite (BitVec.ofNat 16 (0x0400 + 4 * x.toNat)) d = { s with eng := e, resp := some (.writeDone false) } ∧
          e = { s.eng with freq := e.freq } ∧
          (∀ y : Byte, e.freqAt y.toNat = if y = x then d else s.eng.freqAt y.toNat) ∧
          (d = 0#32 → x.toNat ∉ e.presentSyms)

/-- 20_memory.md R68, R69: the IN and OUT windows, little-endian. A read gives every byte that has been
written; the other bytes are unconstrained. Bit 7 of the word at 0x2000 is the first bit of the stream. -/
def Obligations.BufferWindows : Prop :=
  ∀ (s : State) (j : Nat) (d : Word), s.params.wf = true → s.phase = .idle →
    (4 * j < s.params.inBytes →
        (∃ x, (s.busRead (BitVec.ofNat 16 (0x1000 + 4 * j))).resp = some (.readDone x false) ∧
            ∀ k b, k < 4 → s.eng.inMem.read (4 * j + k) = some b → x.extractLsb' (8 * k) 8 = b) ∧
          ∃ e : Engine,
            s.busWrite (BitVec.ofNat 16 (0x1000 + 4 * j)) d = { s with eng := e, resp := some (.writeDone false) } ∧
              e = { s.eng with inMem := e.inMem } ∧
              ∀ i, e.inMem.read i =
                if i / 4 = j then some (d.extractLsb' (8 * (i % 4)) 8) else s.eng.inMem.read i) ∧
      (4 * j < s.params.outBytes →
        (∃ x, (s.busRead (BitVec.ofNat 16 (0x2000 + 4 * j))).resp = some (.readDone x false) ∧
            (∀ k b, k < 4 → s.eng.outMem.read (4 * j + k) = some b → x.extractLsb' (8 * k) 8 = b) ∧
            ∀ b, j = 0 → s.eng.streamBit 0 = some b → x.getLsbD 7 = b) ∧
          ∃ e : Engine,
            s.busWrite (BitVec.ofNat 16 (0x2000 + 4 * j)) d = { s with eng := e, resp := some (.writeDone false) } ∧
              e = { s.eng with outMem := e.outMem } ∧
              ∀ i, e.outMem.read i =
                if i / 4 = j then some (d.extractLsb' (8 * (i % 4)) 8) else s.eng.outMem.read i)

/-- 20_memory.md R70: the CT window: the entry word, the eight code words, and the reserved words. -/
def Obligations.CodeTableWindow : Prop :=
  ∀ (s : State) (x : Byte) (d : Word), s.phase = .idle →
    ((s.busRead (BitVec.ofNat 16 (0x4000 + 64 * x.toNat))).resp =
          some (.readDone (BitVec.ofBool (s.eng.ctAt x.toNat).valid ++ (0#23 : BitVec 23) ++ (s.eng.ctAt x.toNat).len)
            false) ∧
        ∃ e : Engine,
          s.busWrite (BitVec.ofNat 16 (0x4000 + 64 * x.toNat)) d = { s with eng := e, resp := some (.writeDone false) } ∧
            e = { s.eng with ct := e.ct } ∧
            ∀ y : Byte, e.ctAt y.toNat =
              if y = x then ⟨d.getLsbD 31, d.extractLsb' 0 8, (s.eng.ctAt x.toNat).cw⟩ else s.eng.ctAt y.toNat) ∧
      (∀ w, w < 8 →
        (s.busRead (BitVec.ofNat 16 (0x4000 + 64 * x.toNat + 4 + 4 * w))).resp =
            some (.readDone (tget (s.eng.ctAt x.toNat).cw w 0#32) false) ∧
          ∃ e : Engine,
            s.busWrite (BitVec.ofNat 16 (0x4000 + 64 * x.toNat + 4 + 4 * w)) d =
                { s with eng := e, resp := some (.writeDone false) } ∧
              e = { s.eng with ct := e.ct } ∧
              (∀ y : Byte, y ≠ x → e.ctAt y.toNat = s.eng.ctAt y.toNat) ∧
              (e.ctAt x.toNat).valid = (s.eng.ctAt x.toNat).valid ∧ (e.ctAt x.toNat).len = (s.eng.ctAt x.toNat).len ∧
              ∀ v, v < 8 → tget (e.ctAt x.toNat).cw v 0#32 =
                if v = w then d else tget (s.eng.ctAt x.toNat).cw v 0#32) ∧
      ∀ w, 9 ≤ w → w ≤ 15 →
        (s.busRead (BitVec.ofNat 16 (0x4000 + 64 * x.toNat + 4 * w))).resp = some (.readDone 0#32 false) ∧
          s.busWrite (BitVec.ofNat 16 (0x4000 + 64 * x.toNat + 4 * w)) d = { s with resp := some (.writeDone false) }

/-- 20_memory.md R71: the NODE window. Entry 511 reads 0 wherever NODE_COUNT is at most 511. -/
def Obligations.NodeWindow : Prop :=
  ∀ (s : State) (i : Nat), s.phase = .idle → i < 512 →
    (i < s.eng.nodeCount.toNat →
        (∃ x : Word, (s.busRead (BitVec.ofNat 16 (0x8000 + 16 * i))).resp = some (.readDone x false) ∧
            x.getLsbD 31 = (s.eng.nodeAt i).tag ∧ x.getLsbD 30 = false ∧
            x.extractLsb' 28 2 =
              (match s.eng.ownAt i with | .loose => 0#2 | .queued => 1#2 | .child => 2#2 | .rooted => 3#2) ∧
            x.extractLsb' 8 20 = 0#20 ∧ x.extractLsb' 0 8 = (s.eng.nodeAt i).sym) ∧
          (s.busRead (BitVec.ofNat 16 (0x8000 + 16 * i + 4))).resp = some (.readDone (s.eng.nodeAt i).weight false) ∧
          (s.busRead (BitVec.ofNat 16 (0x8000 + 16 * i + 8))).resp =
            some (.readDone ((s.eng.nodeAt i).left.zeroExtend 32) false) ∧
          (s.busRead (BitVec.ofNat 16 (0x8000 + 16 * i + 12))).resp =
            some (.readDone ((s.eng.nodeAt i).right.zeroExtend 32) false)) ∧
      (s.eng.nodeCount.toNat ≤ i ∨ (i = 511 ∧ s.eng.nodeCount.toNat ≤ 511) → ∀ w, w < 4 →
        (s.busRead (BitVec.ofNat 16 (0x8000 + 16 * i + 4 * w))).resp = some (.readDone 0#32 false))

/-- 20_memory.md R72: the HEAP window. -/
def Obligations.HeapWindow : Prop :=
  ∀ (s : State) (i : Nat), s.phase = .idle → i < 256 →
    (s.busRead (BitVec.ofNat 16 (0xA000 + 4 * i))).resp =
      some (.readDone (if i < s.eng.heapSize.toNat then (s.eng.heapAt i).zeroExtend 32 else 0#32) false)

/-- 20_memory.md R80: a second write of the same value to any place but CMD is the same as one, and a write
to CMD is not: each accepted one starts a command. -/
def Obligations.PlainStoresAreIdempotent : Prop :=
  (∀ (s : State) (a : BusAddr) (d : Word), Inv s → a ≠ 0x000C#16 →
      (s.busWrite a d).busWrite a d = s.busWrite a d) ∧
    ∀ (s : State) (d : Word), s.phase = .idle →
      (s.busWrite 0x000C#16 d).phase = .busy ∧ (s.busWrite 0x000C#16 d).cmdL = d ∧
        (s.overrun = false → (s.busWrite 0x000C#16 d).busWrite 0x000C#16 d ≠ s.busWrite 0x000C#16 d)

/-- 10_state.md R23, R45, 60_exceptions.md R228: the bits of STATUS, its read in every phase, and DONE and irq through acceptance, completion,
acknowledgement, the enable bit, the initialisation step and reset. -/
def Obligations.StatusWordAndInterrupt : Prop :=
  ∀ s : State,
    (s.statusWord.getLsbD 0 = true ↔ s.phase ≠ .idle) ∧ s.statusWord.getLsbD 1 = s.done ∧
      s.statusWord.getLsbD 2 = s.overrun ∧ s.statusWord.extractLsb' 4 4 = s.err ∧
      (∀ k, k = 3 ∨ 8 ≤ k → s.statusWord.getLsbD k = false) ∧
      s.busRead 0x0008#16 = { s with resp := some (.readDone s.statusWord false), draws := (s.busRead 0x0008#16).draws } ∧
      s.irq = (s.ie && s.done) ∧
      (∀ i t, exec i s = .next t → t.done = true ∧ t.irq = s.ie) ∧
      s.completeIllegal.done = true ∧ s.completeIllegal.irq = s.ie ∧
      (∀ v, s.phase = .idle → (s.busWrite 0x000C#16 v).irq = false) ∧
      (∀ d, d.getLsbD 1 = true → (s.busWrite 0x0008#16 d).irq = false) ∧
      (∀ d, (s.busWrite 0x0004#16 d).irq = (d.getLsbD 0 && s.done)) ∧
      s.initStep.done = s.done ∧ s.initStep.irq = s.irq ∧ State.reset.irq = false ∧
      ∀ rest, (s.hostMove .reset rest).irq = false

/-! ## Reset -/

/-- 10_state.md R46: the state at reset and after the initialisation step, for every instance: every value the
spec gives in either column. -/
def Obligations.ResetAndInitValues : Prop :=
  State.reset = State.resetOf ⟨4096, 4096⟩ ∧
    ∀ p : Params,
      (let s := State.resetOf p;
        s.params = p ∧ s.phase = .init ∧ s.readReg .id = 0x48544231#32 ∧ s.ie = false ∧ s.statusWord = 1#32 ∧
          s.arg0 = 0#32 ∧ s.arg1 = 0#32 ∧ s.res0 = 0#32 ∧ s.res1 = 0#32 ∧ s.eng.heapSize = 0#9 ∧
          s.eng.nodeCount = 0#10 ∧ s.eng.leafCount = 0#9 ∧ s.eng.rootValid = false ∧ s.eng.rootIdx = 0#9 ∧
          s.eng.outBits = 0#32 ∧ s.readReg .inSize = BitVec.ofNat 32 p.inBytes ∧
          s.readReg .outSize = BitVec.ofNat 32 p.outBytes ∧
          (∀ a, s.eng.inMem.read a = none ∧ s.eng.outMem.read a = none) ∧ s.irq = false) ∧
        (let s := (State.resetOf p).initStep;
          s.params = p ∧ s.readReg .inSize = BitVec.ofNat 32 p.inBytes ∧ s.readReg .outSize = BitVec.ofNat 32 p.outBytes ∧
            s.phase = .idle ∧ s.readReg .id = 0x48544231#32 ∧ s.ie = false ∧ s.statusWord = 0#32 ∧ s.arg0 = 0#32 ∧
            s.arg1 = 0#32 ∧ s.res0 = 0#32 ∧ s.res1 = 0#32 ∧ s.eng.heapSize = 0#9 ∧ s.eng.nodeCount = 0#10 ∧
            s.eng.leafCount = 0#9 ∧ s.eng.rootValid = false ∧ s.eng.rootIdx = 0#9 ∧ s.eng.outBits = 0#32 ∧
            (∀ x : Byte, s.eng.freqAt x.toNat = 0#32 ∧ s.eng.ctAt x.toNat = CtEntry.blank) ∧
            (∀ a, s.eng.inMem.read a = none ∧ s.eng.outMem.read a = none) ∧ s.irq = false)

/-- 70_reset_and_hazards.md R250: reset from any state. The command in progress is abandoned: it leaves no
effect and sets no DONE. -/
def Obligations.HardwareResetFromAnyState : Prop :=
  ∀ (s : State) (rest : List HostMove),
    let t := s.hostMove .reset rest
    t.phase = .init ∧ t.params = s.params ∧ t.ie = false ∧ t.done = false ∧ t.overrun = false ∧ t.err = 0#4 ∧
      t.arg0 = 0#32 ∧ t.arg1 = 0#32 ∧ t.res0 = 0#32 ∧ t.res1 = 0#32 ∧ t.eng.heapSize = 0#9 ∧
      t.eng.nodeCount = 0#10 ∧ t.eng.leafCount = 0#9 ∧ t.eng.rootValid = false ∧ t.eng.rootIdx = 0#9 ∧
      t.eng.outBits = 0#32 ∧ (∀ a, t.eng.inMem.read a = none ∧ t.eng.outMem.read a = none) ∧ t.irq = false

/-- 70_reset_and_hazards.md R251: the initialisation step, everything it writes and nothing else, and the
bus meanwhile. -/
def Obligations.InitialisationStep : Prop :=
  ∀ s : State, s.phase = .init →
    (s.enginesTurn →
        ∃ e : Engine, step s = .next { s with eng := e, phase := .idle } ∧
          e = { s.eng with freq := e.freq, ct := e.ct, nodeCount := e.nodeCount, leafCount := e.leafCount,
                           heapSize := e.heapSize, rootValid := e.rootValid, rootIdx := e.rootIdx,
                           outBits := e.outBits } ∧
          (∀ x : Byte, e.freqAt x.toNat = 0#32 ∧ e.ctAt x.toNat = CtEntry.blank) ∧ e.nodeCount = 0#10 ∧
          e.leafCount = 0#9 ∧ e.heapSize = 0#9 ∧ e.rootValid = false ∧ e.rootIdx = 0#9 ∧ e.outBits = 0#32 ∧
          e.inMem = s.eng.inMem ∧ e.outMem = s.eng.outMem) ∧
      s.statusWord.getLsbD 0 = true ∧
      (∀ a d, inWindow s.params a.toNat →
        (s.busRead a).resp = some (.readDone 0#32 true) ∧ (s.busWrite a d).resp = some (.writeDone true)) ∧
      ∀ v, (s.busWrite 0x000C#16 v).overrun = true

/-! ## One result statement per command -/

/-- 40_control.md R110: NOP completes from every state, with no engine-owned state changed. -/
def Obligations.NopResult : Prop :=
  decode 0x00000000#32 = .ok .nop ∧
  ∀ s : State,
    exec .nop s = .next { s with res0 := 0#32, res1 := 0#32, err := 0#4, done := true, phase := .idle } ∧
      (s.overrun = false →
        { s with res0 := 0#32, res1 := 0#32, err := 0#4, done := true, phase := .idle }.statusWord = 2#32)

/-- 40_control.md R111: CLEAR completes from every state; what it clears is what the initialisation step
clears, and both buffers keep their contents. -/
def Obligations.ClearResult : Prop :=
  decode 0x00000001#32 = .ok .clear ∧
  ∀ s : State, ∃ e : Engine,
    exec .clear s =
        .next { s with eng := e, res0 := 0#32, res1 := 0#32, err := 0#4, done := true, phase := .idle } ∧
      (∀ x : Byte, e.freqAt x.toNat = 0#32 ∧ e.ctAt x.toNat = CtEntry.blank) ∧ e.nodeCount = 0#10 ∧
      e.leafCount = 0#9 ∧ e.heapSize = 0#9 ∧ e.rootValid = false ∧ e.rootIdx = 0#9 ∧ e.outBits = 0#32 ∧
      e.inMem = s.eng.inMem ∧ e.outMem = s.eng.outMem ∧
      ∀ u : State, u.initStep.eng.freq = e.freq ∧ u.initStep.eng.ct = e.ct ∧
        u.initStep.eng.nodeCount = e.nodeCount ∧ u.initStep.eng.leafCount = e.leafCount ∧
        u.initStep.eng.heapSize = e.heapSize ∧ u.initStep.eng.rootValid = e.rootValid ∧
        u.initStep.eng.rootIdx = e.rootIdx ∧ u.initStep.eng.outBits = e.outBits

/-- 41_priority_queue.md R126: HEAP_BUILD, both errors and the success. `presentSyms` is the ascending list of
the symbols with FREQ ≠ 0 and `totalFreq` the exact sum of their counts; `h` is the heap array before the
sift loop, which `heapify` runs from position (K div 2) - 1 down to 0. -/
def Obligations.HeapBuildResult : Prop :=
  decode 0x00000010#32 = .ok .heapBuild ∧
  ∀ s : State,
    (s.eng.presentSyms = [] → exec .heapBuild s = .next (s.complete ⟨s.eng, .invalidInput, 0#32, 0#32⟩)) ∧
      (s.eng.presentSyms ≠ [] → 0xFFFFFFFF < s.eng.totalFreq →
        exec .heapBuild s = .next (s.complete ⟨s.eng, .weightOverflow, 0#32, 0#32⟩)) ∧
      (s.eng.presentSyms ≠ [] → s.eng.totalFreq ≤ 0xFFFFFFFF →
        ∃ (e : Engine) (h : Vector NodeIdx 256),
          exec .heapBuild s =
              .next (s.complete ⟨e, .ok, BitVec.ofNat 32 s.eng.presentSyms.length, BitVec.ofNat 32 s.eng.totalFreq⟩) ∧
            (∀ i, i < s.eng.presentSyms.length →
              e.nodeAt i =
                  ⟨false, BitVec.ofNat 8 (s.eng.presentSyms.getD i 0), s.eng.freqAt (s.eng.presentSyms.getD i 0), 0#9,
                    0#9⟩ ∧
                e.ownAt i = .queued ∧ hget h i = BitVec.ofNat 9 i) ∧
            e.nodeCount.toNat = s.eng.presentSyms.length ∧ e.leafCount.toNat = s.eng.presentSyms.length ∧
            e.heapSize.toNat = s.eng.presentSyms.length ∧ e.rootValid = false ∧ e.rootIdx = 0#9 ∧
            e.heap = heapify e.less s.eng.presentSyms.length (s.eng.presentSyms.length / 2) h ∧
            e.freq = s.eng.freq ∧ e.ct = s.eng.ct ∧ e.inMem = s.eng.inMem ∧ e.outMem = s.eng.outMem ∧
            e.outBits = s.eng.outBits)

/-- 41_priority_queue.md R127 and R124: PQ_INSERT, its three errors and the success, which is heap_insert. -/
def Obligations.PqInsertResult : Prop :=
  decode 0x00000011#32 = .ok .pqInsert ∧
  ∀ s : State,
    (s.eng.nodeCount.toNat ≤ s.arg0L.toNat →
        exec .pqInsert s = .next (s.complete ⟨s.eng, .badNode, 0#32, 0#32⟩)) ∧
      (s.arg0L.toNat < s.eng.nodeCount.toNat → s.eng.ownAt s.arg0L.toNat ≠ .loose →
        exec .pqInsert s = .next (s.complete ⟨s.eng, .nodeNotLoose, 0#32, 0#32⟩)) ∧
      (s.arg0L.toNat < s.eng.nodeCount.toNat → s.eng.ownAt s.arg0L.toNat = .loose → s.eng.heapSize.toNat = 256 →
        exec .pqInsert s = .next (s.complete ⟨s.eng, .queueFull, 0#32, 0#32⟩)) ∧
      (s.arg0L.toNat < s.eng.nodeCount.toNat → s.eng.ownAt s.arg0L.toNat = .loose → s.eng.heapSize.toNat < 256 →
        s.eng.nodeCount.toNat ≤ 511 →
        ∃ e : Engine,
          exec .pqInsert s = .next (s.complete ⟨e, .ok, s.arg0L, (s.eng.nodeAt s.arg0L.toNat).weight⟩) ∧
            e = { s.eng with heap := e.heap, heapSize := e.heapSize, own := e.own } ∧
            e.heapSize.toNat = s.eng.heapSize.toNat + 1 ∧
            e.heap =
              siftUp s.eng.less s.eng.heapSize.toNat s.eng.heapSize.toNat
                (tset s.eng.heap s.eng.heapSize.toNat (BitVec.ofNat 9 s.arg0L.toNat)) ∧
            ∀ j, e.ownAt j = if j = s.arg0L.toNat then .queued else s.eng.ownAt j)

/-- 41_priority_queue.md R128 and R125: PQ_EXTRACT, its error and the success, which is heap_extract. -/
def Obligations.PqExtractResult : Prop :=
  decode 0x00000012#32 = .ok .pqExtract ∧
  ∀ s : State,
    (s.eng.heapSize.toNat = 0 → exec .pqExtract s = .next (s.complete ⟨s.eng, .queueEmpty, 0#32, 0#32⟩)) ∧
      (1 ≤ s.eng.heapSize.toNat →
        ∃ e : Engine,
          exec .pqExtract s =
              .next (s.complete ⟨e, .ok, (s.eng.heapAt 0).zeroExtend 32, (s.eng.nodeAt (s.eng.heapAt 0).toNat).weight⟩) ∧
            e = { s.eng with heap := e.heap, heapSize := e.heapSize, own := e.own } ∧
            e.heapSize.toNat = s.eng.heapSize.toNat - 1 ∧
            e.heap =
              (if 0 < s.eng.heapSize.toNat - 1 then
                siftDown s.eng.less (s.eng.heapSize.toNat - 1) 0 (s.eng.heapSize.toNat - 1)
                  (tset s.eng.heap 0 (s.eng.heapAt (s.eng.heapSize.toNat - 1)))
              else s.eng.heap) ∧
            ∀ j, e.ownAt j = if j = (s.eng.heapAt 0).toNat then .loose else s.eng.ownAt j)

/-- 41_priority_queue.md R129: PQ_PEEK, its error and the success, which changes no engine-owned state and
gives what PQ_EXTRACT would give. -/
def Obligations.PqPeekResult : Prop :=
  decode 0x00000013#32 = .ok .pqPeek ∧
  ∀ s : State,
    (s.eng.heapSize.toNat = 0 → exec .pqPeek s = .next (s.complete ⟨s.eng, .queueEmpty, 0#32, 0#32⟩)) ∧
      (1 ≤ s.eng.heapSize.toNat →
        exec .pqPeek s =
          .next (s.complete ⟨s.eng, .ok, (s.eng.heapAt 0).zeroExtend 32, (s.eng.nodeAt (s.eng.heapAt 0).toNat).weight⟩)) ∧
      ∃ t u, exec .pqPeek s = .next t ∧ exec .pqExtract s = .next u ∧ u.res0 = t.res0 ∧ u.res1 = t.res1 ∧ u.err = t.err

/-- 42_tree_builder.md R152 and R151: NODE_MERGE, its four errors and the success, which is merge_nodes. -/
def Obligations.NodeMergeResult : Prop :=
  decode 0x00000014#32 = .ok .nodeMerge ∧
  ∀ s : State,
    let a := s.arg0L.toNat
    let b := s.arg1L.toNat
    let n := s.eng.nodeCount.toNat
    (n ≤ a ∨ n ≤ b → exec .nodeMerge s = .next (s.complete ⟨s.eng, .badNode, 0#32, 0#32⟩)) ∧
      (a < n → b < n → a = b ∨ s.eng.ownAt a ≠ .loose ∨ s.eng.ownAt b ≠ .loose →
        exec .nodeMerge s = .next (s.complete ⟨s.eng, .nodeNotLoose, 0#32, 0#32⟩)) ∧
      (a < n → b < n → a ≠ b → s.eng.ownAt a = .loose → s.eng.ownAt b = .loose → n = 511 →
        exec .nodeMerge s = .next (s.complete ⟨s.eng, .arenaFull, 0#32, 0#32⟩)) ∧
      (a < n → b < n → a ≠ b → s.eng.ownAt a = .loose → s.eng.ownAt b = .loose → n < 511 →
        0xFFFFFFFF < s.eng.weightAt a + s.eng.weightAt b →
        exec .nodeMerge s = .next (s.complete ⟨s.eng, .weightOverflow, 0#32, 0#32⟩)) ∧
      (a < n → b < n → a ≠ b → s.eng.ownAt a = .loose → s.eng.ownAt b = .loose → n < 511 →
        s.eng.weightAt a + s.eng.weightAt b ≤ 0xFFFFFFFF →
        ∃ e : Engine,
          exec .nodeMerge s =
              .next (s.complete ⟨e, .ok, BitVec.ofNat 32 n, BitVec.ofNat 32 (s.eng.weightAt a + s.eng.weightAt b)⟩) ∧
            e = { s.eng with node := e.node, nodeCount := e.nodeCount, own := e.own } ∧ e.nodeCount.toNat = n + 1 ∧
            (∀ j, e.nodeAt j =
              if j = n then
                ⟨true, 0#8, BitVec.ofNat 32 (s.eng.weightAt a + s.eng.weightAt b), BitVec.ofNat 9 a, BitVec.ofNat 9 b⟩
              else s.eng.nodeAt j) ∧
            ∀ j, e.ownAt j = if j = n then .loose else if j = a ∨ j = b then .child else s.eng.ownAt j)

/-- 42_tree_builder.md R153: MERGE_STEP, its errors, each with no state changed even after the extractions, and
the success: under the invariants it leaves the engine-owned state that PQ_EXTRACT, PQ_EXTRACT, NODE_MERGE and
PQ_INSERT of the nodes they return leave, and returns the new node. The left child is the first extracted. -/
def Obligations.MergeStepIsItsParts : Prop :=
  decode 0x00000015#32 = .ok .mergeStep ∧
  ∀ s : State,
    (s.eng.heapSize.toNat < 2 → exec .mergeStep s = .next (s.complete ⟨s.eng, .queueEmpty, 0#32, 0#32⟩)) ∧
      (2 ≤ s.eng.heapSize.toNat → s.eng.nodeCount.toNat = 511 →
        exec .mergeStep s = .next (s.complete ⟨s.eng, .arenaFull, 0#32, 0#32⟩)) ∧
      (∀ s1 s2, 2 ≤ s.eng.heapSize.toNat → s.eng.nodeCount.toNat ≠ 511 → exec .pqExtract s = .next s1 →
        exec .pqExtract s1 = .next s2 → 0xFFFFFFFF < s1.res1.toNat + s2.res1.toNat →
        exec .mergeStep s = .next (s.complete ⟨s.eng, .weightOverflow, 0#32, 0#32⟩)) ∧
      (StructInv s.eng → 2 ≤ s.eng.heapSize.toNat →
        ∃ s1 s2 s3 s4,
          exec .pqExtract s = .next s1 ∧ exec .pqExtract s1 = .next s2 ∧
            exec .nodeMerge { s2 with arg0L := s1.res0, arg1L := s2.res0 } = .next s3 ∧ s3.err = 0#4 ∧
            exec .pqInsert { s3 with arg0L := s3.res0 } = .next s4 ∧ s4.err = 0#4 ∧
            exec .mergeStep s = .next (s.complete ⟨s4.eng, .ok, s3.res0, s3.res1⟩) ∧ s1.res1.toNat ≤ s2.res1.toNat)

/-- 42_tree_builder.md R154: SET_ROOT, its two errors and the success; an old root becomes LOOSE. -/
def Obligations.SetRootResult : Prop :=
  decode 0x00000016#32 = .ok .setRoot ∧
  ∀ s : State,
    (s.eng.nodeCount.toNat ≤ s.arg0L.toNat →
        exec .setRoot s = .next (s.complete ⟨s.eng, .badNode, 0#32, 0#32⟩)) ∧
      (s.arg0L.toNat < s.eng.nodeCount.toNat → s.eng.ownAt s.arg0L.toNat ≠ .loose →
        exec .setRoot s = .next (s.complete ⟨s.eng, .nodeNotLoose, 0#32, 0#32⟩)) ∧
      (s.arg0L.toNat < s.eng.nodeCount.toNat → s.eng.ownAt s.arg0L.toNat = .loose → s.eng.nodeCount.toNat ≤ 511 →
        ∃ e : Engine,
          exec .setRoot s = .next (s.complete ⟨e, .ok, s.arg0L, (s.eng.nodeAt s.arg0L.toNat).weight⟩) ∧
            e = { s.eng with own := e.own, rootValid := true, rootIdx := BitVec.ofNat 9 s.arg0L.toNat } ∧
            ∀ j, e.ownAt j =
              if j = s.arg0L.toNat then .rooted
              else if s.eng.rootValid = true ∧ j = s.eng.rootIdx.toNat then .loose else s.eng.ownAt j)

/-- 42_tree_builder.md R155: BUILD_TREE, both errors, and the success: it leaves the engine-owned state that
HEAP_BUILD, then MERGE_STEP while HEAP_SIZE > 1, then PQ_EXTRACT and SET_ROOT of the extracted node leave, and
returns the root and the total weight; CT is as before. -/
def Obligations.BuildTreeIsItsParts : Prop :=
  decode 0x00000017#32 = .ok .buildTree ∧
  ∀ s : State,
    (s.eng.presentSyms = [] → exec .buildTree s = .next (s.complete ⟨s.eng, .invalidInput, 0#32, 0#32⟩)) ∧
      (s.eng.presentSyms ≠ [] → 0xFFFFFFFF < s.eng.totalFreq →
        exec .buildTree s = .next (s.complete ⟨s.eng, .weightOverflow, 0#32, 0#32⟩)) ∧
      (s.eng.presentSyms ≠ [] → s.eng.totalFreq ≤ 0xFFFFFFFF →
        ∃ s1 s2 s3 s4,
          exec .heapBuild s = .next s1 ∧ MergeRun s1 s2 ∧ exec .pqExtract s2 = .next s3 ∧ s3.err = 0#4 ∧
            exec .setRoot { s3 with arg0L := s3.res0 } = .next s4 ∧ s4.err = 0#4 ∧
            exec .buildTree s = .next (s.complete ⟨s4.eng, .ok, s3.res0, s3.res1⟩) ∧
            s3.res1.toNat = s.eng.totalFreq ∧ s4.eng.ct = s.eng.ct)

/-- 43_code_table.md R181-R183: GEN_CODES, its error, which leaves CT alone, and the success: under the
invariants the tree `tr` stands at ROOT and each of its leaves gets its path as its code (a single leaf gets
"0"), with zeros at and above LEN; every other symbol has no code; RES0 counts the leaves and RES1 is the
longest code. -/
def Obligations.GenCodesResult : Prop :=
  decode 0x00000020#32 = .ok .genCodes ∧
  ∀ s : State,
    (s.eng.rootValid = false → exec .genCodes s = .next (s.complete ⟨s.eng, .noTree, 0#32, 0#32⟩)) ∧
      (StructInv s.eng → s.eng.rootValid = true →
        ∃ (tr : HTree) (e : Engine) (L : Nat),
          tr.idx = s.eng.rootIdx.toNat ∧ s.eng.Holds tr ∧
            exec .genCodes s = .next (s.complete ⟨e, .ok, BitVec.ofNat 32 tr.leaves, BitVec.ofNat 32 L⟩) ∧
            (∀ c ∈ tr.codes, c.2.length ≤ L) ∧ (∃ c ∈ tr.codes, c.2.length = L) ∧ e = { s.eng with ct := e.ct } ∧
            (∀ c ∈ tr.codes,
              (e.ctAt (s.eng.nodeAt c.1).sym.toNat).valid = true ∧
                (e.ctAt (s.eng.nodeAt c.1).sym.toNat).code = c.2 ∧
                ∀ j, c.2.length ≤ j → (e.ctAt (s.eng.nodeAt c.1).sym.toNat).codebit j = false) ∧
            ∀ x : Byte, (∀ c ∈ tr.codes, (s.eng.nodeAt c.1).sym ≠ x) → e.ctAt x.toNat = CtEntry.blank)

/-- 43_code_table.md R184: CT_CLEAR completes from every state and clears CT alone. -/
def Obligations.CtClearResult : Prop :=
  decode 0x00000021#32 = .ok .ctClear ∧
  ∀ s : State, ∃ e : Engine,
    exec .ctClear s =
        .next { s with eng := e, res0 := 0#32, res1 := 0#32, err := 0#4, done := true, phase := .idle } ∧
      e = { s.eng with ct := e.ct } ∧ ∀ x : Byte, e.ctAt x.toNat = CtEntry.blank

/-- 44_encoder.md R201, 60_exceptions.md R223, R225: ENCODE of no symbol, and ENCODE of a range past the end of
IN_MEM, the sum exact; neither changes engine-owned state, OUT_BITS included. -/
def Obligations.EncodeRejectsOperands : Prop :=
  ∀ (s : State) (A : Bool),
    (s.arg1L = 0#32 → exec (.encode A) s = .next (s.complete ⟨s.eng, .invalidInput, 0#32, 0#32⟩)) ∧
      (s.arg1L ≠ 0#32 → s.params.inBytes < s.arg0L.toNat + s.arg1L.toNat →
        exec (.encode A) s = .next (s.complete ⟨s.eng, .badRange, 0#32, 0#32⟩))

/-- 44_encoder.md R202: ENCODE of a text that has been written, whose symbols all have codes and whose bits
fit. `B0` is where its output starts. -/
def Obligations.EncodeResult : Prop :=
  ∀ (s : State) (A : Bool) (txt : List Byte) (B0 : Nat),
    s.params.wf = true → s.arg1L ≠ 0#32 → s.arg0L.toNat + s.arg1L.toNat ≤ s.params.inBytes →
    s.eng.text s.arg0L.toNat s.arg1L.toNat = some txt → (∀ b ∈ txt, (s.eng.ctAt b.toNat).valid = true) →
    B0 = (if A then s.eng.outBits.toNat else 0) → B0 + (s.eng.codesOf txt).length ≤ 8 * s.params.outBytes →
    ∃ e : Engine,
      exec (.encode A) s =
          .next ({ s with draws := s.draws + 1 }.complete
            ⟨e, .ok, BitVec.ofNat 32 (s.eng.codesOf txt).length, s.arg1L⟩) ∧
        e = { s.eng with outMem := e.outMem, outBits := e.outBits } ∧
        (s.eng.codesOf txt).length = (txt.map fun b => (s.eng.ctAt b.toNat).len.toNat).sum ∧
        e.outBits.toNat = B0 + (s.eng.codesOf txt).length ∧
        (∀ k, k < (s.eng.codesOf txt).length → e.streamBit (B0 + k) = some ((s.eng.codesOf txt).getD k false)) ∧
        (∀ p x, p < B0 → s.eng.streamBit p = some x → e.streamBit p = some x) ∧
        ((∀ b ∈ txt, 1 ≤ (s.eng.ctAt b.toNat).len.toNat) → s.arg1L.toNat ≤ (s.eng.codesOf txt).length)

/-- 44_encoder.md R203, 60_exceptions.md R225: ENCODE whose first `m` symbols encode and whose symbol `x` at
offset start + m has no code, or has a code that does not fit. It reports (offset, symbol) and leaves exactly
what an ENCODE of the first `m` symbols leaves; where `m` is 0 no byte of OUT_MEM is written. -/
def Obligations.EncodeStopsPrecisely : Prop :=
  ∀ (s : State) (A : Bool) (m : Nat) (txt : List Byte) (x : Byte) (B0 : Word),
    s.params.wf = true → m < s.arg1L.toNat → s.arg0L.toNat + s.arg1L.toNat ≤ s.params.inBytes →
    s.eng.text s.arg0L.toNat m = some txt → (∀ b ∈ txt, (s.eng.ctAt b.toNat).valid = true) →
    B0 = (if A then s.eng.outBits else 0#32) → B0.toNat + (s.eng.codesOf txt).length ≤ 8 * s.params.outBytes →
    s.eng.inMem.read (s.arg0L.toNat + m) = some x →
    ∀ E : ErrCode,
      ((s.eng.ctAt x.toNat).valid = false ∧ E = .symbolNotFound) ∨
        ((s.eng.ctAt x.toNat).valid = true ∧
          8 * s.params.outBytes < B0.toNat + (s.eng.codesOf txt).length + (s.eng.ctAt x.toNat).len.toNat ∧
          E = .outOverflow) →
      ∃ e : Engine,
        exec (.encode A) s =
            .next ({ s with draws := s.draws + 1 }.complete
              ⟨e, E, BitVec.ofNat 32 (s.arg0L.toNat + m), x.zeroExtend 32⟩) ∧
          (m = 0 → e = { s.eng with outBits := B0 }) ∧
          (m ≠ 0 →
            exec (.encode A) { s with arg1L := BitVec.ofNat 32 m } =
              .next ({ s with arg1L := BitVec.ofNat 32 m, draws := s.draws + 1 }.complete
                ⟨e, .ok, BitVec.ofNat 32 (s.eng.codesOf txt).length, BitVec.ofNat 32 m⟩))

/-- 44_encoder.md R204: ENCODE faults where, after `m` symbols that encode, it reads a byte of IN_MEM that
nothing has written since reset. -/
def Obligations.EncodeFaultsOnUnwrittenInput : Prop :=
  ∀ (s : State) (A : Bool) (m : Nat) (txt : List Byte),
    s.params.wf = true → m < s.arg1L.toNat → s.arg0L.toNat + s.arg1L.toNat ≤ s.params.inBytes →
    s.eng.text s.arg0L.toNat m = some txt → (∀ b ∈ txt, (s.eng.ctAt b.toNat).valid = true) →
    (if A then s.eng.outBits.toNat else 0) + (s.eng.codesOf txt).length ≤ 8 * s.params.outBytes →
    s.eng.inMem.read (s.arg0L.toNat + m) = none →
    exec (.encode A) s = .fault (.unwrittenInput (s.arg0L.toNat + m))

/-! ## Frames -/

/-- 20_memory.md R84, column "writes": what each command leaves unchanged of the engine-owned state, every byte
of both buffers included. ENCODE's frame within OUT_MEM is the next statement. -/
def Obligations.CommandFrames : Prop :=
  ∀ s t : State,
    (exec .nop s = .next t ∨ exec .pqPeek s = .next t → t.eng = s.eng) ∧
      (exec .clear s = .next t →
        t.eng = { s.eng with freq := t.eng.freq, nodeCount := t.eng.nodeCount, leafCount := t.eng.leafCount,
                             heapSize := t.eng.heapSize, rootValid := t.eng.rootValid, rootIdx := t.eng.rootIdx,
                             ct := t.eng.ct, outBits := t.eng.outBits }) ∧
      (exec .heapBuild s = .next t ∨ exec .buildTree s = .next t →
        t.eng = { s.eng with node := t.eng.node, own := t.eng.own, heap := t.eng.heap, nodeCount := t.eng.nodeCount,
                             leafCount := t.eng.leafCount, heapSize := t.eng.heapSize, rootValid := t.eng.rootValid,
                             rootIdx := t.eng.rootIdx }) ∧
      (exec .pqInsert s = .next t ∨ exec .pqExtract s = .next t →
        t.eng = { s.eng with own := t.eng.own, heap := t.eng.heap, heapSize := t.eng.heapSize }) ∧
      (exec .nodeMerge s = .next t →
        t.eng = { s.eng with node := t.eng.node, own := t.eng.own, nodeCount := t.eng.nodeCount }) ∧
      (exec .mergeStep s = .next t →
        t.eng = { s.eng with node := t.eng.node, own := t.eng.own, heap := t.eng.heap, heapSize := t.eng.heapSize,
                             nodeCount := t.eng.nodeCount }) ∧
      (exec .setRoot s = .next t →
        t.eng = { s.eng with own := t.eng.own, rootValid := t.eng.rootValid, rootIdx := t.eng.rootIdx }) ∧
      (exec .genCodes s = .next t ∨ exec .ctClear s = .next t → t.eng = { s.eng with ct := t.eng.ct }) ∧
      (∀ A, exec (.encode A) s = .next t →
        t.eng = { s.eng with outMem := t.eng.outMem, outBits := t.eng.outBits }) ∧
      ∀ i, exec i s = .next t →
        ∀ a, t.eng.inMem.read a = s.eng.inMem.read a ∧
          ((∀ A, i ≠ .encode A) → t.eng.outMem.read a = s.eng.outMem.read a)

/-- 44_encoder.md R200, R201: ENCODE writes OUT_MEM only at p div 8 for the stream positions p it emits, from
where its output starts up to the new OUT_BITS, and in the first of these bytes it keeps the bits of earlier
output. -/
def Obligations.EncodeStoreFrame : Prop :=
  ∀ (s t : State) (A : Bool), s.params.wf = true → s.eng.outBits.toNat ≤ 8 * s.params.outBytes →
    exec (.encode A) s = .next t →
    let B0 := if A then s.eng.outBits.toNat else 0
    (∀ a, (∀ p, B0 ≤ p → p < t.eng.outBits.toNat → p / 8 ≠ a) → t.eng.outMem.read a = s.eng.outMem.read a) ∧
      (∀ p x, p < B0 → s.eng.streamBit p = some x → t.eng.streamBit p = some x) ∧
      t.eng.outBits.toNat ≤ 8 * s.params.outBytes

/-! ## The helper procedures -/

/-- 41_priority_queue.md R120: `less` compares (WEIGHT, index) lexicographically and is a strict total order
on node indices. -/
def Obligations.HeapOrderIsStrictTotal : Prop :=
  ∀ (e : Engine) (x y z : NodeIdx),
    (e.less x y = true ↔
        e.weightAt x.toNat < e.weightAt y.toNat ∨ (e.weightAt x.toNat = e.weightAt y.toNat ∧ x.toNat < y.toNat)) ∧
      e.less x x = false ∧ (e.less x y = true → e.less y z = true → e.less x z = true) ∧
      (x ≠ y → e.less x y = true ∨ e.less y x = true)

/-- 41_priority_queue.md R122, R123: `sift_down(i, n)` and `sift_up(i)` are the loops of the rules, and
`heapify lt n k` is R126's loop of sift_downs from position k - 1 down to 0. Each side's
first argument bounds the turns; the equations say the bounds the model uses are never what ends a loop. -/
def Obligations.SiftLoops : Prop :=
  ∀ (lt : NodeIdx → NodeIdx → Bool) (h : Vector NodeIdx 256) (i n : Nat),
    (let l := 2 * i + 1;
      let r := 2 * i + 2;
      let m1 := if l < n ∧ lt (hget h l) (hget h i) = true then l else i;
      let m := if r < n ∧ lt (hget h r) (hget h m1) = true then r else m1;
      siftDown lt n i n h = if m = i then h else siftDown lt n m n (hswap h i m)) ∧
      (let p := (i - 1) / 2;
        siftUp lt i i h = if 0 < i ∧ lt (hget h i) (hget h p) = true then siftUp lt p p (hswap h i p) else h) ∧
      heapify lt n 0 h = h ∧ (∀ j, heapify lt n (j + 1) h = heapify lt n j (siftDown lt n j n h)) ∧
      ∀ j k, i < 256 → j < 256 → hget (hswap h i j) k = if k = j then hget h i else if k = i then hget h j else hget h k

/-- 43_code_table.md R180: `code` reads back the code `store_code` stored, with VALID and LEN, zeros at and above
its length, and no other entry changed. -/
def Obligations.StoreCodeReadsBack : Prop :=
  ∀ (e : Engine) (x : Byte) (c : List Bool), c.length ≤ 255 →
    ((e.storeCode x c).ctAt x.toNat).valid = true ∧ ((e.storeCode x c).ctAt x.toNat).len.toNat = c.length ∧
      ((e.storeCode x c).ctAt x.toNat).code = c ∧
      (∀ j, j < 256 →
        (tget ((e.storeCode x c).ctAt x.toNat).cw (j / 32) 0#32).getLsbD (31 - j % 32) = c.getD j false) ∧
      (∀ y : Byte, y ≠ x → (e.storeCode x c).ctAt y.toNat = e.ctAt y.toNat) ∧
      ∀ (t : CtEntry) (j : Nat), j < t.len.toNat →
        t.code.getD j false = (tget t.cw (j / 32) 0#32).getLsbD (31 - j % 32)

/-- 44_encoder.md R200: `emit_bit`, the byte it writes and the rest of OUT_MEM; and after any bits emitted from a
byte boundary on, the unused low bits of the last byte are 0. -/
def Obligations.EmitBitPlacesBit : Prop :=
  ∀ (junk : Byte) (e : Engine),
    (∀ b : Bool, e.outBits.toNat + 1 < 2 ^ 32 →
        (e.emitBit junk b).outBits.toNat = e.outBits.toNat + 1 ∧
          (∀ a, a ≠ e.outBits.toNat / 8 → (e.emitBit junk b).outMem.read a = e.outMem.read a) ∧
          ∃ y, (e.emitBit junk b).outMem.read (e.outBits.toNat / 8) = some y ∧
            y.getLsbD (7 - e.outBits.toNat % 8) = b ∧
            ∀ k, k < 8 → k ≠ 7 - e.outBits.toNat % 8 →
              (e.outBits.toNat % 8 = 0 → y.getLsbD k = false) ∧
                ∀ z, e.outBits.toNat % 8 ≠ 0 → e.outMem.read (e.outBits.toNat / 8) = some z →
                  y.getLsbD k = z.getLsbD k) ∧
      ∀ (c : List Bool) (q : Nat), e.outBits.toNat + c.length < 2 ^ 32 → e.outBits.toNat % 8 = 0 →
        e.outBits.toNat + c.length ≤ q → q / 8 = (e.outBits.toNat + c.length) / 8 →
        (e.outBits.toNat + c.length) % 8 ≠ 0 → (e.emitCode junk c).streamBit q = some false

/-! ## What follows for the whole machine -/

/-- 41_priority_queue.md R121: under the invariants the heap property holds, H[0] is the minimum of the queue
under `less`, and every command that completes leaves the heap property true. -/
def Obligations.HeapMinimumFirst : Prop :=
  ∀ s : State, StructInv s.eng →
    (∀ i, 0 < i → i < s.eng.heapSize.toNat → s.eng.less (s.eng.heapAt ((i - 1) / 2)) (s.eng.heapAt i) = true) ∧
      (∀ x ∈ s.eng.queue, x ≠ s.eng.heapAt 0 → s.eng.less (s.eng.heapAt 0) x = true) ∧
      ∀ i t, exec i s = .next t → ∀ j, 0 < j → j < t.eng.heapSize.toNat →
        t.eng.less (t.eng.heapAt ((j - 1) / 2)) (t.eng.heapAt j) = true

/-- 41_priority_queue.md R130: under the invariants successive PQ_EXTRACTs return the queued nodes in strictly
ascending `less` order, and the order depends only on the queued nodes and their weights. -/
def Obligations.ExtractionOrder : Prop :=
  ∀ s : State, StructInv s.eng →
    (∃ l : List NodeIdx,
        extractedBy s.eng.heapSize.toNat s = some (l.map fun n => n.zeroExtend 32) ∧ l.Perm s.eng.queue ∧
          l.Pairwise fun x y => s.eng.less x y = true) ∧
      ∀ s' : State, StructInv s'.eng → s'.eng.queue.Perm s.eng.queue →
        (∀ n ∈ s.eng.queue, s'.eng.weightAt n.toNat = s.eng.weightAt n.toNat) →
        extractedBy s.eng.heapSize.toNat s' = extractedBy s.eng.heapSize.toNat s

/-- 42_tree_builder.md R157: under the invariants QUEUE_FULL, ARENA_FULL and a WEIGHT_OVERFLOW at a merge cannot
occur. -/
def Obligations.UnreachableChecks : Prop :=
  ∀ s t : State, StructInv s.eng →
    (exec .pqInsert s = .next t → t.err ≠ 0xC#4) ∧
      (exec .nodeMerge s = .next t ∨ exec .mergeStep s = .next t → t.err ≠ 0xD#4 ∧ t.err ≠ 0x9#4)

/-- 42_tree_builder.md R156: the state after a successful BUILD_TREE with K leaves and total weight T, and that it
depends only on FREQ: another state with the same FREQ gives the same tree, ownership and results. -/
def Obligations.BuildTreeConsequences : Prop :=
  ∀ s t : State, exec .buildTree s = .next t → t.err = 0#4 →
    (let K := s.eng.presentSyms.length;
      t.eng.nodeCount.toNat = 2 * K - 1 ∧ t.eng.leafCount.toNat = K ∧ t.eng.heapSize.toNat = 0 ∧
        t.eng.rootValid = true ∧ t.eng.rootIdx.toNat = (if K = 1 then 0 else 2 * K - 2) ∧
        (∀ i, i < t.eng.nodeCount.toNat →
          t.eng.ownAt i = if i = t.eng.rootIdx.toNat then .rooted else .child) ∧
        t.eng.weightAt t.eng.rootIdx.toNat = s.eng.totalFreq ∧
        t.eng.weightSum t.eng.leafCount.toNat (fun _ => true) = s.eng.totalFreq) ∧
      ∀ s' : State, s'.eng.freq = s.eng.freq →
        ∃ t', exec .buildTree s' = .next t' ∧ t'.res0 = t.res0 ∧ t'.res1 = t.res1 ∧ t'.err = t.err ∧
          t'.eng.nodeCount = t.eng.nodeCount ∧ t'.eng.leafCount = t.eng.leafCount ∧
          t'.eng.heapSize = t.eng.heapSize ∧ t'.eng.rootValid = t.eng.rootValid ∧ t'.eng.rootIdx = t.eng.rootIdx ∧
          ∀ i, i < t.eng.nodeCount.toNat → t'.eng.nodeAt i = t.eng.nodeAt i ∧ t'.eng.ownAt i = t.eng.ownAt i

/-- 43_code_table.md R185: a table GEN_CODES wrote for a root with j leaves is prefix-free, meets the Kraft
equality (in units of 2^-255), has every length in its bounds, and has j entries, which RES0 counts. -/
def Obligations.CodeTableIsPrefixFreeAndFull : Prop :=
  ∀ (s t : State) (tr : HTree), StructInv s.eng → exec .genCodes s = .next t → t.err = 0#4 →
    s.eng.Holds tr → tr.idx = s.eng.rootIdx.toNat →
    let valid := (List.range 256).filter fun x => (t.eng.ctAt x).valid
    (∀ x ∈ valid, ∀ y ∈ valid, x ≠ y → ¬ (t.eng.ctAt x).code <+: (t.eng.ctAt y).code) ∧
      (2 ≤ tr.leaves → (valid.map fun x => 2 ^ (255 - (t.eng.ctAt x).len.toNat)).sum = 2 ^ 255) ∧
      (tr.leaves = 1 → (valid.map fun x => 2 ^ (255 - (t.eng.ctAt x).len.toNat)).sum = 2 ^ 254) ∧
      (∀ x ∈ valid, 1 ≤ (t.eng.ctAt x).len.toNat ∧
        (2 ≤ tr.leaves → (t.eng.ctAt x).len.toNat ≤ tr.leaves - 1) ∧
        (tr.leaves = 1 → (t.eng.ctAt x).len.toNat = 1)) ∧
      t.res0.toNat = tr.leaves ∧ valid.length = tr.leaves

/-- 95_test_vectors.md section 2, 43_code_table.md R185, 44_encoder.md R202: whatever text a new ENCODE encodes
with the table GEN_CODES wrote, the reference decoder recovers it from the output stream and the tree. -/
def Obligations.EncodedTextDecodesBack : Prop :=
  ∀ s s1 s2 s3 : State, StructInv s.eng → exec .genCodes s = .next s1 → s1.err = 0#4 →
    s2.params.wf = true → s2.eng.ct = s1.eng.ct → s2.eng.node = s1.eng.node → s2.eng.rootIdx = s1.eng.rootIdx →
    exec (.encode false) s2 = .next s3 → s3.err = 0#4 →
    ∃ txt, s2.eng.text s2.arg0L.toNat s2.arg1L.toNat = some txt ∧ s3.eng.refDecode s3.eng.stream = some txt

/-- 10_state.md R44, R46: the invariant of the machine holds at reset, in every allowed instance. -/
def Obligations.InvAtReset : Prop := Inv State.reset ∧ ∀ p : Params, p.wf = true → Inv (State.resetOf p)

/-- 10_state.md R44: every step of the machine, of the engine or of the host, keeps the invariant: the nine
structural invariants, the canonical form and the bounds of both buffers, OUT_BITS within OUT_MEM, and an allowed
instance, which no step changes. -/
def Obligations.StepKeepsInv : Prop := ∀ s t : State, Inv s → step s = .next t → Inv t ∧ t.params = s.params

/-- 60_exceptions.md R220: under the invariant every command completes, with success or an error, unless it is an
ENCODE that reads a byte of IN_MEM nothing has written since reset (44_encoder.md R204). -/
def Obligations.EveryCommandCompletes : Prop :=
  ∀ (i : Instr) (s : State), Inv s →
    (∃ t, exec i s = .next t) ∨
      ∃ A off, i = .encode A ∧ s.arg0L.toNat ≤ off ∧ off < s.arg0L.toNat + s.arg1L.toNat ∧
        s.eng.inMem.read off = none ∧ exec i s = .fault (.unwrittenInput off)

/-- 60_exceptions.md R224, R225: what a command that ends in an error records and commits,
an ILLEGAL word first. -/
def Obligations.ErrorsCommitPrecisely : Prop :=
  (∀ s : State,
    s.completeIllegal = { s with res0 := 0#32, res1 := 0#32, err := 4#4, done := true, phase := .idle }) ∧
  ∀ (i : Instr) (s t : State), exec i s = .next t → t.err ≠ 0#4 →
    t.done = true ∧ t.phase = .idle ∧ t.arg0 = s.arg0 ∧ t.arg1 = s.arg1 ∧
      (t.err ≠ 0x2#4 ∧ t.err ≠ 0xB#4 → t.eng = s.eng ∧ t.res0 = 0#32 ∧ t.res1 = 0#32) ∧
      (t.err = 0x2#4 ∨ t.err = 0xB#4 →
        (∃ A, i = .encode A) ∧ t.eng = { s.eng with outMem := t.eng.outMem, outBits := t.eng.outBits } ∧
          ∃ off x, s.arg0L.toNat ≤ off ∧ off < s.arg0L.toNat + s.arg1L.toNat ∧ s.eng.inMem.read off = some x ∧
            t.res0 = BitVec.ofNat 32 off ∧ t.res1 = x.zeroExtend 32)

/-- 60_exceptions.md R221: the error codes, and which of them each command can end with. ILLEGAL words end with
4, and no command with 3, 0xE or 0xF. -/
def Obligations.ErrorCodesRaised : Prop :=
  (∀ (i : Instr) (s t : State), exec i s = .next t →
      t.err ∈
        (match i with
        | .nop => [0x0#4]
        | .clear => [0x0#4]
        | .heapBuild => [0x0#4, 0x1#4, 0x9#4]
        | .pqInsert => [0x0#4, 0x6#4, 0x7#4, 0xC#4]
        | .pqExtract => [0x0#4, 0x5#4]
        | .pqPeek => [0x0#4, 0x5#4]
        | .nodeMerge => [0x0#4, 0x6#4, 0x7#4, 0xD#4, 0x9#4]
        | .mergeStep => [0x0#4, 0x5#4, 0xD#4, 0x9#4]
        | .setRoot => [0x0#4, 0x6#4, 0x7#4]
        | .buildTree => [0x0#4, 0x1#4, 0x9#4]
        | .genCodes => [0x0#4, 0x8#4]
        | .ctClear => [0x0#4]
        | .encode _ => [0x0#4, 0x1#4, 0xA#4, 0x2#4, 0xB#4])) ∧
    ∀ s : State, s.completeIllegal.err = 0x4#4

/-- 42_tree_builder.md R150, 10_state.md R32: under the invariants, what a command can do to the nodes that were
allocated before it. Only CLEAR, HEAP_BUILD and BUILD_TREE discard them; every other command leaves their
contents, keeps a CHILD a CHILD, and changes ownership only as R150 lists. -/
def Obligations.OwnershipTransitions : Prop :=
  ∀ (i : Instr) (s t : State) (j : Nat), StructInv s.eng → exec i s = .next t → i ≠ .clear → i ≠ .heapBuild →
    i ≠ .buildTree → j < s.eng.nodeCount.toNat →
    j < t.eng.nodeCount.toNat ∧ t.eng.nodeAt j = s.eng.nodeAt j ∧
      (s.eng.ownAt j = .child → t.eng.ownAt j = .child) ∧
      (t.eng.ownAt j ≠ s.eng.ownAt j →
        (i = .pqInsert ∧ j = s.arg0L.toNat ∧ s.eng.ownAt j = .loose ∧ t.eng.ownAt j = .queued) ∨
          (i = .pqExtract ∧ j = (s.eng.heapAt 0).toNat ∧ s.eng.ownAt j = .queued ∧ t.eng.ownAt j = .loose) ∨
          (i = .nodeMerge ∧ (j = s.arg0L.toNat ∨ j = s.arg1L.toNat) ∧ s.eng.ownAt j = .loose ∧
            t.eng.ownAt j = .child) ∨
          (i = .mergeStep ∧ s.eng.ownAt j = .queued ∧ t.eng.ownAt j = .child) ∨
          (i = .setRoot ∧ j = s.arg0L.toNat ∧ s.eng.ownAt j = .loose ∧ t.eng.ownAt j = .rooted) ∨
          (i = .setRoot ∧ j = s.eng.rootIdx.toNat ∧ s.eng.ownAt j = .rooted ∧ t.eng.ownAt j = .loose))
end

