-- ==== Sys2Proof/Laws/Ops.lean ====
section
/-! SUPPORT. Laws of the array, bit and byte-memory operations of Machine/Ops.lean. -/

namespace Sys2Proof.Machine

/-! ## Arrays -/

/-- A read after a write: the value written at that entry, every other entry as before. -/
theorem tget_tset {α : Type} {n : Nat} (v : Vector α n) (i j : Nat) (x d : α) :
    tget (tset v i x) j d = if j = i ∧ i < n then x else tget v j d := by
  unfold tget tset
  by_cases hj : j < n
  · rw [Vector.getElem?_eq_getElem hj, Vector.getElem?_eq_getElem hj, Vector.getElem_setIfInBounds]
    by_cases h : i = j
    · subst h; simp [hj]
    · simp [h, Ne.symm h]
  · rw [Vector.getElem?_eq_none (by omega), Vector.getElem?_eq_none (by omega)]
    have : ¬ (j = i ∧ i < n) := by omega
    simp [this]

@[simp] theorem tget_tset_self {α : Type} {n : Nat} (v : Vector α n) (i : Nat) (x d : α) (h : i < n) :
    tget (tset v i x) i d = x := by simp [tget_tset, h]

theorem tget_tset_ne {α : Type} {n : Nat} (v : Vector α n) {i j : Nat} (x d : α) (h : j ≠ i) :
    tget (tset v i x) j d = tget v j d := by simp [tget_tset, h]

@[simp] theorem tget_replicate {α : Type} (n i : Nat) (x : α) : tget (Vector.replicate n x) i x = x := by
  unfold tget
  by_cases hi : i < n
  · rw [Vector.getElem?_eq_getElem hi]; simp
  · rw [Vector.getElem?_eq_none (by omega)]; simp

theorem tget_out {α : Type} {n : Nat} (v : Vector α n) (i : Nat) (d : α) (h : n ≤ i) : tget v i d = d := by
  unfold tget; rw [Vector.getElem?_eq_none (by omega)]; rfl

/-- Two arrays with the same entries are the same array. -/
theorem tget_ext {α : Type} {n : Nat} (v w : Vector α n) (d : α) (h : ∀ i, i < n → tget v i d = tget w i d) :
    v = w := by
  apply Vector.ext
  intro i hi
  have := h i hi
  unfold tget at this
  simpa [Vector.getElem?_eq_getElem hi] using this

/-! ## Bits -/

/-- Setting a bit sets that bit and no other. -/
theorem getLsbD_setBit {w : Nat} (v : BitVec w) (i j : Nat) (b : Bool) :
    (setBit v i b).getLsbD j = if j = i ∧ j < w then b else v.getLsbD j := by
  unfold setBit
  by_cases hw : j < w
  · cases b <;> by_cases h : j = i
    · subst h; simp [hw]
    · simp [hw, h]
    · subst h; simp [hw]
    · simp [hw, h]
  · simp [hw, BitVec.getLsbD_of_ge _ _ (Nat.le_of_not_lt hw)]

/-! ## Byte memories -/

theorem Memory.read_nil (a : Nat) : Memory.read [] a = none := rfl

theorem Memory.read_cons (c : Host.Cell) (m : Memory) (a : Nat) :
    Memory.read (c :: m) a = if a = c.1 then some c.2 else Memory.read m a := by
  unfold Memory.read
  rw [List.lookup_cons]
  by_cases h : a = c.1
  · simp [h]
  · have : (a == c.1) = false := by simpa using h
    simp [h, this]

theorem Memory.wf_cons (c : Host.Cell) (m : Memory) :
    Memory.wf (c :: m) = true ↔ Memory.wf m = true ∧ ∀ d ∈ m, c.1 < d.1 := by
  induction m generalizing c with
  | nil => simp [Memory.wf]
  | cons d m ih =>
    rw [Memory.wf, Bool.and_eq_true, ih d]
    simp only [decide_eq_true_eq, List.mem_cons, forall_eq_or_imp]
    constructor
    · rintro ⟨h, hm, hd⟩
      exact ⟨⟨hm, hd⟩, h, fun x hx => Nat.lt_trans h (hd x hx)⟩
    · rintro ⟨⟨hm, hd⟩, h, _⟩
      exact ⟨h, hm, hd⟩

theorem Memory.mem_write {m : Memory} {a : Nat} {b : Byte} {x : Host.Cell} (h : x ∈ Memory.write m a b) :
    x = (a, b) ∨ x ∈ m := by
  induction m with
  | nil => simpa [Memory.write] using h
  | cons c m ih =>
    unfold Memory.write at h
    split at h
    · simpa using h
    · split at h
      · rcases List.mem_cons.1 h with h | h
        · exact .inl h
        · exact .inr (List.mem_cons_of_mem _ h)
      · rcases List.mem_cons.1 h with h | h
        · exact .inr (h ▸ List.mem_cons_self)
        · exact (ih h).imp id (List.mem_cons_of_mem _)

/-- A write keeps the canonical form. -/
theorem Memory.wf_write {m : Memory} (a : Nat) (b : Byte) (h : m.wf = true) : (m.write a b).wf = true := by
  induction m with
  | nil => rfl
  | cons c m ih =>
    obtain ⟨hm, hc⟩ := (Memory.wf_cons c m).1 h
    unfold Memory.write
    split
    · next hlt =>
      refine (Memory.wf_cons _ _).2 ⟨h, ?_⟩
      simp only [List.mem_cons, forall_eq_or_imp]
      exact ⟨hlt, fun d hd => Nat.lt_trans hlt (hc d hd)⟩
    · split
      · next heq => exact (Memory.wf_cons _ _).2 ⟨hm, fun d hd => heq ▸ hc d hd⟩
      · next hlt hne =>
        refine (Memory.wf_cons _ _).2 ⟨ih hm, fun d hd => ?_⟩
        rcases Memory.mem_write hd with h | h
        · subst h; simp only; omega
        · exact hc d h

/-- A read after a write: the byte written at that index, every other index as before. -/
theorem Memory.read_write (m : Memory) (a a' : Nat) (b : Byte) :
    (m.write a b).read a' = if a' = a then some b else m.read a' := by
  induction m with
  | nil => simp [Memory.write, Memory.read_cons, Memory.read_nil]
  | cons c m ih =>
    unfold Memory.write
    split
    · simp [Memory.read_cons]
    · split
      · next heq => subst heq; by_cases h : a' = c.1 <;> simp [Memory.read_cons, h]
      · next hne =>
        rw [Memory.read_cons, ih, Memory.read_cons]
        by_cases h : a' = c.1
        · have : ¬ a' = a := by omega
          simp [h]; intro hh; omega
        · simp [h]

theorem Memory.read_write_self (m : Memory) (a : Nat) (b : Byte) : (m.write a b).read a = some b := by
  simp [Memory.read_write]

theorem Memory.read_write_ne (m : Memory) {a a' : Nat} (b : Byte) (h : a' ≠ a) :
    (m.write a b).read a' = m.read a' := by simp [Memory.read_write, h]

/-- Canonical memories that read alike are the same data. -/
theorem Memory.ext_read {m m' : Memory} (h : m.wf = true) (h' : m'.wf = true) (hr : ∀ a, m.read a = m'.read a) :
    m = m' := by
  have none_lt : ∀ (m : Memory) (a : Nat), (∀ d ∈ m, a < d.1) → m.read a = none := by
    intro m a hm
    induction m with
    | nil => rfl
    | cons c m ih =>
      rw [Memory.read_cons, ih fun d hd => hm d (List.mem_cons_of_mem _ hd)]
      have := hm c List.mem_cons_self
      simp; omega
  induction m generalizing m' with
  | nil =>
    cases m' with
    | nil => rfl
    | cons c m' => have := hr c.1; simp [Memory.read_cons, Memory.read_nil] at this
  | cons c m ih =>
    obtain ⟨hm, hc⟩ := (Memory.wf_cons c m).1 h
    cases m' with
    | nil => have := hr c.1; simp [Memory.read_cons, Memory.read_nil] at this
    | cons c' m' =>
      obtain ⟨hm', hc'⟩ := (Memory.wf_cons c' m').1 h'
      have e1 := hr c.1
      have e2 := hr c'.1
      simp only [Memory.read_cons] at e1 e2
      have hcc : c.1 = c'.1 := by
        rcases Nat.lt_trichotomy c.1 c'.1 with hlt | heq | hlt
        · have : ¬ c.1 = c'.1 := by omega
          simp [this, none_lt m' c.1 fun d hd => Nat.lt_trans hlt (hc' d hd)] at e1
        · exact heq
        · have : ¬ c'.1 = c.1 := by omega
          simp [this, none_lt m c'.1 fun d hd => Nat.lt_trans hlt (hc d hd)] at e2
      have hcv : c = c' := by
        simp only [hcc, if_true, Option.some.injEq] at e1
        exact Prod.ext hcc e1
      subst hcv
      congr 1
      refine ih hm hm' fun a => ?_
      have ha := hr a
      simp only [Memory.read_cons] at ha
      by_cases hac : a = c.1
      · rw [hac, none_lt m c.1 hc, none_lt m' c.1 hc']
      · simpa [hac] using ha

/-- A word write keeps the canonical form. -/
theorem Memory.wf_writeWord {m : Memory} (j : Nat) (d : Word) (h : m.wf = true) : (m.writeWord j d).wf = true := by
  unfold Memory.writeWord
  exact Memory.wf_write _ _ (Memory.wf_write _ _ (Memory.wf_write _ _ (Memory.wf_write _ _ h)))

/-- A read of one byte after a word write. -/
theorem Memory.read_writeWord (m : Memory) (j a : Nat) (d : Word) :
    (m.writeWord j d).read a = if a / 4 = j then some (byteOf d (a % 4)) else m.read a := by
  unfold Memory.writeWord
  simp only [Memory.read_write]
  by_cases h : a / 4 = j
  · have h4 : a % 4 = 0 ∨ a % 4 = 1 ∨ a % 4 = 2 ∨ a % 4 = 3 := by omega
    rcases h4 with h4 | h4 | h4 | h4
    · rw [if_neg (by omega), if_neg (by omega), if_neg (by omega), if_pos (by omega), if_pos h, h4]
    · rw [if_neg (by omega), if_neg (by omega), if_pos (by omega), if_pos h, h4]
    · rw [if_neg (by omega), if_pos (by omega), if_pos h, h4]
    · rw [if_pos (by omega), if_pos h, h4]
  · rw [if_neg (by omega), if_neg (by omega), if_neg (by omega), if_neg (by omega), if_neg h]

/-- A word read after a word write of the same word, whatever the free bytes. -/
theorem Memory.readWord_writeWord (m : Memory) (j k : Nat) (d : Word) : (m.writeWord j d).readWord j k = d := by
  unfold Memory.readWord Memory.readFree
  simp only [Memory.read_writeWord]
  rw [if_pos (by omega), if_pos (by omega), if_pos (by omega), if_pos (by omega)]
  have h0 : 4 * j % 4 = 0 := by omega
  have h1 : (4 * j + 1) % 4 = 1 := by omega
  have h2 : (4 * j + 2) % 4 = 2 := by omega
  have h3 : (4 * j + 3) % 4 = 3 := by omega
  simp only [Option.getD_some, h0, h1, h2, h3, wordOf, byteOf]
  apply BitVec.eq_of_getLsbD_eq
  intro i hi
  simp only [BitVec.getLsbD_append, BitVec.getLsbD_extractLsb']
  by_cases i0 : i < 8
  · simp [i0]
  · by_cases i1 : i < 16
    · have : i - 8 < 8 := by omega
      simp [i0, this]; congr 1; omega
    · by_cases i2 : i < 24
      · have a1 : ¬ i - 8 < 8 := by omega
        have a2 : i - 8 - 8 < 8 := by omega
        simp [i0, a1, a2]; congr 1; omega
      · have a1 : ¬ i - 8 < 8 := by omega
        have a2 : ¬ i - 8 - 8 < 8 := by omega
        have a3 : i - 8 - 8 - 8 < 8 := by omega
        simp [i0, a1, a2, a3]; congr 1; omega

end Sys2Proof.Machine
end

