-- ==== Sys2Proof/Laws/Heap.lean ====
section
/-! SUPPORT. Laws of the heap order and of the sift procedures (41_priority_queue.md R120-R123, R126): they permute the first n entries and establish the heap property. -/

namespace Sys2Proof.Machine

/-! ## The order -/

/-- `less` compares the key (WEIGHT, index) lexicographically (41_priority_queue.md R120). -/
theorem Engine.less_iff (e : Engine) (x y : NodeIdx) :
    e.less x y = true ↔
      e.weightAt x.toNat < e.weightAt y.toNat ∨
        (e.weightAt x.toNat = e.weightAt y.toNat ∧ x.toNat < y.toNat) := by
  simp [Engine.less, Engine.weightAt]

/-- What the heap laws need of an order: irreflexive, transitive and total. -/
structure StrictOrder (lt : NodeIdx → NodeIdx → Bool) : Prop where
  irrefl : ∀ x, lt x x = false
  trans : ∀ x y z, lt x y = true → lt y z = true → lt x z = true
  total : ∀ x y, x ≠ y → lt x y = true ∨ lt y x = true

/-- `less` is a strict total order on node indices (41_priority_queue.md R120). -/
theorem Engine.less_strictOrder (e : Engine) : StrictOrder e.less where
  irrefl x := by
    cases h : e.less x x
    · rfl
    · rw [Engine.less_iff] at h; omega
  trans x y z hxy hyz := by
    rw [Engine.less_iff] at *; omega
  total x y hne := by
    have : x.toNat ≠ y.toNat := fun h => hne (BitVec.eq_of_toNat_eq h)
    rw [Engine.less_iff, Engine.less_iff]; omega

namespace StrictOrder

variable {lt : NodeIdx → NodeIdx → Bool} (so : StrictOrder lt)
include so

theorem asymm {x y : NodeIdx} (h : lt x y = true) : lt y x = false := by
  cases h' : lt y x
  · rfl
  · have := so.trans _ _ _ h h'; rw [so.irrefl] at this; cases this

/-- Not-above is transitive. -/
theorem le_trans {x y z : NodeIdx} (hxy : lt y x = false) (hyz : lt z y = false) : lt z x = false := by
  cases hzx : lt z x
  · rfl
  · by_cases h : x = y
    · subst h; rw [hyz] at hzx; cases hzx
    · rcases so.total x y h with h1 | h1
      · rw [so.trans _ _ _ hzx h1] at hyz; cases hyz
      · rw [h1] at hxy; cases hxy

theorem lt_of_le_of_ne {x y : NodeIdx} (h : lt y x = false) (hne : x ≠ y) : lt x y = true := by
  rcases so.total x y hne with h1 | h1
  · exact h1
  · rw [h1] at h; cases h

end StrictOrder

/-! ## The first n entries of a heap array -/

/-- The first `n` entries of a heap array. -/
def hlist (h : Vector NodeIdx 256) (n : Nat) : List NodeIdx := (List.range n).map (hget h)

theorem Engine.queue_eq (e : Engine) : e.queue = hlist e.heap e.heapSize.toNat := rfl

theorem mem_hlist {h : Vector NodeIdx 256} {n : Nat} {x : NodeIdx} :
    x ∈ hlist h n ↔ ∃ i, i < n ∧ hget h i = x := by simp [hlist]

@[simp] theorem length_hlist (h : Vector NodeIdx 256) (n : Nat) : (hlist h n).length = n := by simp [hlist]

theorem hget_mem {h : Vector NodeIdx 256} {n i : Nat} (hi : i < n) : hget h i ∈ hlist h n :=
  mem_hlist.2 ⟨i, hi, rfl⟩

theorem hget_inj {h : Vector NodeIdx 256} {n i j : Nat} (hd : (hlist h n).Nodup) (hi : i < n) (hj : j < n)
    (he : hget h i = hget h j) : i = j := by
  have := (List.nodup_iff_injective_get.1 hd) (a₁ := ⟨i, by simpa using hi⟩) (a₂ := ⟨j, by simpa using hj⟩)
    (by simpa [hlist] using he)
  simpa using this

/-- A swap exchanges two entries and leaves the others. -/
theorem hget_hswap (h : Vector NodeIdx 256) {i j : Nat} (hi : i < 256) (hj : j < 256) (k : Nat) :
    hget (hswap h i j) k = hget h (Equiv.swap i j k) := by
  unfold hswap hget
  rw [tget_tset, tget_tset]
  by_cases hkj : k = j
  · subst hkj; simp [hj, Equiv.swap_apply_right]
  · by_cases hki : k = i
    · subst hki; simp [hi, hkj, Equiv.swap_apply_left]
    · simp [hkj, hki, Equiv.swap_apply_of_ne_of_ne]

theorem hlist_hswap_perm (h : Vector NodeIdx 256) {i j n : Nat} (hi : i < n) (hj : j < n) (hn : n ≤ 256) :
    (hlist (hswap h i j) n).Perm (hlist h n) := by
  have hmap : hlist (hswap h i j) n = ((List.range n).map (Equiv.swap i j)).map (hget h) := by
    unfold hlist
    rw [List.map_map]
    exact List.map_congr_left fun k _ => hget_hswap h (by omega) (by omega) k
  rw [hmap]
  refine List.Perm.map _ ((List.perm_ext_iff_of_nodup ?_ List.nodup_range).2 fun a => ?_)
  · exact List.Nodup.map (Equiv.swap i j).injective List.nodup_range
  · simp only [List.mem_map, List.mem_range]
    have hs : ∀ k, k < n → Equiv.swap i j k < n := by
      intro k hk
      rw [Equiv.swap_apply_def]; split_ifs <;> omega
    constructor
    · rintro ⟨k, hk, rfl⟩; exact hs k hk
    · intro ha; exact ⟨Equiv.swap i j a, hs a ha, by simp⟩

/-! ## sift_down -/

/-- The position `minChild` picks: `i` or one of its children within `n`, not above either of the others. -/
theorem minChild_spec {lt : NodeIdx → NodeIdx → Bool} (so : StrictOrder lt) (h : Vector NodeIdx 256) (n i : Nat) :
    (minChild lt h n i = i ∨ (minChild lt h n i = 2 * i + 1 ∧ 2 * i + 1 < n) ∨
        (minChild lt h n i = 2 * i + 2 ∧ 2 * i + 2 < n)) ∧
      lt (hget h i) (hget h (minChild lt h n i)) = false ∧
      (2 * i + 1 < n → lt (hget h (2 * i + 1)) (hget h (minChild lt h n i)) = false) ∧
      (2 * i + 2 < n → lt (hget h (2 * i + 2)) (hget h (minChild lt h n i)) = false) := by
  unfold minChild
  by_cases h1 : 2 * i + 1 < n ∧ lt (hget h (2 * i + 1)) (hget h i)
  · simp only [h1, and_self, if_true]
    by_cases h2 : 2 * i + 2 < n ∧ lt (hget h (2 * i + 2)) (hget h (2 * i + 1))
    · simp only [h2, and_self, if_true]
      exact ⟨.inr (.inr trivial), so.asymm (so.trans _ _ _ h2.2 h1.2), fun _ => so.asymm h2.2, fun _ => so.irrefl _⟩
    · rw [if_neg h2]
      refine ⟨.inr (.inl ⟨rfl, trivial⟩), so.asymm h1.2, fun _ => so.irrefl _, fun hn => ?_⟩
      cases hx : lt (hget h (2 * i + 2)) (hget h (2 * i + 1))
      · rfl
      · exact absurd ⟨hn, hx⟩ h2
  · rw [if_neg h1]
    have hl : 2 * i + 1 < n → lt (hget h (2 * i + 1)) (hget h i) = false := fun hn => by
      cases hx : lt (hget h (2 * i + 1)) (hget h i)
      · rfl
      · exact absurd ⟨hn, hx⟩ h1
    by_cases h2 : 2 * i + 2 < n ∧ lt (hget h (2 * i + 2)) (hget h i)
    · simp only [h2, and_self, if_true]
      exact ⟨.inr (.inr trivial), so.asymm h2.2,
        fun hn => so.le_trans (so.asymm h2.2) (hl hn), fun _ => so.irrefl _⟩
    · rw [if_neg h2]
      refine ⟨.inl rfl, so.irrefl _, hl, fun hn => ?_⟩
      cases hx : lt (hget h (2 * i + 2)) (hget h i)
      · rfl
      · exact absurd ⟨hn, hx⟩ h2

/-- `sift_down` permutes the first `n` entries. -/
theorem siftDown_perm {lt : NodeIdx → NodeIdx → Bool} (so : StrictOrder lt) (fuel : Nat) {i n : Nat}
    (h : Vector NodeIdx 256) (hi : i < n) (hn : n ≤ 256) : (hlist (siftDown lt fuel i n h) n).Perm (hlist h n) := by
  induction fuel generalizing i h with
  | zero => exact List.Perm.refl _
  | succ f ih =>
    unfold siftDown
    split
    · exact List.Perm.refl _
    · have hm : minChild lt h n i < n := by
        rcases (minChild_spec so h n i).1 with h1 | h1 | h1 <;> omega
      exact (ih _ hm).trans (hlist_hswap_perm h hi hm hn)

/-- The heap property, read weakly, of every pair whose parent is at or above position `lo`. -/
def HeapFrom (lt : NodeIdx → NodeIdx → Bool) (h : Vector NodeIdx 256) (lo n : Nat) : Prop :=
  ∀ j, 0 < j → j < n → lo ≤ (j - 1) / 2 → lt (hget h j) (hget h ((j - 1) / 2)) = false

/-- `sift_down` from `i` establishes the heap property from `lo` on, where it held but for `i` and its
children, and `i`'s children already stood in order under `i`'s parent. -/
theorem siftDown_heap {lt : NodeIdx → NodeIdx → Bool} (so : StrictOrder lt) (fuel : Nat) {i n lo : Nat}
    (h : Vector NodeIdx 256) (hi : i < n) (hn : n ≤ 256) (hf : n ≤ i + fuel) (hlo : lo ≤ i)
    (hrest : ∀ j, 0 < j → j < n → lo ≤ (j - 1) / 2 → (j - 1) / 2 ≠ i →
      lt (hget h j) (hget h ((j - 1) / 2)) = false)
    (hgrand : ∀ j, 0 < j → j < n → (j - 1) / 2 = i → 0 < i → lo ≤ (i - 1) / 2 →
      lt (hget h j) (hget h ((i - 1) / 2)) = false) :
    HeapFrom lt (siftDown lt fuel i n h) lo n := by
  induction fuel generalizing i h with
  | zero => omega
  | succ f ih =>
    obtain ⟨hm, hmi, hml, hmr⟩ := minChild_spec so h n i
    unfold siftDown
    split
    · next heq =>
      rw [heq] at hml hmr
      intro j hj0 hjn hjlo
      by_cases hp : (j - 1) / 2 = i
      · rw [hp]
        have : j = 2 * i + 1 ∨ j = 2 * i + 2 := by omega
        rcases this with rfl | rfl
        · exact hml hjn
        · exact hmr hjn
      · exact hrest j hj0 hjn hjlo hp
    · next hne =>
      generalize hmdef : minChild lt h n i = m at *
      have hmlt : m < n := by rcases hm with h1 | h1 | h1 <;> omega
      have hmgt : i < m := by rcases hm with h1 | h1 | h1 <;> omega
      have hmp : (m - 1) / 2 = i := by rcases hm with h1 | h1 | h1 <;> omega
      have gi : hget (hswap h i m) i = hget h m := by
        rw [hget_hswap h (by omega) (by omega), Equiv.swap_apply_left]
      have gm : hget (hswap h i m) m = hget h i := by
        rw [hget_hswap h (by omega) (by omega), Equiv.swap_apply_right]
      have go : ∀ k, k ≠ i → k ≠ m → hget (hswap h i m) k = hget h k := fun k h1 h2 => by
        rw [hget_hswap h (by omega) (by omega), Equiv.swap_apply_of_ne_of_ne h1 h2]
      refine ih (i := m) _ hmlt (by omega) (by omega) ?_ ?_
      · intro j hj0 hjn hjlo hjp
        by_cases hp : (j - 1) / 2 = i
        · rw [hp, gi]
          have hj : j = 2 * i + 1 ∨ j = 2 * i + 2 := by omega
          by_cases hjm : j = m
          · rw [hjm, gm]; exact hmi
          · rw [go j (by omega) hjm]
            rcases hj with rfl | rfl
            · exact hml hjn
            · exact hmr hjn
        · by_cases hji : j = i
          · subst hji
            rw [gi, go _ (by omega) (by omega)]
            exact hgrand m (by omega) hmlt hmp hj0 hjlo
          · by_cases hjm : j = m
            · omega
            · rw [go j hji hjm, go _ hp hjp]
              exact hrest j hj0 hjn hjlo hp
      · intro j hj0 hjn hjp _ _
        rw [hmp, gi, go j (by omega) (by omega)]
        have := hrest j hj0 hjn (by omega) (by omega)
        rwa [hjp] at this

/-! ## HEAP_BUILD's loop -/

theorem heapify_perm {lt : NodeIdx → NodeIdx → Bool} (so : StrictOrder lt) {n : Nat} (hn : n ≤ 256) (j : Nat)
    (h : Vector NodeIdx 256) (hj : j ≤ n) : (hlist (heapify lt n j h) n).Perm (hlist h n) := by
  induction j generalizing h with
  | zero => exact List.Perm.refl _
  | succ j ih =>
    unfold heapify
    exact (ih _ (by omega)).trans (siftDown_perm so n h (by omega) hn)

theorem heapify_heap {lt : NodeIdx → NodeIdx → Bool} (so : StrictOrder lt) {n : Nat} (hn : n ≤ 256) (j : Nat)
    (h : Vector NodeIdx 256) (hj : j ≤ n) (hh : HeapFrom lt h j n) : HeapFrom lt (heapify lt n j h) 0 n := by
  induction j generalizing h with
  | zero => exact hh
  | succ j ih =>
    unfold heapify
    refine ih _ (by omega) (siftDown_heap so n h (by omega) hn (by omega) le_rfl ?_ ?_)
    · intro k hk0 hkn hkp hne
      exact hh k hk0 hkn (by omega)
    · intro k _ _ _ hj0 hle; omega

/-! ## sift_up -/

/-- `sift_up` permutes the first `n` entries. -/
theorem siftUp_perm (lt : NodeIdx → NodeIdx → Bool) (fuel : Nat) {i n : Nat} (h : Vector NodeIdx 256) (hi : i < n)
    (hn : n ≤ 256) : (hlist (siftUp lt fuel i h) n).Perm (hlist h n) := by
  induction fuel generalizing i h with
  | zero => exact List.Perm.refl _
  | succ f ih =>
    unfold siftUp
    split
    · exact (ih _ (by omega)).trans (hlist_hswap_perm h hi (by omega) hn)
    · exact List.Perm.refl _

/-- `sift_up` from `i` establishes the heap property where it held but for `i`, and `i`'s children already
stood in order under `i`'s parent. -/
theorem siftUp_heap {lt : NodeIdx → NodeIdx → Bool} (so : StrictOrder lt) (fuel : Nat) {i n : Nat}
    (h : Vector NodeIdx 256) (hi : i < n) (hn : n ≤ 256) (hf : i ≤ fuel)
    (hrest : ∀ j, 0 < j → j < n → j ≠ i → lt (hget h j) (hget h ((j - 1) / 2)) = false)
    (hgrand : ∀ j, 0 < j → j < n → (j - 1) / 2 = i → 0 < i → lt (hget h j) (hget h ((i - 1) / 2)) = false) :
    HeapFrom lt (siftUp lt fuel i h) 0 n := by
  induction fuel generalizing i h with
  | zero =>
    intro j hj0 hjn _
    exact hrest j hj0 hjn (by omega)
  | succ f ih =>
    unfold siftUp
    split
    · next hlt =>
      obtain ⟨h0, hlt⟩ := hlt
      generalize hp : (i - 1) / 2 = p at *
      have gi : hget (hswap h i p) i = hget h p := by
        rw [hget_hswap h (by omega) (by omega), Equiv.swap_apply_left]
      have gp : hget (hswap h i p) p = hget h i := by
        rw [hget_hswap h (by omega) (by omega), Equiv.swap_apply_right]
      have go : ∀ k, k ≠ i → k ≠ p → hget (hswap h i p) k = hget h k := fun k h1 h2 => by
        rw [hget_hswap h (by omega) (by omega), Equiv.swap_apply_of_ne_of_ne h1 h2]
      refine ih (i := p) _ (by omega) (by omega) ?_ ?_
      · intro j hj0 hjn hjp
        by_cases hji : j = i
        · subst hji; rw [hp, gi, gp]; exact so.asymm hlt
        · rw [go j hji hjp]
          by_cases hpi : (j - 1) / 2 = i
          · rw [hpi, gi]; exact hgrand j hj0 hjn hpi h0
          · by_cases hpp : (j - 1) / 2 = p
            · rw [hpp, gp]
              have := hrest j hj0 hjn hji
              rw [hpp] at this
              exact so.le_trans (so.asymm hlt) this
            · rw [go _ hpi hpp]; exact hrest j hj0 hjn hji
      · intro j hj0 hjn hjp hp0
        rw [go ((p - 1) / 2) (by omega) (by omega)]
        have hpp := hrest p hp0 (by omega) (by omega)
        by_cases hji : j = i
        · subst hji; rw [gi]; exact hpp
        · rw [go j hji (by omega)]
          have := hrest j hj0 hjn hji
          rw [hjp] at this
          exact so.le_trans hpp this
    · next hlt =>
      intro j hj0 hjn _
      by_cases hji : j = i
      · subst hji
        cases hx : lt (hget h j) (hget h ((j - 1) / 2))
        · rfl
        · exact absurd ⟨hj0, hx⟩ hlt
      · exact hrest j hj0 hjn hji

/-! ## The weak and the strict heap property -/

theorem HeapOrdered.heapFrom {lt : NodeIdx → NodeIdx → Bool} (so : StrictOrder lt) {h : Vector NodeIdx 256} {n : Nat}
    (ho : HeapOrdered lt h n) : HeapFrom lt h 0 n := fun j hj0 hjn _ => so.asymm (ho j hj0 hjn)

theorem HeapFrom.ordered {lt : NodeIdx → NodeIdx → Bool} (so : StrictOrder lt) {h : Vector NodeIdx 256} {n : Nat}
    (hf : HeapFrom lt h 0 n) (hd : (hlist h n).Nodup) : HeapOrdered lt h n := fun j hj0 hjn =>
  so.lt_of_le_of_ne (hf j hj0 hjn (by omega)) fun he => by
    have := hget_inj hd (by omega) hjn he; omega

/-- `H[0]` is the minimum of an ordered heap (41_priority_queue.md R121). -/
theorem HeapOrdered.root_le {lt : NodeIdx → NodeIdx → Bool} (so : StrictOrder lt) {h : Vector NodeIdx 256} {n : Nat}
    (ho : HeapOrdered lt h n) (i : Nat) (hi : i < n) : lt (hget h i) (hget h 0) = false := by
  induction i using Nat.strong_induction_on with
  | _ i ih =>
    by_cases h0 : i = 0
    · subst h0; exact so.irrefl _
    · exact so.le_trans (ih ((i - 1) / 2) (by omega) (by omega)) (so.asymm (ho i (by omega) hi))

/-! ## The bounds on the loops -/

/-- `minChild` stays put or moves to a position above, within the heap. -/
theorem minChild_cases (lt : NodeIdx → NodeIdx → Bool) (h : Vector NodeIdx 256) (n i : Nat) :
  minChild lt h n i = i ∨ (i < minChild lt h n i ∧ minChild lt h n i < n) := by
  unfold minChild; simp only; split_ifs <;> omega

/-- Any bound on the turns that is large enough gives the same sift. -/
theorem siftDown_fuel (lt : NodeIdx → NodeIdx → Bool) (f g i n : Nat) (h : Vector NodeIdx 256) (hf : n ≤ i + f)
    (hg : n ≤ i + g) :
  siftDown lt f i n h = siftDown lt g i n h := by
  induction f generalizing g i h with
  | zero =>
    cases g with
    | zero => rfl
    | succ g =>
      rw [siftDown, siftDown]
      rcases minChild_cases lt h n i with hm | hm
      · rw [if_pos hm]
      · omega
  | succ f ih =>
    rcases minChild_cases lt h n i with hm | hm
    · rw [siftDown, if_pos hm]
      cases g with
      | zero => rfl
      | succ g => rw [siftDown, if_pos hm]
    · cases g with
      | zero => omega
      | succ g =>
        rw [siftDown, siftDown, if_neg (by omega), if_neg (by omega)]
        exact ih _ _ _ (by omega) (by omega)

/-- Any bound on the turns that is large enough gives the same sift. -/
theorem siftUp_fuel (lt : NodeIdx → NodeIdx → Bool) (f g i : Nat) (h : Vector NodeIdx 256) (hf : i ≤ f) (hg : i ≤ g) :
  siftUp lt f i h = siftUp lt g i h := by
  induction f generalizing g i h with
  | zero =>
    obtain rfl : i = 0 := by omega
    cases g with
    | zero => rfl
    | succ g => rw [siftUp, siftUp, if_neg (by simp)]
  | succ f ih =>
    rw [siftUp]
    split
    · next hc =>
      cases g with
      | zero => omega
      | succ g => rw [siftUp, if_pos hc]; exact ih _ _ _ (by omega) (by omega)
    · next hc =>
      cases g with
      | zero => rfl
      | succ g => rw [siftUp, if_neg hc]

end Sys2Proof.Machine
end

