-- ==== Sys2Proof/Laws/Queue.lean ====
section
/-! SUPPORT. Laws of heap_insert, heap_extract and HEAP_BUILD's leaf loop: everything each of them does (41_priority_queue.md R124-R126). -/

namespace Sys2Proof.Machine

/-! ## The order reads NODE alone -/

theorem Engine.less_congr {e e' : Engine} {x y : NodeIdx} (hx : e'.nodeAt x.toNat = e.nodeAt x.toNat)
    (hy : e'.nodeAt y.toNat = e.nodeAt y.toNat) : e'.less x y = e.less x y := by
  simp [Engine.less, hx, hy]

theorem Engine.less_of_node {e e' : Engine} (h : e'.node = e.node) : e'.less = e.less := by
  funext x y
  exact Engine.less_congr (by simp [Engine.nodeAt, h]) (by simp [Engine.nodeAt, h])

theorem HeapOrdered.congr {lt lt' : NodeIdx → NodeIdx → Bool} {h : Vector NodeIdx 256} {n : Nat}
    (ho : HeapOrdered lt h n) (hl : ∀ x ∈ hlist h n, ∀ y ∈ hlist h n, lt' x y = lt x y) : HeapOrdered lt' h n :=
  fun i hi hn => by
    rw [hl _ (hget_mem (by omega)) _ (hget_mem hn)]
    exact ho i hi hn

/-! ## heap_insert -/

theorem hlist_succ (h : Vector NodeIdx 256) (n : Nat) : hlist h (n + 1) = hlist h n ++ [hget h n] := by
  simp [hlist, List.range_succ]

theorem hlist_tset_out (h : Vector NodeIdx 256) {n k : Nat} (x : NodeIdx) (hk : n ≤ k) :
    hlist (tset h k x) n = hlist h n := by
  unfold hlist
  refine List.map_congr_left fun i hi => ?_
  have := List.mem_range.1 hi
  exact tget_tset_ne h x 0#9 (by omega)

@[simp] theorem Engine.heapInsert_node (e : Engine) (n : NodeIdx) : (e.heapInsert n).node = e.node := rfl
@[simp] theorem Engine.heapInsert_nodeAt (e : Engine) (n : NodeIdx) (i : Nat) :
    (e.heapInsert n).nodeAt i = e.nodeAt i := rfl
@[simp] theorem Engine.heapInsert_nodeCount (e : Engine) (n : NodeIdx) :
    (e.heapInsert n).nodeCount = e.nodeCount := rfl
@[simp] theorem Engine.heapInsert_leafCount (e : Engine) (n : NodeIdx) :
    (e.heapInsert n).leafCount = e.leafCount := rfl
@[simp] theorem Engine.heapInsert_rootValid (e : Engine) (n : NodeIdx) :
    (e.heapInsert n).rootValid = e.rootValid := rfl
@[simp] theorem Engine.heapInsert_rootIdx (e : Engine) (n : NodeIdx) : (e.heapInsert n).rootIdx = e.rootIdx := rfl
@[simp] theorem Engine.heapInsert_freq (e : Engine) (n : NodeIdx) : (e.heapInsert n).freq = e.freq := rfl
@[simp] theorem Engine.heapInsert_ct (e : Engine) (n : NodeIdx) : (e.heapInsert n).ct = e.ct := rfl
@[simp] theorem Engine.heapInsert_inMem (e : Engine) (n : NodeIdx) : (e.heapInsert n).inMem = e.inMem := rfl
@[simp] theorem Engine.heapInsert_outMem (e : Engine) (n : NodeIdx) : (e.heapInsert n).outMem = e.outMem := rfl
@[simp] theorem Engine.heapInsert_outBits (e : Engine) (n : NodeIdx) : (e.heapInsert n).outBits = e.outBits := rfl

theorem Engine.heapInsert_ownAt (e : Engine) (n : NodeIdx) (i : Nat) :
    (e.heapInsert n).ownAt i = if i = n.toNat ∧ n.toNat < 511 then .queued else e.ownAt i :=
  tget_tset e.own n.toNat i .queued .loose

theorem Engine.heapInsert_heapSize (e : Engine) (n : NodeIdx) (h : e.heapSize.toNat < 256) :
    (e.heapInsert n).heapSize.toNat = e.heapSize.toNat + 1 := by
  show (BitVec.ofNat 9 (e.heapSize.toNat + 1)).toNat = _
  rw [BitVec.toNat_ofNat]; omega

/-- heap_insert adds the node to the queue. -/
theorem Engine.heapInsert_queue (e : Engine) (n : NodeIdx) (h : e.heapSize.toNat < 256) :
    (e.heapInsert n).queue.Perm (n :: e.queue) := by
  rw [Engine.queue_eq, Engine.heapInsert_heapSize e n h, Engine.queue_eq]
  refine (siftUp_perm e.less _ _ (Nat.lt_succ_self _) (by omega)).trans ?_
  rw [hlist_succ, hlist_tset_out _ _ le_rfl]
  have : hget (tset e.heap e.heapSize.toNat n) e.heapSize.toNat = n := tget_tset_self e.heap _ n 0#9 h
  rw [this]
  exact List.perm_append_comm

/-- heap_insert keeps the heap property. -/
theorem Engine.heapInsert_ordered (e : Engine) (n : NodeIdx) (h : e.heapSize.toNat < 256)
    (ho : HeapOrdered e.less e.heap e.heapSize.toNat) (hd : (n :: e.queue).Nodup) :
    HeapOrdered (e.heapInsert n).less (e.heapInsert n).heap (e.heapInsert n).heapSize.toNat := by
  rw [Engine.less_of_node (e.heapInsert_node n)]
  refine HeapFrom.ordered e.less_strictOrder ?_ ?_
  · rw [Engine.heapInsert_heapSize e n h]
    refine siftUp_heap e.less_strictOrder _ _ (Nat.lt_succ_self _) (by omega) le_rfl ?_ ?_
    · intro j hj0 hjn hne
      rw [hget, hget, tget_tset_ne _ _ _ hne, tget_tset_ne _ _ _ (by omega)]
      exact e.less_strictOrder.asymm (ho j hj0 (by omega))
    · intro j _ hjn hp _; omega
  · exact ((Engine.heapInsert_queue e n h).nodup_iff).2 hd

/-! ## heap_extract -/

@[simp] theorem Engine.heapExtract_fst (e : Engine) : e.heapExtract.1 = e.heapAt 0 := rfl
@[simp] theorem Engine.heapExtract_node (e : Engine) : e.heapExtract.2.node = e.node := rfl
@[simp] theorem Engine.heapExtract_nodeAt (e : Engine) (i : Nat) : e.heapExtract.2.nodeAt i = e.nodeAt i := rfl
@[simp] theorem Engine.heapExtract_nodeCount (e : Engine) : e.heapExtract.2.nodeCount = e.nodeCount := rfl
@[simp] theorem Engine.heapExtract_leafCount (e : Engine) : e.heapExtract.2.leafCount = e.leafCount := rfl
@[simp] theorem Engine.heapExtract_rootValid (e : Engine) : e.heapExtract.2.rootValid = e.rootValid := rfl
@[simp] theorem Engine.heapExtract_rootIdx (e : Engine) : e.heapExtract.2.rootIdx = e.rootIdx := rfl
@[simp] theorem Engine.heapExtract_freq (e : Engine) : e.heapExtract.2.freq = e.freq := rfl
@[simp] theorem Engine.heapExtract_ct (e : Engine) : e.heapExtract.2.ct = e.ct := rfl
@[simp] theorem Engine.heapExtract_inMem (e : Engine) : e.heapExtract.2.inMem = e.inMem := rfl
@[simp] theorem Engine.heapExtract_outMem (e : Engine) : e.heapExtract.2.outMem = e.outMem := rfl
@[simp] theorem Engine.heapExtract_outBits (e : Engine) : e.heapExtract.2.outBits = e.outBits := rfl

theorem Engine.heapExtract_ownAt (e : Engine) (i : Nat) :
    e.heapExtract.2.ownAt i = if i = (e.heapAt 0).toNat ∧ (e.heapAt 0).toNat < 511 then .loose else e.ownAt i :=
  tget_tset e.own (e.heapAt 0).toNat i .loose .loose

theorem Engine.heapExtract_heapSize (e : Engine) :
    e.heapExtract.2.heapSize.toNat = e.heapSize.toNat - 1 := by
  show (BitVec.ofNat 9 (e.heapSize.toNat - 1)).toNat = _
  rw [BitVec.toNat_ofNat]; omega

/-- Moving the last entry to the front drops the first. -/
theorem hlist_front (h : Vector NodeIdx 256) {k : Nat} (hk : 0 < k) (hk' : k < 256) :
    (hlist h (k + 1)).Perm (hget h 0 :: hlist (tset h 0 (hget h k)) k) := by
  obtain ⟨m, rfl⟩ : ∃ m, k = m + 1 := ⟨k - 1, by omega⟩
  have front : ∀ g : Vector NodeIdx 256,
      hlist g (m + 1) = hget g 0 :: (List.range m).map fun i => hget g (i + 1) := by
    intro g
    simp [hlist, List.range_succ_eq_map, List.map_map, Function.comp_def]
  have tail : ((List.range m).map fun i => hget (tset h 0 (hget h (m + 1))) (i + 1)) =
      (List.range m).map fun i => hget h (i + 1) :=
    List.map_congr_left fun i _ => tget_tset_ne h _ 0#9 (by omega)
  rw [hlist_succ, front h, front (tset h 0 (hget h (m + 1))), tail]
  have h0 : hget (tset h 0 (hget h (m + 1))) 0 = hget h (m + 1) := tget_tset_self h 0 _ 0#9 (by omega)
  rw [h0]
  exact List.Perm.cons _ List.perm_append_comm

/-- heap_extract takes `H[0]` out of the queue. -/
theorem Engine.heapExtract_queue (e : Engine) (h0 : 0 < e.heapSize.toNat) (h : e.heapSize.toNat ≤ 256) :
    e.queue.Perm (e.heapAt 0 :: e.heapExtract.2.queue) := by
  rw [Engine.queue_eq, Engine.queue_eq, Engine.heapExtract_heapSize]
  obtain ⟨k, hk⟩ : ∃ k, e.heapSize.toNat = k + 1 := ⟨e.heapSize.toNat - 1, by omega⟩
  have hheap : e.heapExtract.2.heap =
      if 0 < k then siftDown e.less k 0 k (tset e.heap 0 (e.heapAt k)) else e.heap := by
    show (if 0 < e.heapSize.toNat - 1 then _ else _) = _
    rw [show e.heapSize.toNat - 1 = k by omega]
  rw [hheap, hk, Nat.add_sub_cancel]
  by_cases hpos : 0 < k
  · rw [if_pos hpos]
    exact (hlist_front e.heap hpos (by omega)).trans
      (List.Perm.cons _ (siftDown_perm e.less_strictOrder k _ hpos (by omega)).symm)
  · obtain rfl : k = 0 := by omega
    simp [hlist, hget, Engine.heapAt]

/-- heap_extract keeps the heap property. -/
theorem Engine.heapExtract_ordered (e : Engine) (h0 : 0 < e.heapSize.toNat) (h : e.heapSize.toNat ≤ 256)
    (ho : HeapOrdered e.less e.heap e.heapSize.toNat) (hd : e.queue.Nodup) :
    HeapOrdered e.heapExtract.2.less e.heapExtract.2.heap e.heapExtract.2.heapSize.toNat := by
  rw [Engine.less_of_node e.heapExtract_node]
  refine HeapFrom.ordered e.less_strictOrder ?_ ?_
  · rw [Engine.heapExtract_heapSize]
    show HeapFrom e.less (if 0 < e.heapSize.toNat - 1 then _ else _) 0 _
    by_cases hpos : 0 < e.heapSize.toNat - 1
    · rw [if_pos hpos]
      refine siftDown_heap e.less_strictOrder _ _ hpos (by omega) (by omega) le_rfl ?_ ?_
      · intro j hj0 hjn _ hne
        rw [hget, hget, tget_tset_ne _ _ _ (by omega), tget_tset_ne _ _ _ hne]
        exact e.less_strictOrder.asymm (ho j hj0 (by omega))
      · intro j _ _ _ hlt; omega
    · intro j hj0 hjn; omega
  · exact (List.nodup_cons.1 ((Engine.heapExtract_queue e h0 h).nodup_iff.1 hd)).2

/-- The extracted node is the minimum of the queue (41_priority_queue.md R121, R130). -/
theorem Engine.heapAt_zero_least (e : Engine) (ho : HeapOrdered e.less e.heap e.heapSize.toNat) (x : NodeIdx)
    (hx : x ∈ e.queue) : e.less x (e.heapAt 0) = false := by
  rw [Engine.queue_eq] at hx
  obtain ⟨i, hi, rfl⟩ := mem_hlist.1 hx
  exact ho.root_le e.less_strictOrder i hi

/-! ## HEAP_BUILD's leaf loop -/

theorem Engine.createLeaves_rest (e : Engine) (ss : List Nat) (i : Nat) :
    (e.createLeaves ss i).freq = e.freq ∧ (e.createLeaves ss i).ct = e.ct ∧
      (e.createLeaves ss i).inMem = e.inMem ∧ (e.createLeaves ss i).outMem = e.outMem ∧
      (e.createLeaves ss i).outBits = e.outBits := by
  induction ss generalizing e i with
  | nil => exact ⟨rfl, rfl, rfl, rfl, rfl⟩
  | cons s ss ih => exact ih _ _

theorem Engine.createLeaves_nodeAt (e : Engine) (ss : List Nat) (i j : Nat) (h : i + ss.length ≤ 511) :
    (e.createLeaves ss i).nodeAt j =
      if i ≤ j ∧ j < i + ss.length then e.leafOf (ss.getD (j - i) 0) else e.nodeAt j := by
  induction ss generalizing e i with
  | nil => simp [Engine.createLeaves]
  | cons s ss ih =>
    simp only [List.length_cons] at h
    rw [Engine.createLeaves, ih _ _ (by omega)]
    have hn : ∀ e' : Engine, e'.node = tset e.node i (e.leafOf s) →
        e'.nodeAt j = if j = i then e.leafOf s else e.nodeAt j := by
      intro e' he
      have : i < 511 := by omega
      rw [Engine.nodeAt, he, tget_tset]
      simp [this, Engine.nodeAt]
    rw [hn _ rfl]
    simp only [List.length_cons]
    by_cases h1 : j = i
    · subst h1; simp
    · by_cases h2 : i + 1 ≤ j ∧ j < i + 1 + ss.length
      · rw [if_pos h2, if_pos (by omega)]
        have : j - i = (j - (i + 1)) + 1 := by omega
        rw [this]; rfl
      · rw [if_neg h2, if_neg h1, if_neg (by omega)]

theorem Engine.createLeaves_ownAt (e : Engine) (ss : List Nat) (i j : Nat) (h : i + ss.length ≤ 511) :
    (e.createLeaves ss i).ownAt j = if i ≤ j ∧ j < i + ss.length then .queued else e.ownAt j := by
  induction ss generalizing e i with
  | nil => simp [Engine.createLeaves]
  | cons s ss ih =>
    simp only [List.length_cons] at h
    rw [Engine.createLeaves, ih _ _ (by omega)]
    have hn : ∀ e' : Engine, e'.own = tset e.own i .queued →
        e'.ownAt j = if j = i then .queued else e.ownAt j := by
      intro e' he
      have : i < 511 := by omega
      rw [Engine.ownAt, he, tget_tset]
      simp [this, Engine.ownAt]
    rw [hn _ rfl]
    simp only [List.length_cons]
    by_cases h1 : j = i
    · subst h1; simp
    · by_cases h2 : i + 1 ≤ j ∧ j < i + 1 + ss.length
      · rw [if_pos h2, if_pos (by omega)]
      · rw [if_neg h2, if_neg h1, if_neg (by omega)]

theorem Engine.createLeaves_heap (e : Engine) (ss : List Nat) (i j : Nat) (h : i + ss.length ≤ 256) :
    hget (e.createLeaves ss i).heap j =
      if i ≤ j ∧ j < i + ss.length then BitVec.ofNat 9 j else hget e.heap j := by
  induction ss generalizing e i with
  | nil => simp [Engine.createLeaves]
  | cons s ss ih =>
    simp only [List.length_cons] at h
    rw [Engine.createLeaves, ih _ _ (by omega)]
    have hn : hget (tset e.heap i (BitVec.ofNat 9 i)) j = if j = i then BitVec.ofNat 9 i else hget e.heap j := by
      have : i < 256 := by omega
      rw [hget, tget_tset]; simp [this, hget]
    simp only [List.length_cons]
    rw [hn]
    by_cases h1 : j = i
    · subst h1; simp
    · by_cases h2 : i + 1 ≤ j ∧ j < i + 1 + ss.length
      · rw [if_pos h2, if_pos (by omega)]
      · rw [if_neg h2, if_neg h1, if_neg (by omega)]

theorem Engine.presentSyms_length (e : Engine) : e.presentSyms.length ≤ 256 := by
  have := List.length_filter_le (fun s => decide (e.freqAt s ≠ 0#32)) (List.range 256)
  simpa [Engine.presentSyms] using this

theorem Engine.presentSyms_sorted (e : Engine) : e.presentSyms.Pairwise (· < ·) :=
  List.Pairwise.filter _ List.pairwise_lt_range

theorem Engine.mem_presentSyms (e : Engine) (s : Nat) : s ∈ e.presentSyms ↔ s < 256 ∧ e.freqAt s ≠ 0#32 := by
  simp [Engine.presentSyms]

/-! ## The state HEAP_BUILD leaves -/

@[simp] theorem Engine.heapBuilt_freq (e : Engine) : e.heapBuilt.freq = e.freq := (e.createLeaves_rest _ 0).1
@[simp] theorem Engine.heapBuilt_ct (e : Engine) : e.heapBuilt.ct = e.ct := (e.createLeaves_rest _ 0).2.1
@[simp] theorem Engine.heapBuilt_inMem (e : Engine) : e.heapBuilt.inMem = e.inMem := (e.createLeaves_rest _ 0).2.2.1
@[simp] theorem Engine.heapBuilt_outMem (e : Engine) : e.heapBuilt.outMem = e.outMem :=
  (e.createLeaves_rest _ 0).2.2.2.1
@[simp] theorem Engine.heapBuilt_outBits (e : Engine) : e.heapBuilt.outBits = e.outBits :=
  (e.createLeaves_rest _ 0).2.2.2.2
@[simp] theorem Engine.heapBuilt_rootValid (e : Engine) : e.heapBuilt.rootValid = false := rfl
@[simp] theorem Engine.heapBuilt_rootIdx (e : Engine) : e.heapBuilt.rootIdx = 0#9 := rfl

theorem Engine.heapBuilt_counts (e : Engine) :
    e.heapBuilt.nodeCount.toNat = e.presentSyms.length ∧ e.heapBuilt.leafCount.toNat = e.presentSyms.length ∧
      e.heapBuilt.heapSize.toNat = e.presentSyms.length := by
  have := e.presentSyms_length
  refine ⟨?_, ?_, ?_⟩
  · show (BitVec.ofNat 10 _).toNat = _
    rw [BitVec.toNat_ofNat]; omega
  · show (BitVec.ofNat 9 _).toNat = _
    rw [BitVec.toNat_ofNat]; omega
  · show (BitVec.ofNat 9 _).toNat = _
    rw [BitVec.toNat_ofNat]; omega

/-- The leaves HEAP_BUILD creates: entry `i` is the leaf of the `i`-th present symbol. -/
theorem Engine.heapBuilt_nodeAt (e : Engine) (i : Nat) (h : i < e.presentSyms.length) :
    e.heapBuilt.nodeAt i = e.leafOf (e.presentSyms.getD i 0) := by
  have hl := e.presentSyms_length
  have := e.createLeaves_nodeAt e.presentSyms 0 i (by omega)
  rw [if_pos (by omega)] at this
  simpa [Engine.heapBuilt, Engine.nodeAt] using this

theorem Engine.heapBuilt_ownAt (e : Engine) (i : Nat) (h : i < e.presentSyms.length) :
    e.heapBuilt.ownAt i = .queued := by
  have hl := e.presentSyms_length
  have := e.createLeaves_ownAt e.presentSyms 0 i (by omega)
  rw [if_pos (by omega)] at this
  simpa [Engine.heapBuilt, Engine.ownAt] using this

/-- The queue HEAP_BUILD leaves holds every leaf. -/
theorem Engine.heapBuilt_queue (e : Engine) :
    e.heapBuilt.queue.Perm ((List.range e.presentSyms.length).map fun i => BitVec.ofNat 9 i) := by
  have hl := e.presentSyms_length
  rw [Engine.queue_eq, e.heapBuilt_counts.2.2]
  refine (heapify_perm (Engine.less_strictOrder _) hl _ _ (by omega)).trans (List.Perm.of_eq ?_)
  refine List.map_congr_left fun i hi => ?_
  have hi := List.mem_range.1 hi
  have := e.createLeaves_heap e.presentSyms 0 i (by omega)
  rwa [if_pos (by omega)] at this

/-- The queue HEAP_BUILD leaves has the heap property. -/
theorem Engine.heapBuilt_ordered (e : Engine) :
    HeapOrdered e.heapBuilt.less e.heapBuilt.heap e.heapBuilt.heapSize.toNat := by
  have hl := e.presentSyms_length
  refine HeapFrom.ordered (Engine.less_strictOrder _) ?_ ?_
  · rw [e.heapBuilt_counts.2.2]
    rw [Engine.less_of_node (show e.heapBuilt.node = (e.createLeaves e.presentSyms 0).node from rfl)]
    refine heapify_heap (Engine.less_strictOrder _) hl _ _ (by omega) ?_
    intro j hj0 hjn hle; omega
  · rw [← Engine.queue_eq, e.heapBuilt_queue.nodup_iff]
    refine List.Nodup.map_on ?_ List.nodup_range
    intro x hx y hy hxy
    have hx := List.mem_range.1 hx
    have hy := List.mem_range.1 hy
    have := congrArg BitVec.toNat hxy
    rw [BitVec.toNat_ofNat, BitVec.toNat_ofNat] at this
    omega

end Sys2Proof.Machine
end

