-- ==== Sys2Proof/Laws/Struct.lean ====
section
/-! SUPPORT. The structural invariants of 10_state.md R44 in three independent parts (arena, queue, root), from which all nine items follow, and how the shared operations keep the parts. -/

namespace Sys2Proof.Machine

/-! ## The parts -/

/-- The arena part of R44: items 1b, 2, 3, 4, 7 and 8. It reads OWN only through `= CHILD`. -/
structure ArenaInv (e : Engine) : Prop where
  leafBound : e.leafCount.toNat ≤ 256
  leafLe : e.leafCount.toNat ≤ e.nodeCount.toNat
  tagLeaf : ∀ i, i < e.leafCount.toNat → (e.nodeAt i).tag = false
  symAsc : ∀ i j, i < j → j < e.leafCount.toNat → (e.nodeAt i).sym.toNat < (e.nodeAt j).sym.toNat
  tagInternal : ∀ i, e.leafCount.toNat ≤ i → i < e.nodeCount.toNat → (e.nodeAt i).tag = true
  internal : ∀ i, e.leafCount.toNat ≤ i → i < e.nodeCount.toNat →
    (e.nodeAt i).left.toNat < i ∧ (e.nodeAt i).right.toNat < i ∧ (e.nodeAt i).left ≠ (e.nodeAt i).right ∧
      e.ownAt (e.nodeAt i).left.toNat = .child ∧ e.ownAt (e.nodeAt i).right.toNat = .child ∧
      e.weightAt i = e.weightAt (e.nodeAt i).left.toNat + e.weightAt (e.nodeAt i).right.toNat
  parent : ∀ j, j < e.nodeCount.toNat → e.ownAt j = .child →
    ∃ i, (e.leafCount.toNat ≤ i ∧ i < e.nodeCount.toNat ∧ e.childOf j i) ∧
      ∀ i', e.leafCount.toNat ≤ i' → i' < e.nodeCount.toNat → e.childOf j i' → i' = i
  noParent : ∀ j, j < e.nodeCount.toNat → e.ownAt j ≠ .child →
    ∀ i, e.leafCount.toNat ≤ i → i < e.nodeCount.toNat → ¬ e.childOf j i
  topCount : ((List.range e.nodeCount.toNat).filter e.topLevel).length + e.nodeCount.toNat = 2 * e.leafCount.toNat
  weightTop : e.weightSum e.nodeCount.toNat e.topLevel = e.weightSum e.leafCount.toNat fun _ => true
  weightBound : e.weightSum e.leafCount.toNat (fun _ => true) ≤ 0xFFFFFFFF

/-- The queue part of R44: item 5, less the count, which follows. -/
structure QueueInv (e : Engine) : Prop where
  nodup : e.queue.Nodup
  mem : ∀ n : NodeIdx, n ∈ e.queue ↔ n.toNat < e.nodeCount.toNat ∧ e.ownAt n.toNat = .queued
  ordered : HeapOrdered e.less e.heap e.heapSize.toNat

/-- The root part of R44: item 6. -/
structure RootInv (e : Engine) : Prop where
  rooted : ∀ i, i < e.nodeCount.toNat → e.ownAt i = .rooted → e.rootValid = true ∧ e.rootIdx.toNat = i
  valid : e.rootValid = true → e.rootIdx.toNat < e.nodeCount.toNat ∧ e.ownAt e.rootIdx.toNat = .rooted
  invalid : e.rootValid = false → e.rootIdx = 0#9

/-! ## Counting -/

theorem filter_length_eq_sum (n : Nat) (p : Nat → Bool) :
    ((List.range n).filter p).length = ∑ i ∈ Finset.range n, if p i then 1 else 0 := by
  induction n with
  | zero => rfl
  | succ n ih =>
    rw [List.range_succ, List.filter_append, List.length_append, Finset.sum_range_succ, ih]
    cases h : p n <;> simp [h]

theorem Engine.weightSum_eq (e : Engine) (n : Nat) (p : Nat → Bool) :
    e.weightSum n p = ∑ i ∈ Finset.range n, if p i then e.weightAt i else 0 := by
  unfold Engine.weightSum
  induction n with
  | zero => rfl
  | succ n ih =>
    rw [List.range_succ, List.filter_append, List.map_append, List.sum_append, Finset.sum_range_succ, ih]
    cases h : p n <;> simp [h]

/-- Changing one term of a sum. -/
theorem sum_range_change {n a : Nat} (ha : a < n) {f g : Nat → Nat} (h : ∀ i, i ≠ a → f i = g i) :
    (∑ i ∈ Finset.range n, f i) + g a = (∑ i ∈ Finset.range n, g i) + f a := by
  have hm := Finset.mem_range.2 ha
  have he : ∑ i ∈ (Finset.range n).erase a, f i = ∑ i ∈ (Finset.range n).erase a, g i :=
    Finset.sum_congr rfl fun i hi => h i (Finset.ne_of_mem_erase hi)
  have hf := Finset.add_sum_erase _ f hm
  have hg := Finset.add_sum_erase _ g hm
  omega

theorem filter_length_change {n a : Nat} (ha : a < n) {p q : Nat → Bool} (h : ∀ i, i ≠ a → p i = q i) :
    ((List.range n).filter p).length + (if q a then 1 else 0) =
      ((List.range n).filter q).length + (if p a then 1 else 0) := by
  rw [filter_length_eq_sum, filter_length_eq_sum]
  exact sum_range_change (f := fun i => if p i then 1 else 0) (g := fun i => if q i then 1 else 0) ha
    fun i hi => by simp only [h i hi]

theorem filter_length_mono {n : Nat} {p q : Nat → Bool} (h : ∀ i, i < n → p i = true → q i = true) :
    ((List.range n).filter p).length ≤ ((List.range n).filter q).length := by
  rw [filter_length_eq_sum, filter_length_eq_sum]
  refine Finset.sum_le_sum fun i hi => ?_
  have := h i (Finset.mem_range.1 hi)
  cases hp : p i
  · simp
  · simp [this hp]

theorem filter_length_succ (n : Nat) (p : Nat → Bool) :
    ((List.range (n + 1)).filter p).length = ((List.range n).filter p).length + if p n then 1 else 0 := by
  rw [filter_length_eq_sum, filter_length_eq_sum, Finset.sum_range_succ]

theorem filter_length_pos {n a : Nat} {p : Nat → Bool} (ha : a < n) (hp : p a = true) :
    0 < ((List.range n).filter p).length :=
  List.length_pos_of_mem (List.mem_filter.2 ⟨List.mem_range.2 ha, hp⟩)

theorem filter_length_two {n a b : Nat} {p : Nat → Bool} (ha : a < n) (hb : b < n) (hne : a ≠ b) (hpa : p a = true)
    (hpb : p b = true) : 2 ≤ ((List.range n).filter p).length := by
  have hsub : ([a, b] : List Nat).Subperm ((List.range n).filter p) := by
    refine List.subperm_of_subset (by simp [hne]) fun x hx => ?_
    simp only [List.mem_cons, List.not_mem_nil, or_false] at hx
    rcases hx with rfl | rfl
    · exact List.mem_filter.2 ⟨List.mem_range.2 ha, hpa⟩
    · exact List.mem_filter.2 ⟨List.mem_range.2 hb, hpb⟩
  exact hsub.length_le

/-! ## Consequences of the parts -/

theorem ArenaInv.nodeBound {e : Engine} (a : ArenaInv e) : e.nodeCount.toNat ≤ 511 := by
  have h1 := a.topCount
  have h2 := a.leafBound
  by_cases h0 : e.nodeCount.toNat = 0
  · omega
  · by_cases hl : e.leafCount.toNat = 0
    · omega
    · by_cases ht : ((List.range e.nodeCount.toNat).filter e.topLevel).length = 0
      · have hlast := a.parent (e.nodeCount.toNat - 1) (by omega)
        have hc : e.ownAt (e.nodeCount.toNat - 1) = .child := by
          by_contra hne
          have := filter_length_pos (p := e.topLevel) (n := e.nodeCount.toNat) (a := e.nodeCount.toNat - 1) (by omega)
            (by simpa [Engine.topLevel] using hne)
          omega
        obtain ⟨i, ⟨h1i, h2i, h3i⟩, _⟩ := hlast hc
        have := a.internal i h1i h2i
        rcases h3i with h | h <;> omega
      · omega

/-- A nonempty arena has a top-level node, so NODE_COUNT is at most 2 LEAF_COUNT - 1 (R44, item 1). -/
theorem ArenaInv.nodeLe {e : Engine} (a : ArenaInv e) (h : 1 ≤ e.leafCount.toNat) :
    e.nodeCount.toNat ≤ 2 * e.leafCount.toNat - 1 := by
  have h1 := a.topCount
  have hle := a.leafLe
  by_contra hgt
  have ht : ((List.range e.nodeCount.toNat).filter e.topLevel).length = 0 := by omega
  have hc : e.ownAt (e.nodeCount.toNat - 1) = .child := by
    by_contra hne
    have := filter_length_pos (p := e.topLevel) (n := e.nodeCount.toNat) (a := e.nodeCount.toNat - 1) (by omega)
      (by simpa [Engine.topLevel] using hne)
    omega
  obtain ⟨i, ⟨h1i, h2i, h3i⟩, _⟩ := a.parent (e.nodeCount.toNat - 1) (by omega) hc
  have := a.internal i h1i h2i
  rcases h3i with h | h <;> omega

/-- The queue holds one entry per QUEUED node (R44, item 5). -/
theorem QueueInv.count {e : Engine} (q : QueueInv e) (hN : e.nodeCount.toNat ≤ 511) :
    e.heapSize.toNat =
      ((List.range e.nodeCount.toNat).filter fun i => decide (e.ownAt i = .queued)).length := by
  have hlen : e.queue.length = e.heapSize.toNat := by simp [Engine.queue]
  rw [← hlen, ← List.length_map (f := fun n : NodeIdx => n.toNat)]
  refine List.Perm.length_eq ((List.perm_ext_iff_of_nodup ?_ ?_).2 fun i => ?_)
  · exact q.nodup.map fun x y h => BitVec.eq_of_toNat_eq h
  · exact List.Nodup.filter _ List.nodup_range
  · simp only [List.mem_map, List.mem_filter, List.mem_range, decide_eq_true_eq]
    constructor
    · rintro ⟨n, hn, rfl⟩; exact (q.mem n).1 hn
    · rintro ⟨hi, hq⟩
      have h9 : (BitVec.ofNat 9 i).toNat = i := by rw [BitVec.toNat_ofNat]; omega
      exact ⟨BitVec.ofNat 9 i, (q.mem _).2 (by rw [h9]; exact ⟨hi, hq⟩), h9⟩

theorem heapSize_le_top {e : Engine} (a : ArenaInv e) (q : QueueInv e) :
    e.heapSize.toNat ≤ ((List.range e.nodeCount.toNat).filter e.topLevel).length := by
  rw [q.count a.nodeBound]
  refine filter_length_mono fun i _ hi => ?_
  have : e.ownAt i = .queued := by simpa using hi
  simp [Engine.topLevel, this]

/-- HEAP_SIZE is at most 2 LEAF_COUNT - NODE_COUNT (42_tree_builder.md R157). -/
theorem heapSize_le {e : Engine} (a : ArenaInv e) (q : QueueInv e) :
    e.heapSize.toNat + e.nodeCount.toNat ≤ 2 * e.leafCount.toNat := by
  have := heapSize_le_top a q
  have := a.topCount
  omega

theorem heapSize_le_256 {e : Engine} (a : ArenaInv e) (q : QueueInv e) : e.heapSize.toNat ≤ 256 := by
  have := heapSize_le a q
  have := a.leafLe
  have := a.leafBound
  omega

/-- The weights of two distinct top-level nodes sum to at most 2^32 - 1 (42_tree_builder.md R157). -/
theorem ArenaInv.pair_weight {e : Engine} (a : ArenaInv e) {x y : Nat} (hx : x < e.nodeCount.toNat)
    (hy : y < e.nodeCount.toNat) (hne : x ≠ y) (htx : e.topLevel x = true) (hty : e.topLevel y = true) :
    e.weightAt x + e.weightAt y ≤ 0xFFFFFFFF := by
  have h1 := a.weightTop
  have h2 := a.weightBound
  rw [← h1, Engine.weightSum_eq] at h2
  have hmx := Finset.mem_range.2 hx
  have hmy : y ∈ (Finset.range e.nodeCount.toNat).erase x :=
    Finset.mem_erase.2 ⟨hne.symm, Finset.mem_range.2 hy⟩
  rw [← Finset.add_sum_erase _ _ hmx, ← Finset.add_sum_erase _ _ hmy] at h2
  simp only [htx, hty, if_true] at h2
  omega

/-! ## Item 9: the forest -/

theorem ArenaInv.tag_iff {e : Engine} (a : ArenaInv e) {i : Nat} (hi : i < e.nodeCount.toNat) :
    (e.nodeAt i).tag = true ↔ e.leafCount.toNat ≤ i := by
  constructor
  · intro h
    by_contra hlt
    rw [a.tagLeaf i (by omega)] at h; cases h
  · exact fun h => a.tagInternal i h hi

theorem ArenaInv.under_lt {e : Engine} (a : ArenaInv e) {r i : Nat} (hr : r < e.nodeCount.toNat)
    (h : e.Under r i) : i < e.nodeCount.toNat ∧ i ≤ r := by
  induction h with
  | self => exact ⟨hr, le_rfl⟩
  | left _ ht ih =>
    have := a.internal _ ((a.tag_iff ih.1).1 ht) ih.1
    omega
  | right _ ht ih =>
    have := a.internal _ ((a.tag_iff ih.1).1 ht) ih.1
    omega

/-- A node under `r` other than `r` is a child of a node under `r`. -/
theorem Engine.Under.parent {e : Engine} {r i : Nat} (h : e.Under r i) (hne : i ≠ r) :
    ∃ p, e.Under r p ∧ (e.nodeAt p).tag = true ∧ e.childOf i p := by
  cases h with
  | self => exact absurd rfl hne
  | left hp ht => exact ⟨_, hp, ht, .inl rfl⟩
  | right hp ht => exact ⟨_, hp, ht, .inr rfl⟩

theorem Engine.Under.child {e : Engine} {r p i : Nat} (h : e.Under r p) (ht : (e.nodeAt p).tag = true)
    (hc : e.childOf i p) : e.Under r i := by
  rcases hc with rfl | rfl
  · exact h.left ht
  · exact h.right ht

theorem ArenaInv.forest {e : Engine} (a : ArenaInv e) (i : Nat) (hi : i < e.nodeCount.toNat) :
    ∃ r, (r < e.nodeCount.toNat ∧ e.topLevel r = true ∧ e.Under r i) ∧
      ∀ r', r' < e.nodeCount.toNat → e.topLevel r' = true → e.Under r' i → r' = r := by
  obtain ⟨d, hd⟩ : ∃ d, d = e.nodeCount.toNat - i := ⟨_, rfl⟩
  induction d using Nat.strong_induction_on generalizing i with
  | _ d ih =>
    by_cases htop : e.topLevel i = true
    · refine ⟨i, ⟨hi, htop, .self⟩, fun r' hr' _ hu => ?_⟩
      by_contra hne
      obtain ⟨p, hp, ht, hc⟩ := hu.parent (Ne.symm hne)
      have hpl := (a.under_lt hr' hp).1
      exact a.noParent i hi (by simpa [Engine.topLevel] using htop) p ((a.tag_iff hpl).1 ht) hpl hc
    · have hown : e.ownAt i = .child := by simpa [Engine.topLevel] using htop
      obtain ⟨p, ⟨hp1, hp2, hp3⟩, huniq⟩ := a.parent i hi hown
      have hlt : i < p := by
        have := a.internal p hp1 hp2
        rcases hp3 with h | h <;> omega
      obtain ⟨r, ⟨hr, hrt, hru⟩, hrq⟩ := ih (e.nodeCount.toNat - p) (by omega) p hp2 rfl
      refine ⟨r, ⟨hr, hrt, hru.child (a.tagInternal p hp1 hp2) hp3⟩, fun r' hr' hrt' hu => ?_⟩
      have hne : i ≠ r' := fun h => htop (h ▸ hrt')
      obtain ⟨p', hp', ht', hc'⟩ := hu.parent hne
      have hpl := (a.under_lt hr' hp').1
      have := huniq p' ((a.tag_iff hpl).1 ht') hpl hc'
      subst this
      exact hrq r' hr' hrt' hp'

theorem HTree.leaves_pos (t : HTree) : 1 ≤ t.leaves := by
  induction t with
  | leaf i => exact le_rfl
  | node i l r ihl ihr => simp only [HTree.leaves]; omega

/-- A full binary tree with j leaves has depth at most j - 1 (00_scope.md R9). -/
theorem HTree.depth_le (t : HTree) : t.depth ≤ t.leaves - 1 := by
  induction t with
  | leaf i => exact le_rfl
  | node i l r ihl ihr =>
    have := l.leaves_pos
    have := r.leaves_pos
    simp only [HTree.leaves, HTree.depth]; omega

/-- Every allocated node is the root of a tree in the arena. -/
theorem ArenaInv.holds {e : Engine} (a : ArenaInv e) (i : Nat) (hi : i < e.nodeCount.toNat) :
    ∃ t : HTree, t.idx = i ∧ e.Holds t := by
  induction i using Nat.strong_induction_on with
  | _ i ih =>
    by_cases hk : e.leafCount.toNat ≤ i
    · obtain ⟨h1, h2, _⟩ := a.internal i hk hi
      obtain ⟨l, hli, hl⟩ := ih _ h1 (by omega)
      obtain ⟨r, hri, hr⟩ := ih _ h2 (by omega)
      exact ⟨.node i l r, rfl, hi, a.tagInternal i hk hi, hli.symm, hri.symm, hl, hr⟩
    · exact ⟨.leaf i, rfl, hi, a.tagLeaf i (by omega)⟩

/-- The parts together are R44. -/
theorem StructInv.ofParts {e : Engine} (a : ArenaInv e) (q : QueueInv e) (r : RootInv e) : StructInv e where
  leafBound := a.leafBound
  item1a h0 := by
    have h1 := a.topCount
    have h2 := heapSize_le a q
    have hN : e.nodeCount.toNat = 0 := by omega
    refine ⟨hN, by omega, ?_⟩
    cases hv : e.rootValid
    · rfl
    · have := (r.valid hv).1; omega
  item1b h := ⟨a.leafLe, a.nodeLe h⟩
  item2a := a.tagLeaf
  item2b := a.symAsc
  item2c := a.tagInternal
  item3 := a.internal
  item4a := a.parent
  item4b := a.noParent
  item5a := q.count a.nodeBound
  item5b := q.nodup
  item5c := q.mem
  item5d := q.ordered
  item6a := r.rooted
  item6b := r.valid
  item6c := r.invalid
  item7 := a.topCount
  item8a := a.weightTop
  item8b := a.weightBound
  item9a := a.forest
  item9b i hi _ := by
    obtain ⟨t, ht, hh⟩ := a.holds i hi
    exact ⟨t, ht, hh, t.depth_le⟩

theorem StructInv.arena {e : Engine} (s : StructInv e) : ArenaInv e where
  leafBound := s.leafBound
  leafLe := by
    by_cases h : e.leafCount.toNat = 0
    · omega
    · exact (s.item1b (by omega)).1
  tagLeaf := s.item2a
  symAsc := s.item2b
  tagInternal := s.item2c
  internal := s.item3
  parent := s.item4a
  noParent := s.item4b
  topCount := s.item7
  weightTop := s.item8a
  weightBound := s.item8b

theorem StructInv.queueInv {e : Engine} (s : StructInv e) : QueueInv e := ⟨s.item5b, s.item5c, s.item5d⟩

theorem StructInv.root {e : Engine} (s : StructInv e) : RootInv e := ⟨s.item6a, s.item6b, s.item6c⟩

/-! ## Keeping the parts -/

/-- The arena part reads only the allocated nodes, the counts, and which nodes are CHILD. -/
theorem ArenaInv.congr {e e' : Engine} (a : ArenaInv e) (hk : e'.leafCount.toNat = e.leafCount.toNat)
    (hN : e'.nodeCount.toNat = e.nodeCount.toNat) (hn : ∀ i, i < e.nodeCount.toNat → e'.nodeAt i = e.nodeAt i)
    (ho : ∀ i, i < e.nodeCount.toNat → (e'.ownAt i = .child ↔ e.ownAt i = .child)) : ArenaInv e' := by
  have htop : ∀ i, i < e.nodeCount.toNat → e'.topLevel i = e.topLevel i := fun i hi => by
    simp [Engine.topLevel, ho i hi]
  have hw : ∀ i, i < e.nodeCount.toNat → e'.weightAt i = e.weightAt i := fun i hi => by
    simp [Engine.weightAt, hn i hi]
  have hle := a.leafLe
  have hsum : ∀ m p p', m ≤ e.nodeCount.toNat → (∀ i, i < m → p' i = p i) →
      e'.weightSum m p' = e.weightSum m p := by
    intro m p p' hm hp
    rw [Engine.weightSum_eq, Engine.weightSum_eq]
    refine Finset.sum_congr rfl fun i hi => ?_
    have hi := Finset.mem_range.1 hi
    rw [hp i hi, hw i (by omega)]
  constructor
  · rw [hk]; exact a.leafBound
  · rw [hk, hN]; exact hle
  · intro i hi; rw [hk] at hi; rw [hn i (by omega)]; exact a.tagLeaf i hi
  · intro i j hij hj; rw [hk] at hj; rw [hn i (by omega), hn j (by omega)]; exact a.symAsc i j hij hj
  · intro i h1 h2; rw [hk] at h1; rw [hN] at h2; rw [hn i h2]; exact a.tagInternal i h1 h2
  · intro i h1 h2
    rw [hk] at h1; rw [hN] at h2
    obtain ⟨p1, p2, p3, p4, p5, p6⟩ := a.internal i h1 h2
    rw [hn i h2, hw i h2, hw _ (by omega), hw _ (by omega), ho _ (by omega), ho _ (by omega)]
    exact ⟨p1, p2, p3, p4, p5, p6⟩
  · intro j hj hc
    rw [hN] at hj; rw [ho j hj] at hc
    obtain ⟨i, ⟨h1, h2, h3⟩, hu⟩ := a.parent j hj hc
    rw [hk, hN]
    refine ⟨i, ⟨h1, h2, by rw [Engine.childOf, hn i h2]; exact h3⟩, fun i' h1' h2' h3' => hu i' h1' h2' ?_⟩
    rw [Engine.childOf, hn i' h2'] at h3'; exact h3'
  · intro j hj hc i h1 h2 h3
    rw [hN] at hj h2; rw [hk] at h1
    rw [Engine.childOf, hn i h2] at h3
    exact a.noParent j hj (fun h => hc ((ho j hj).2 h)) i h1 h2 h3
  · rw [hk, hN, ← a.topCount]
    congr 2
    refine List.filter_congr fun i hi => htop i (List.mem_range.1 hi)
  · rw [hk, hN, hsum _ e.topLevel _ le_rfl htop, hsum _ (fun _ => true) _ hle fun _ _ => rfl]
    exact a.weightTop
  · rw [hk, hsum _ (fun _ => true) _ hle fun _ _ => rfl]; exact a.weightBound

/-- The queue part reads the allocated nodes, NODE_COUNT, the heap and which nodes are QUEUED. -/
theorem QueueInv.congr {e e' : Engine} (q : QueueInv e) (hs : e'.heapSize = e.heapSize) (hh : e'.heap = e.heap)
    (hN : e.nodeCount.toNat ≤ e'.nodeCount.toNat) (hn : ∀ i, i < e.nodeCount.toNat → e'.nodeAt i = e.nodeAt i)
    (ho : ∀ i, i < e.nodeCount.toNat → (e'.ownAt i = .queued ↔ e.ownAt i = .queued))
    (hnew : ∀ i, e.nodeCount.toNat ≤ i → i < e'.nodeCount.toNat → e'.ownAt i ≠ .queued) : QueueInv e' := by
  have hq : e'.queue = e.queue := by rw [Engine.queue_eq, Engine.queue_eq, hs, hh]
  refine ⟨hq ▸ q.nodup, fun n => ?_, ?_⟩
  · rw [hq, q.mem n]
    constructor
    · rintro ⟨h1, h2⟩; exact ⟨by omega, (ho _ h1).2 h2⟩
    · rintro ⟨h1, h2⟩
      by_cases hlt : n.toNat < e.nodeCount.toNat
      · exact ⟨hlt, (ho _ hlt).1 h2⟩
      · exact absurd h2 (hnew _ (by omega) h1)
  · rw [hs, hh]
    refine q.ordered.congr fun x hx y hy => ?_
    rw [← Engine.queue_eq] at hx hy
    exact Engine.less_congr (hn _ ((q.mem x).1 hx).1) (hn _ ((q.mem y).1 hy).1)

/-! ### heap_insert -/

theorem heapInsert_keeps {e : Engine} {n : NodeIdx} (a : ArenaInv e) (q : QueueInv e) (r : RootInv e)
    (hn : n.toNat < e.nodeCount.toNat) (hl : e.ownAt n.toNat = .loose) (hs : e.heapSize.toNat < 256) :
    ArenaInv (e.heapInsert n) ∧ QueueInv (e.heapInsert n) ∧ RootInv (e.heapInsert n) := by
  have h511 : n.toNat < 511 := by have := a.nodeBound; omega
  have hown : ∀ i, (e.heapInsert n).ownAt i = if i = n.toNat then .queued else e.ownAt i := fun i => by
    rw [Engine.heapInsert_ownAt]; simp [h511]
  have hnot : n ∉ e.queue := fun h => by
    have := ((q.mem n).1 h).2; rw [hl] at this; cases this
  refine ⟨a.congr rfl rfl (fun _ _ => rfl) fun i _ => ?_, ⟨?_, fun m => ?_, ?_⟩, ⟨fun i hi hr => ?_, fun hv => ?_, r.invalid⟩⟩
  · rw [hown]; split
    · next h => subst h; rw [hl]; simp
    · rfl
  · exact (e.heapInsert_queue n hs).nodup_iff.2 (List.nodup_cons.2 ⟨hnot, q.nodup⟩)
  · rw [(e.heapInsert_queue n hs).mem_iff, List.mem_cons, q.mem, hown, Engine.heapInsert_nodeCount]
    by_cases hm : m = n
    · subst hm; simp [hn]
    · have : m.toNat ≠ n.toNat := fun h => hm (BitVec.eq_of_toNat_eq h)
      simp [hm, this]
  · exact e.heapInsert_ordered n hs q.ordered (List.nodup_cons.2 ⟨hnot, q.nodup⟩)
  · rw [hown] at hr
    split at hr
    · cases hr
    · exact r.rooted i hi hr
  · obtain ⟨h1, h2⟩ := r.valid hv
    refine ⟨h1, ?_⟩
    rw [hown, Engine.heapInsert_rootIdx, if_neg]
    · exact h2
    · intro h; rw [h, hl] at h2; cases h2

/-! ### heap_extract -/

/-- The first heap entry of a nonempty queue is an allocated QUEUED node. -/
theorem QueueInv.first {e : Engine} (q : QueueInv e) (h0 : 0 < e.heapSize.toNat) :
    (e.heapAt 0).toNat < e.nodeCount.toNat ∧ e.ownAt (e.heapAt 0).toNat = .queued :=
  (q.mem _).1 (by rw [Engine.queue_eq]; exact hget_mem h0)

theorem heapExtract_keeps {e : Engine} (a : ArenaInv e) (q : QueueInv e) (r : RootInv e)
    (h0 : 0 < e.heapSize.toNat) :
    ArenaInv e.heapExtract.2 ∧ QueueInv e.heapExtract.2 ∧ RootInv e.heapExtract.2 := by
  have h256 := heapSize_le_256 a q
  obtain ⟨ht, hq⟩ := q.first h0
  have h511 : (e.heapAt 0).toNat < 511 := by have := a.nodeBound; omega
  have hown : ∀ i, e.heapExtract.2.ownAt i = if i = (e.heapAt 0).toNat then .loose else e.ownAt i := fun i => by
    rw [Engine.heapExtract_ownAt]; simp [h511]
  have hperm := e.heapExtract_queue h0 h256
  have hnd := List.nodup_cons.1 (hperm.nodup_iff.1 q.nodup)
  refine ⟨a.congr rfl rfl (fun _ _ => rfl) fun i _ => ?_, ⟨hnd.2, fun m => ?_, ?_⟩, ⟨fun i hi hr => ?_, fun hv => ?_, r.invalid⟩⟩
  · rw [hown]; split
    · next h => subst h; rw [hq]; simp
    · rfl
  · have hm := q.mem m
    rw [hperm.mem_iff, List.mem_cons] at hm
    rw [hown, Engine.heapExtract_nodeCount]
    by_cases hmt : m = e.heapAt 0
    · subst hmt; simp [hnd.1]
    · have : m.toNat ≠ (e.heapAt 0).toNat := fun h => hmt (BitVec.eq_of_toNat_eq h)
      simpa [hmt, this] using hm
  · exact e.heapExtract_ordered h0 h256 q.ordered q.nodup
  · rw [hown] at hr
    split at hr
    · cases hr
    · exact r.rooted i hi hr
  · obtain ⟨h1, h2⟩ := r.valid hv
    refine ⟨h1, ?_⟩
    rw [hown, Engine.heapExtract_rootIdx, if_neg]
    · exact h2
    · intro h; rw [h, hq] at h2; cases h2

/-! ### merge_nodes -/

theorem Engine.mergedWeight_eq (e : Engine) (a b : NodeIdx) :
    e.mergedWeight a b = e.weightAt a.toNat + e.weightAt b.toNat := rfl

theorem Engine.mergeNodes_nodeCount (e : Engine) (a b : NodeIdx) (h : e.nodeCount.toNat < 511) :
    (e.mergeNodes a b).nodeCount.toNat = e.nodeCount.toNat + 1 := by
  show (BitVec.ofNat 10 (e.nodeCount.toNat + 1)).toNat = _
  rw [BitVec.toNat_ofNat]; omega

theorem Engine.mergeNodes_nodeAt (e : Engine) (a b : NodeIdx) (h : e.nodeCount.toNat < 511) (i : Nat) :
    (e.mergeNodes a b).nodeAt i =
      if i = e.nodeCount.toNat then ⟨true, 0#8, BitVec.ofNat 32 (e.mergedWeight a b), a, b⟩ else e.nodeAt i := by
  have := tget_tset e.node e.nodeCount.toNat i ⟨true, 0#8, BitVec.ofNat 32 (e.mergedWeight a b), a, b⟩ Node.blank
  simp only [h, and_true] at this
  exact this

theorem Engine.mergeNodes_ownAt (e : Engine) (a b : NodeIdx) (h : e.nodeCount.toNat < 511)
    (ha : a.toNat < e.nodeCount.toNat) (hb : b.toNat < e.nodeCount.toNat) (i : Nat) :
    (e.mergeNodes a b).ownAt i =
      if i = e.nodeCount.toNat then .loose else if i = a.toNat ∨ i = b.toNat then .child else e.ownAt i := by
  show tget (tset (tset (tset e.own a.toNat .child) b.toNat .child) e.nodeCount.toNat .loose) i .loose = _
  rw [tget_tset, tget_tset, tget_tset]
  have ha' : a.toNat < 511 := by omega
  have hb' : b.toNat < 511 := by omega
  simp only [h, ha', hb', and_true]
  by_cases h1 : i = e.nodeCount.toNat
  · simp [h1]
  · by_cases h2 : i = b.toNat
    · simp [h2]
    · by_cases h3 : i = a.toNat
      · simp [h3]
      · simp [h1, h2, h3, Engine.ownAt]

theorem Engine.nextIdx_toNat (e : Engine) (h : e.nodeCount.toNat ≤ 511) : e.nextIdx.toNat = e.nodeCount.toNat := by
  show (BitVec.ofNat 9 e.nodeCount.toNat).toNat = _
  rw [BitVec.toNat_ofNat]; omega

/-- merge_nodes of two distinct LOOSE nodes keeps every part, and the new node is allocated and LOOSE. -/
theorem mergeNodes_keeps {e : Engine} {a b : NodeIdx} (ar : ArenaInv e) (q : QueueInv e) (r : RootInv e)
    (ha : a.toNat < e.nodeCount.toNat) (hb : b.toNat < e.nodeCount.toNat) (hne : a ≠ b)
    (hla : e.ownAt a.toNat = .loose) (hlb : e.ownAt b.toNat = .loose) :
    e.nodeCount.toNat < 511 ∧ e.mergedWeight a b ≤ 0xFFFFFFFF ∧
      ArenaInv (e.mergeNodes a b) ∧ QueueInv (e.mergeNodes a b) ∧ RootInv (e.mergeNodes a b) := by
  have hneN : a.toNat ≠ b.toNat := fun h => hne (BitVec.eq_of_toNat_eq h)
  have hta : e.topLevel a.toNat = true := by simp [Engine.topLevel, hla]
  have htb : e.topLevel b.toNat = true := by simp [Engine.topLevel, hlb]
  have htwo := filter_length_two ha hb hneN hta htb
  have htc := ar.topCount
  have hlb256 := ar.leafBound
  have hle := ar.leafLe
  have h511 : e.nodeCount.toNat < 511 := by omega
  have hw : e.mergedWeight a b ≤ 0xFFFFFFFF := ar.pair_weight ha hb hneN hta htb
  have hN := e.mergeNodes_nodeCount a b h511
  have hnode := e.mergeNodes_nodeAt a b h511
  have hown := e.mergeNodes_ownAt a b h511 ha hb
  have hnodeLt : ∀ i, i < e.nodeCount.toNat → (e.mergeNodes a b).nodeAt i = e.nodeAt i := fun i hi => by
    rw [hnode, if_neg (by omega)]
  have hnodeN : (e.mergeNodes a b).nodeAt e.nodeCount.toNat =
      ⟨true, 0#8, BitVec.ofNat 32 (e.mergedWeight a b), a, b⟩ := by rw [hnode, if_pos rfl]
  have hK : (e.mergeNodes a b).leafCount = e.leafCount := rfl
  have hwLt : ∀ i, i < e.nodeCount.toNat → (e.mergeNodes a b).weightAt i = e.weightAt i := fun i hi => by
    simp [Engine.weightAt, hnodeLt i hi]
  have hwN : (e.mergeNodes a b).weightAt e.nodeCount.toNat = e.weightAt a.toNat + e.weightAt b.toNat := by
    rw [Engine.weightAt, hnodeN]
    show (BitVec.ofNat 32 (e.mergedWeight a b)).toNat = _
    rw [BitVec.toNat_ofNat, ← Engine.mergedWeight_eq]; omega
  have hchild : ∀ i, e.ownAt i = .child → i < e.nodeCount.toNat → (e.mergeNodes a b).ownAt i = .child := by
    intro i hi hlt
    rw [hown, if_neg (by omega)]; split
    · rfl
    · exact hi
  have hsumLt : ∀ p : Nat → Bool, ∀ m, m ≤ e.nodeCount.toNat →
      (e.mergeNodes a b).weightSum m p = e.weightSum m p := by
    intro p m hm
    rw [Engine.weightSum_eq, Engine.weightSum_eq]
    refine Finset.sum_congr rfl fun i hi => ?_
    rw [hwLt i (by have := Finset.mem_range.1 hi; omega)]
  have htopLt : ∀ i, i < e.nodeCount.toNat →
      (e.mergeNodes a b).topLevel i = (e.topLevel i && decide (i ≠ a.toNat) && decide (i ≠ b.toNat)) := by
    intro i hi
    simp only [Engine.topLevel]
    rw [hown, if_neg (by omega)]
    by_cases h1 : i = a.toNat
    · simp [h1]
    · by_cases h2 : i = b.toNat
      · simp [h2]
      · simp [h1, h2]
  have htopN : (e.mergeNodes a b).topLevel e.nodeCount.toNat = true := by simp [Engine.topLevel, hown]
  refine ⟨h511, hw, ⟨hlb256, ?_, ?_, ?_, ?_, ?_, ?_, ?_, ?_, ?_, ?_⟩, ?_, ?_⟩
  · rw [hK, hN]; omega
  · intro i hi; rw [hK] at hi; rw [hnodeLt i (by omega)]; exact ar.tagLeaf i hi
  · intro i j hij hj; rw [hK] at hj; rw [hnodeLt i (by omega), hnodeLt j (by omega)]; exact ar.symAsc i j hij hj
  · intro i h1 h2
    rw [hK] at h1; rw [hN] at h2
    by_cases hi : i = e.nodeCount.toNat
    · rw [hi, hnodeN]
    · rw [hnodeLt i (by omega)]; exact ar.tagInternal i h1 (by omega)
  · intro i h1 h2
    rw [hK] at h1; rw [hN] at h2
    by_cases hi : i = e.nodeCount.toNat
    · rw [hi, hnodeN, hwN]
      refine ⟨ha, hb, hne, ?_, ?_, ?_⟩
      · rw [hown, if_neg (by simp only; omega)]; simp
      · rw [hown, if_neg (by simp only; omega)]; simp
      · rw [hwLt _ ha, hwLt _ hb]
    · obtain ⟨p1, p2, p3, p4, p5, p6⟩ := ar.internal i h1 (by omega)
      rw [hnodeLt i (by omega), hwLt i (by omega), hwLt _ (by omega), hwLt _ (by omega)]
      exact ⟨p1, p2, p3, hchild _ p4 (by omega), hchild _ p5 (by omega), p6⟩
  · intro j hj hc
    rw [hN] at hj
    by_cases hjN : j = e.nodeCount.toNat
    · rw [hjN, hown, if_pos rfl] at hc; cases hc
    · rw [hown, if_neg hjN] at hc
      by_cases hjab : j = a.toNat ∨ j = b.toNat
      · rw [hK, hN]
        refine ⟨e.nodeCount.toNat, ⟨hle, by omega, ?_⟩, fun i' h1 h2 h3 => ?_⟩
        · rw [Engine.childOf, hnodeN]; rcases hjab with h | h
          · exact .inl h.symm
          · exact .inr h.symm
        · by_contra hne'
          rw [Engine.childOf, hnodeLt i' (by omega)] at h3
          rcases hjab with h | h
          · exact ar.noParent j (by omega) (by rw [h, hla]; simp) i' h1 (by omega) h3
          · exact ar.noParent j (by omega) (by rw [h, hlb]; simp) i' h1 (by omega) h3
      · rw [if_neg hjab] at hc
        obtain ⟨i, ⟨h1, h2, h3⟩, hu⟩ := ar.parent j (by omega) hc
        rw [hK, hN]
        refine ⟨i, ⟨h1, by omega, by rw [Engine.childOf, hnodeLt i h2]; exact h3⟩, fun i' h1' h2' h3' => ?_⟩
        by_cases hi' : i' = e.nodeCount.toNat
        · rw [hi', Engine.childOf, hnodeN] at h3'
          simp only at h3'; omega
        · rw [Engine.childOf, hnodeLt i' (by omega)] at h3'
          exact hu i' h1' (by omega) h3'
  · intro j hj hc i h1 h2 h3
    rw [hN] at hj h2; rw [hK] at h1
    rw [hown] at hc
    by_cases hi : i = e.nodeCount.toNat
    · rw [hi, Engine.childOf, hnodeN] at h3
      simp only at h3
      rw [if_neg (by omega), if_pos (by omega)] at hc
      exact hc rfl
    · have hc1 := ar.internal i h1 (by omega)
      rw [Engine.childOf, hnodeLt i (by omega)] at h3
      have hjN : j < e.nodeCount.toNat := by rcases h3 with h | h <;> omega
      rw [if_neg (by omega)] at hc
      split at hc
      · exact hc rfl
      · exact ar.noParent j hjN hc i h1 (by omega) h3
  · rw [hN, hK, filter_length_succ, htopN, if_pos rfl]
    have e1 := filter_length_change (n := e.nodeCount.toNat) (a := a.toNat) ha
      (p := fun i => e.topLevel i && decide (i ≠ a.toNat)) (q := e.topLevel) fun i hi => by simp [hi]
    have e2 := filter_length_change (n := e.nodeCount.toNat) (a := b.toNat) hb
      (p := fun i => e.topLevel i && decide (i ≠ a.toNat) && decide (i ≠ b.toNat))
      (q := fun i => e.topLevel i && decide (i ≠ a.toNat)) fun i hi => by simp [hi]
    have e3 : (List.range e.nodeCount.toNat).filter (e.mergeNodes a b).topLevel =
        (List.range e.nodeCount.toNat).filter fun i => e.topLevel i && decide (i ≠ a.toNat) && decide (i ≠ b.toNat) :=
      List.filter_congr fun i hi => htopLt i (List.mem_range.1 hi)
    rw [e3]
    simp [hta, htb, Ne.symm hneN] at e1 e2
    simp only [ne_eq, decide_not] at *
    omega
  · rw [hN, hK, hsumLt _ _ hle, ← ar.weightTop, Engine.weightSum_eq, Finset.sum_range_succ, htopN, if_pos rfl, hwN,
      Engine.weightSum_eq]
    have e1 := sum_range_change (n := e.nodeCount.toNat) (a := a.toNat) ha
      (f := fun i => if (e.topLevel i && decide (i ≠ a.toNat)) then e.weightAt i else 0)
      (g := fun i => if e.topLevel i then e.weightAt i else 0) fun i hi => by simp [hi]
    have e2 := sum_range_change (n := e.nodeCount.toNat) (a := b.toNat) hb
      (f := fun i => if (e.topLevel i && decide (i ≠ a.toNat) && decide (i ≠ b.toNat)) then e.weightAt i else 0)
      (g := fun i => if (e.topLevel i && decide (i ≠ a.toNat)) then e.weightAt i else 0) fun i hi => by simp [hi]
    have e3 : (∑ i ∈ Finset.range e.nodeCount.toNat,
          if (e.mergeNodes a b).topLevel i = true then (e.mergeNodes a b).weightAt i else 0) =
        ∑ i ∈ Finset.range e.nodeCount.toNat,
          if (e.topLevel i && decide (i ≠ a.toNat) && decide (i ≠ b.toNat)) then e.weightAt i else 0 := by
      refine Finset.sum_congr rfl fun i hi => ?_
      have hi := Finset.mem_range.1 hi
      rw [htopLt i hi, hwLt i hi]
    rw [e3]
    simp [hta, htb, Ne.symm hneN] at e1 e2
    simp only [ne_eq, decide_not, Bool.and_eq_true, Bool.not_eq_true', decide_eq_false_iff_not] at *
    omega
  · rw [hK, hsumLt _ _ hle]; exact ar.weightBound
  · refine q.congr rfl rfl (by omega) hnodeLt (fun i hi => ?_) (fun i h1 h2 => ?_)
    · rw [hown, if_neg (by omega)]
      split
      · next h => rcases h with h | h <;> subst h <;> simp [hla, hlb]
      · rfl
    · rw [hown, if_pos (by omega)]; simp
  · refine ⟨fun i hi hr => ?_, fun hv => ?_, r.invalid⟩
    · rw [hown] at hr
      split at hr
      · cases hr
      · split at hr
        · cases hr
        · exact r.rooted i (by omega) hr
    · obtain ⟨h1, h2⟩ := r.valid hv
      refine ⟨by rw [hN]; exact Nat.lt_succ_of_lt h1, ?_⟩
      show (e.mergeNodes a b).ownAt e.rootIdx.toNat = .rooted
      rw [hown, if_neg (by omega), if_neg]
      · exact h2
      · rintro (h | h)
        · rw [h, hla] at h2; cases h2
        · rw [h, hlb] at h2; cases h2

end Sys2Proof.Machine
end

