-- ==== Sys2Proof/Laws/Tree.lean ====
section
/-! SUPPORT. Laws of the tree builder: HEAP_BUILD establishes the structural invariants, MERGE_STEP's body and the root selection keep them, and BUILD_TREE's loop ends in one tree (42_tree_builder.md R150-R157). -/

namespace Sys2Proof.Machine

/-- The parts of R44 together. -/
structure Parts (e : Engine) : Prop where
  arena : ArenaInv e
  queue : QueueInv e
  root : RootInv e

theorem Parts.struct {e : Engine} (p : Parts e) : StructInv e := StructInv.ofParts p.arena p.queue p.root

theorem StructInv.parts {e : Engine} (s : StructInv e) : Parts e := ⟨s.arena, s.queueInv, s.root⟩

/-! ## HEAP_BUILD -/

theorem map_range_getD (l : List Nat) (f : Nat → Nat) :
    ((List.range l.length).map fun i => f (l.getD i 0)) = l.map f := by
  refine List.ext_getElem (by simp) fun i h1 h2 => ?_
  have : i < l.length := by simpa using h2
  rw [List.getElem_map, List.getElem_map, List.getElem_range, List.getD_eq_getElem _ _ this]

theorem Engine.presentSyms_getD (e : Engine) {i : Nat} (h : i < e.presentSyms.length) :
    e.presentSyms.getD i 0 < 256 := by
  have hm : e.presentSyms.getD i 0 ∈ e.presentSyms := by
    rw [List.getD_eq_getElem _ _ h]; exact List.getElem_mem h
  exact ((e.mem_presentSyms _).1 hm).1

/-- HEAP_BUILD establishes R44, whatever the state before, if the total weight fits in 32 bits. -/
theorem heapBuilt_parts (e : Engine) (hT : e.totalFreq ≤ 0xFFFFFFFF) : Parts e.heapBuilt := by
  obtain ⟨hN, hK, hS⟩ := e.heapBuilt_counts
  have hl := e.presentSyms_length
  have hnode := e.heapBuilt_nodeAt
  have hown := e.heapBuilt_ownAt
  have htop : ∀ i, i < e.presentSyms.length → e.heapBuilt.topLevel i = true := fun i hi => by
    simp [Engine.topLevel, hown i hi]
  have hsum : e.heapBuilt.weightSum e.presentSyms.length (fun _ => true) = e.totalFreq := by
    unfold Engine.weightSum Engine.totalFreq
    rw [← map_range_getD e.presentSyms fun s => (e.freqAt s).toNat]
    congr 1
    rw [List.filter_true]
    refine List.map_congr_left fun i hi => ?_
    rw [Engine.weightAt, hnode i (List.mem_range.1 hi)]; rfl
  refine ⟨⟨?_, ?_, ?_, ?_, ?_, ?_, ?_, ?_, ?_, ?_, ?_⟩, ⟨?_, ?_, e.heapBuilt_ordered⟩, ⟨?_, ?_, fun _ => rfl⟩⟩
  · rw [hK]; exact hl
  · rw [hK, hN]
  · intro i hi; rw [hK] at hi; rw [hnode i hi]; rfl
  · intro i j hij hj
    rw [hK] at hj
    have hi : i < e.presentSyms.length := by omega
    rw [hnode i hi, hnode j hj]
    have h1 := e.presentSyms_getD hi
    have h2 := e.presentSyms_getD hj
    have h3 : e.presentSyms.getD i 0 < e.presentSyms.getD j 0 := by
      rw [List.getD_eq_getElem _ _ hi, List.getD_eq_getElem _ _ hj]
      exact List.pairwise_iff_getElem.1 e.presentSyms_sorted i j hi hj hij
    show (BitVec.ofNat 8 _).toNat < (BitVec.ofNat 8 _).toNat
    rw [BitVec.toNat_ofNat, BitVec.toNat_ofNat]; omega
  · intro i h1 h2; omega
  · intro i h1 h2; omega
  · intro j hj hc; rw [hN] at hj; rw [hown j hj] at hc; cases hc
  · intro j _ _ i h1 h2; omega
  · rw [hN, hK, List.filter_eq_self.2 fun i hi => htop i (List.mem_range.1 hi), List.length_range]; omega
  · rw [hN, hK, Engine.weightSum, Engine.weightSum, List.filter_true,
      List.filter_eq_self.2 fun i hi => htop i (List.mem_range.1 hi)]
  · rw [hK, hsum]; exact hT
  · rw [e.heapBuilt_queue.nodup_iff]
    refine List.Nodup.map_on ?_ List.nodup_range
    intro x hx y hy hxy
    have hx := List.mem_range.1 hx
    have hy := List.mem_range.1 hy
    have := congrArg BitVec.toNat hxy
    rw [BitVec.toNat_ofNat, BitVec.toNat_ofNat] at this
    omega
  · intro n
    rw [e.heapBuilt_queue.mem_iff, hN]
    simp only [List.mem_map, List.mem_range]
    constructor
    · rintro ⟨i, hi, rfl⟩
      have : (BitVec.ofNat 9 i).toNat = i := by rw [BitVec.toNat_ofNat]; omega
      rw [this]; exact ⟨hi, hown i hi⟩
    · rintro ⟨h1, _⟩; exact ⟨n.toNat, h1, by simp⟩
  · intro i hi hr; rw [hN] at hi; rw [hown i hi] at hr; cases hr
  · intro hv; cases hv

/-- The total weight of the leaves HEAP_BUILD creates. -/
theorem heapBuilt_weight (e : Engine) :
    e.heapBuilt.weightSum e.heapBuilt.leafCount.toNat (fun _ => true) = e.totalFreq := by
  rw [e.heapBuilt_counts.2.1]
  unfold Engine.weightSum Engine.totalFreq
  rw [← map_range_getD e.presentSyms fun s => (e.freqAt s).toNat]
  congr 1
  rw [List.filter_true]
  refine List.map_congr_left fun i hi => ?_
  rw [Engine.weightAt, e.heapBuilt_nodeAt i (List.mem_range.1 hi)]; rfl

/-! ## The root -/

theorem Engine.releaseRoot_ownAt (e : Engine) (h : e.rootIdx.toNat < 511) (i : Nat) :
    e.releaseRoot.ownAt i = if e.rootValid = true ∧ i = e.rootIdx.toNat then .loose else e.ownAt i := by
  unfold Engine.releaseRoot
  cases hv : e.rootValid
  · simp
  · rw [if_pos rfl]
    have := tget_tset e.own e.rootIdx.toNat i Own.loose Own.loose
    simp only [h, and_true] at this
    simpa [Engine.setOwn, Engine.ownAt] using this

theorem Engine.releaseRoot_rest (e : Engine) :
    e.releaseRoot.node = e.node ∧ e.releaseRoot.nodeCount = e.nodeCount ∧ e.releaseRoot.leafCount = e.leafCount ∧
      e.releaseRoot.heap = e.heap ∧ e.releaseRoot.heapSize = e.heapSize ∧ e.releaseRoot.freq = e.freq ∧
      e.releaseRoot.ct = e.ct ∧ e.releaseRoot.inMem = e.inMem ∧ e.releaseRoot.outMem = e.outMem ∧
      e.releaseRoot.outBits = e.outBits := by
  unfold Engine.releaseRoot
  split <;> exact ⟨rfl, rfl, rfl, rfl, rfl, rfl, rfl, rfl, rfl, rfl⟩

/-- Releasing the root keeps the arena and the queue and leaves no node ROOTED. -/
theorem releaseRoot_keeps {e : Engine} (p : Parts e) :
    ArenaInv e.releaseRoot ∧ QueueInv e.releaseRoot ∧
      ∀ i, i < e.releaseRoot.nodeCount.toNat → e.releaseRoot.ownAt i ≠ .rooted := by
  obtain ⟨h1, h2, h3, h4, h5, _⟩ := e.releaseRoot_rest
  have h511 : e.rootIdx.toNat < 511 := by
    cases hv : e.rootValid
    · rw [p.root.invalid hv]; decide
    · have := (p.root.valid hv).1; have := p.arena.nodeBound; omega
  have hown := e.releaseRoot_ownAt h511
  have hn : ∀ i, e.releaseRoot.nodeAt i = e.nodeAt i := fun i => by simp [Engine.nodeAt, h1]
  refine ⟨p.arena.congr (by rw [h3]) (by rw [h2]) (fun i _ => hn i) fun i _ => ?_,
    p.queue.congr h5 h4 (by rw [h2]) (fun i _ => hn i) (fun i _ => ?_)
      (fun i h h' => by rw [h2] at h'; omega), fun i hi => ?_⟩
  · rw [hown]; split
    · next h => rw [h.2, (p.root.valid h.1).2]; simp
    · rfl
  · rw [hown]; split
    · next h => rw [h.2, (p.root.valid h.1).2]; simp
    · rfl
  · rw [h2] at hi
    rw [hown]; split
    · simp
    · next h => intro hr; exact h ⟨(p.root.rooted i hi hr).1, (p.root.rooted i hi hr).2.symm⟩

theorem Engine.selectRoot_ownAt (e : Engine) (n : NodeIdx) (h : n.toNat < 511) (i : Nat) :
    (e.selectRoot n).ownAt i = if i = n.toNat then .rooted else e.ownAt i := by
  have := tget_tset e.own n.toNat i Own.rooted Own.loose
  simp only [h, and_true] at this
  exact this

/-- Selecting a LOOSE node as the root, where none is ROOTED, gives R44. -/
theorem selectRoot_parts {e : Engine} {n : NodeIdx} (a : ArenaInv e) (q : QueueInv e)
    (hr : ∀ i, i < e.nodeCount.toNat → e.ownAt i ≠ .rooted) (hn : n.toNat < e.nodeCount.toNat)
    (hl : e.ownAt n.toNat = .loose) : Parts (e.selectRoot n) := by
  have h511 : n.toNat < 511 := by have := a.nodeBound; omega
  have hown := e.selectRoot_ownAt n h511
  refine ⟨a.congr rfl rfl (fun _ _ => rfl) fun i _ => ?_,
    q.congr rfl rfl le_rfl (fun _ _ => rfl) (fun i _ => ?_) (fun i h1 h2 => absurd h2 (Nat.not_lt.2 h1)),
    ⟨fun i hi hri => ?_, fun _ => ⟨hn, ?_⟩, fun hv => ?_⟩⟩
  · rw [hown]; split
    · next h => subst h; rw [hl]; simp
    · rfl
  · rw [hown]; split
    · next h => subst h; rw [hl]; simp
    · rfl
  · rw [hown] at hri
    split at hri
    · next h => exact ⟨rfl, h.symm⟩
    · exact absurd hri (hr i hi)
  · show (e.selectRoot n).ownAt n.toNat = .rooted
    rw [hown, if_pos rfl]
  · cases hv

/-- SET_ROOT's change of state keeps R44. -/
theorem setRoot_parts {e : Engine} {n : NodeIdx} (p : Parts e) (hn : n.toNat < e.nodeCount.toNat)
    (hl : e.ownAt n.toNat = .loose) : Parts (e.releaseRoot.selectRoot n) := by
  obtain ⟨a, q, hr⟩ := releaseRoot_keeps p
  have hN : e.releaseRoot.nodeCount = e.nodeCount := e.releaseRoot_rest.2.1
  refine selectRoot_parts a q hr (by rw [hN]; exact hn) ?_
  have h511 : e.rootIdx.toNat < 511 := by
    cases hv : e.rootValid
    · rw [p.root.invalid hv]; decide
    · have := (p.root.valid hv).1; have := p.arena.nodeBound; omega
  rw [e.releaseRoot_ownAt h511]; split
  · rfl
  · exact hl

/-! ## MERGE_STEP -/

/-- Everything MERGE_STEP's body does on a state of R44 with two nodes queued: it cannot fail
(42_tree_builder.md R157), merges the two least nodes under a new one, and queues that. -/
theorem mergeStepBody_ok {e : Engine} (p : Parts e) (h2 : 2 ≤ e.heapSize.toNat) :
    ∃ (b : NodeIdx) (e' : Engine), e.mergeStepBody = .ok (e.nextIdx, e') ∧ Parts e' ∧
      b ∈ e.queue ∧ b ≠ e.heapAt 0 ∧ (∀ x ∈ e.queue, x ≠ e.heapAt 0 → e.less x b = false) ∧
      e.nextIdx.toNat = e.nodeCount.toNat ∧
      e'.heapSize.toNat + 1 = e.heapSize.toNat ∧ e'.nodeCount.toNat = e.nodeCount.toNat + 1 ∧
      e'.leafCount = e.leafCount ∧ e'.rootValid = e.rootValid ∧ e'.rootIdx = e.rootIdx ∧
      (∀ i, i < e.nodeCount.toNat → e'.nodeAt i = e.nodeAt i) ∧
      e'.nodeAt e.nodeCount.toNat =
        ⟨true, 0#8, natWord (e.weightAt (e.heapAt 0).toNat + e.weightAt b.toNat), e.heapAt 0, b⟩ ∧
      e.weightAt (e.heapAt 0).toNat + e.weightAt b.toNat ≤ 0xFFFFFFFF ∧
      (∀ i, i < e'.nodeCount.toNat → e'.ownAt i =
        if i = e.nodeCount.toNat then .queued
        else if i = (e.heapAt 0).toNat ∨ i = b.toNat then .child else e.ownAt i) ∧
      e'.freq = e.freq ∧ e'.ct = e.ct ∧ e'.inMem = e.inMem ∧ e'.outMem = e.outMem ∧ e'.outBits = e.outBits := by
  have h256 := heapSize_le_256 p.arena p.queue
  have hsz := heapSize_le p.arena p.queue
  have hlf := p.arena.leafBound
  obtain ⟨ht, htq⟩ := p.queue.first (by omega)
  obtain ⟨a1, q1, r1⟩ := heapExtract_keeps p.arena p.queue p.root (by omega)
  have hs1 := e.heapExtract_heapSize
  obtain ⟨ht1, htq1⟩ := q1.first (by omega)
  obtain ⟨a2, q2, r2⟩ := heapExtract_keeps a1 q1 r1 (by omega)
  have hs2 := e.heapExtract.2.heapExtract_heapSize
  have hperm := e.heapExtract_queue (by omega) h256
  have hnd := List.nodup_cons.1 (hperm.nodup_iff.1 p.queue.nodup)
  have hb_mem1 : e.heapExtract.2.heapAt 0 ∈ e.heapExtract.2.queue := by
    rw [Engine.queue_eq]; exact hget_mem (by omega)
  have hne : e.heapAt 0 ≠ e.heapExtract.2.heapAt 0 := fun h => hnd.1 (h ▸ hb_mem1)
  have hneN : (e.heapAt 0).toNat ≠ (e.heapExtract.2.heapAt 0).toNat := fun h => hne (BitVec.eq_of_toNat_eq h)
  have h511 := p.arena.nodeBound
  simp only [Engine.heapExtract_nodeCount] at ht1
  have o1 : ∀ i, e.heapExtract.2.ownAt i = if i = (e.heapAt 0).toNat then .loose else e.ownAt i := fun i => by
    rw [Engine.heapExtract_ownAt]
    have : (e.heapAt 0).toNat < 511 := by omega
    simp [this]
  have o2 : ∀ i, e.heapExtract.2.heapExtract.2.ownAt i =
      if i = (e.heapExtract.2.heapAt 0).toNat then .loose else e.heapExtract.2.ownAt i := fun i => by
    rw [Engine.heapExtract_ownAt]
    have : (e.heapExtract.2.heapAt 0).toNat < 511 := by omega
    simp [this]
  have hla : e.heapExtract.2.heapExtract.2.ownAt (e.heapAt 0).toNat = .loose := by
    rw [o2, if_neg hneN, o1, if_pos rfl]
  have hlb : e.heapExtract.2.heapExtract.2.ownAt (e.heapExtract.2.heapAt 0).toNat = .loose := by
    rw [o2, if_pos rfl]
  obtain ⟨m1, m2, a3, q3, r3⟩ := mergeNodes_keeps a2 q2 r2 (a := e.heapAt 0) (b := e.heapExtract.2.heapAt 0)
    ht ht1 hne hla hlb
  have hN3 := Engine.mergeNodes_nodeCount e.heapExtract.2.heapExtract.2 (e.heapAt 0) (e.heapExtract.2.heapAt 0) m1
  have hidx : e.nextIdx.toNat = e.nodeCount.toNat := e.nextIdx_toNat h511
  have ho3 := Engine.mergeNodes_ownAt e.heapExtract.2.heapExtract.2 (e.heapAt 0) (e.heapExtract.2.heapAt 0) m1 ht ht1
  have hn3 := Engine.mergeNodes_nodeAt e.heapExtract.2.heapExtract.2 (e.heapAt 0) (e.heapExtract.2.heapAt 0) m1
  have hN2 : e.heapExtract.2.heapExtract.2.nodeCount.toNat = e.nodeCount.toNat := rfl
  rw [hN2] at hN3 ho3 hn3 m1
  simp only [Engine.heapExtract_nodeAt] at hn3
  have hs3 : (e.heapExtract.2.heapExtract.2.mergeNodes (e.heapAt 0) (e.heapExtract.2.heapAt 0)).heapSize.toNat =
      e.heapSize.toNat - 2 := by
    show e.heapExtract.2.heapExtract.2.heapSize.toNat = _
    omega
  obtain ⟨a4, q4, r4⟩ := heapInsert_keeps (n := e.nextIdx) a3 q3 r3 (by rw [hN3, hidx]; omega)
    (by rw [hidx, ho3, if_pos rfl]) (by omega)
  have hs4 := Engine.heapInsert_heapSize
    (e.heapExtract.2.heapExtract.2.mergeNodes (e.heapAt 0) (e.heapExtract.2.heapAt 0)) e.nextIdx (by omega)
  refine ⟨e.heapExtract.2.heapAt 0,
    (e.heapExtract.2.heapExtract.2.mergeNodes (e.heapAt 0) (e.heapExtract.2.heapAt 0)).heapInsert e.nextIdx,
    ?_, ⟨a4, q4, r4⟩, ?_, hne.symm, ?_, hidx, by omega, ?_, rfl, rfl, rfl, ?_, ?_, m2, ?_, rfl, rfl, rfl, rfl, rfl⟩
  · unfold Engine.mergeStepBody
    rw [if_neg (by omega), if_neg (by omega)]
    exact if_neg (Nat.not_lt.2 m2)
  · rw [hperm.mem_iff]; exact List.mem_cons_of_mem _ hb_mem1
  · intro x hx hxne
    rw [hperm.mem_iff, List.mem_cons] at hx
    have := e.heapExtract.2.heapAt_zero_least q1.ordered x (hx.resolve_left hxne)
    rwa [Engine.less_of_node e.heapExtract_node] at this
  · rw [Engine.heapInsert_nodeCount, hN3]
  · intro i hi; rw [Engine.heapInsert_nodeAt, hn3, if_neg (by omega)]
  · rw [Engine.heapInsert_nodeAt, hn3, if_pos rfl]; rfl
  · intro i hi
    rw [Engine.heapInsert_nodeCount, hN3] at hi
    rw [Engine.heapInsert_ownAt, hidx]
    by_cases hiN : i = e.nodeCount.toNat
    · rw [if_pos ⟨hiN, by omega⟩, if_pos hiN]
    · rw [if_neg (by simp [hiN]), if_neg hiN, ho3, if_neg hiN]
      by_cases hab : i = (e.heapAt 0).toNat ∨ i = (e.heapExtract.2.heapAt 0).toNat
      · rw [if_pos hab, if_pos hab]
      · rw [if_neg hab, if_neg hab, o2, if_neg (by tauto), o1, if_neg (by tauto)]

/-! ## BUILD_TREE -/

/-- What BUILD_TREE's loop keeps: R44, every node QUEUED or CHILD, and at least one node queued. -/
structure Building (e : Engine) : Prop where
  parts : Parts e
  owned : ∀ i, i < e.nodeCount.toNat → e.ownAt i = .queued ∨ e.ownAt i = .child
  nonempty : 1 ≤ e.heapSize.toNat
  noRoot : e.rootValid = false

/-- Then every top-level node is queued, so HEAP_SIZE is exactly 2 LEAF_COUNT - NODE_COUNT. -/
theorem Building.count {e : Engine} (b : Building e) :
    e.heapSize.toNat + e.nodeCount.toNat = 2 * e.leafCount.toNat := by
  rw [b.parts.queue.count b.parts.arena.nodeBound, ← b.parts.arena.topCount]
  congr 2
  refine List.filter_congr fun i hi => ?_
  rcases b.owned i (List.mem_range.1 hi) with h | h <;> simp [Engine.topLevel, h]

/-- Everything BUILD_TREE's loop does: it cannot fail, and it ends with one node queued and the same
leaves. -/
theorem buildLoop_ok (fuel : Nat) {e : Engine} (b : Building e) (hf : e.heapSize.toNat ≤ fuel) :
    ∃ e', buildLoop fuel e = .ok e' ∧ Building e' ∧ e'.heapSize.toNat = 1 ∧ e'.leafCount = e.leafCount ∧
      e.nodeCount.toNat ≤ e'.nodeCount.toNat ∧
      (∀ i, i < e.nodeCount.toNat → e'.nodeAt i = e.nodeAt i) ∧
      e'.freq = e.freq ∧ e'.ct = e.ct ∧ e'.inMem = e.inMem ∧ e'.outMem = e.outMem ∧ e'.outBits = e.outBits := by
  induction fuel generalizing e with
  | zero => have := b.nonempty; omega
  | succ f ih =>
    unfold buildLoop
    by_cases h1 : 1 < e.heapSize.toNat
    · rw [if_pos h1]
      obtain ⟨c, e', hok, hp, _, _, _, _, hs, hN, hk, hrv, _, hnode, _, _, hown, f1, f2, f3, f4, f5⟩ :=
        mergeStepBody_ok b.parts h1
      have b' : Building e' := by
        refine ⟨hp, fun i hi => ?_, by omega, hrv.trans b.noRoot⟩
        rw [hown i hi]
        split
        · exact .inl rfl
        · split
          · exact .inr rfl
          · exact b.owned i (by omega)
      obtain ⟨e'', g1, g2, g3, g4, g5, g6, g7, g8, g9, g10, g11⟩ := ih b' (by omega)
      rw [hok]
      exact ⟨e'', g1, g2, g3, g4.trans hk, by omega, fun i hi => (g6 i (by omega)).trans (hnode i hi), g7.trans f1,
        g8.trans f2, g9.trans f3, g10.trans f4, g11.trans f5⟩
    · rw [if_neg h1]
      have := b.nonempty
      exact ⟨e, rfl, b, by omega, rfl, le_rfl, fun _ _ => rfl, rfl, rfl, rfl, rfl, rfl⟩

theorem heapBuilt_building (e : Engine) (h0 : e.presentSyms.length ≠ 0) (hT : e.totalFreq ≤ 0xFFFFFFFF) :
    Building e.heapBuilt := by
  obtain ⟨hN, hK, hS⟩ := e.heapBuilt_counts
  exact ⟨heapBuilt_parts e hT, fun i hi => .inl (e.heapBuilt_ownAt i (by omega)), by omega, rfl⟩

/-- Everything BUILD_TREE's body does where FREQ is neither empty nor too heavy, whatever the state before
(42_tree_builder.md R156). -/
theorem buildTreeBody_ok (e : Engine) (h0 : e.presentSyms.length ≠ 0) (hT : e.totalFreq ≤ 0xFFFFFFFF) :
    ∃ e', e.buildTreeBody = .ok e' ∧ Parts e' ∧
      e'.nodeCount.toNat = 2 * e.presentSyms.length - 1 ∧ e'.leafCount.toNat = e.presentSyms.length ∧
      e'.heapSize.toNat = 0 ∧ e'.rootValid = true ∧ e'.rootIdx.toNat = 2 * e.presentSyms.length - 2 ∧
      e'.weightAt e'.rootIdx.toNat = e.totalFreq ∧
      (∀ i, i < e'.nodeCount.toNat → e'.ownAt i = if i = e'.rootIdx.toNat then .rooted else .child) ∧
      (∀ i, i < e.presentSyms.length → e'.nodeAt i = e.leafOf (e.presentSyms.getD i 0)) ∧
      e'.freq = e.freq ∧ e'.ct = e.ct ∧ e'.inMem = e.inMem ∧ e'.outMem = e.outMem ∧ e'.outBits = e.outBits := by
  have hb := heapBuilt_building e h0 hT
  obtain ⟨cN, cK, cS⟩ := e.heapBuilt_counts
  obtain ⟨e2, hok, b2, hs, hk, hNle, hnode, f1, f2, f3, f4, f5⟩ := buildLoop_ok _ hb le_rfl
  have hcount := b2.count
  have hk2 : e2.leafCount.toNat = e.presentSyms.length := by rw [hk, cK]
  obtain ⟨ht, htq⟩ := b2.parts.queue.first (by omega)
  obtain ⟨a3, q3, r3⟩ := heapExtract_keeps b2.parts.arena b2.parts.queue b2.parts.root (by omega)
  have h511 := b2.parts.arena.nodeBound
  have o3 : ∀ i, e2.heapExtract.2.ownAt i = if i = (e2.heapAt 0).toNat then .loose else e2.ownAt i := fun i => by
    rw [Engine.heapExtract_ownAt]
    have : (e2.heapAt 0).toNat < 511 := by omega
    simp [this]
  have only : ∀ i, i < e2.nodeCount.toNat → i ≠ (e2.heapAt 0).toNat → e2.ownAt i = .child := by
    intro i hi hne
    refine (b2.owned i hi).resolve_left fun hq => ?_
    have := filter_length_two (n := e2.nodeCount.toNat) (p := fun i => decide (e2.ownAt i = .queued)) hi ht hne
      (by simp [hq]) (by simp [htq])
    rw [← b2.parts.queue.count h511] at this
    omega
  have hr0 : (e2.heapAt 0).toNat = e2.nodeCount.toNat - 1 := by
    by_contra hne
    have hc := only (e2.nodeCount.toNat - 1) (by omega) (fun h => hne h.symm)
    obtain ⟨i, ⟨i1, i2, i3⟩, _⟩ := b2.parts.arena.parent _ (by omega) hc
    have := b2.parts.arena.internal i i1 i2
    rcases i3 with h | h <;> omega
  have p4 : Parts (e2.heapExtract.2.selectRoot (e2.heapAt 0)) := by
    refine selectRoot_parts a3 q3 (fun i hi => ?_) ht (by rw [o3, if_pos rfl])
    rw [o3]; split
    · simp
    · rcases b2.owned i hi with h | h <;> simp [h]
  have hsel := e2.heapExtract.2.selectRoot_ownAt (e2.heapAt 0) (by omega)
  refine ⟨e2.heapExtract.2.selectRoot (e2.heapAt 0), ?_, p4, ?_, hk2, ?_, rfl, ?_, ?_, ?_, ?_,
    f1.trans e.heapBuilt_freq, f2.trans e.heapBuilt_ct, f3.trans e.heapBuilt_inMem, f4.trans e.heapBuilt_outMem,
    f5.trans e.heapBuilt_outBits⟩
  · unfold Engine.buildTreeBody Engine.heapBuildBody
    rw [if_neg h0, if_neg (Nat.not_lt.2 hT)]
    simp only [hok]
    rfl
  · show e2.nodeCount.toNat = _
    omega
  · show e2.heapExtract.2.heapSize.toNat = 0
    rw [Engine.heapExtract_heapSize]; omega
  · show (e2.heapAt 0).toNat = _
    omega
  · show e2.weightAt (e2.heapAt 0).toNat = _
    have hw := b2.parts.arena.weightTop
    rw [hk, Engine.weightSum_eq, Engine.weightSum_eq,
      ← Finset.add_sum_erase _ _ (Finset.mem_range.2 ht),
      Finset.sum_eq_zero (s := (Finset.range e2.nodeCount.toNat).erase (e2.heapAt 0).toNat)] at hw
    · have hle : e.heapBuilt.leafCount.toNat ≤ e.heapBuilt.nodeCount.toNat := by omega
      rw [← heapBuilt_weight e, Engine.weightSum_eq]
      have htop : e2.topLevel (e2.heapAt 0).toNat = true := by simp [Engine.topLevel, htq]
      simp only [htop, if_true, Nat.add_zero] at hw ⊢
      rw [hw]
      refine Finset.sum_congr rfl fun i hi => ?_
      have := Finset.mem_range.1 hi
      simp only [Engine.weightAt]
      rw [hnode i (by omega)]
    · intro i hi
      have hi := Finset.mem_erase.1 hi
      have := only i (Finset.mem_range.1 hi.2) hi.1
      simp [Engine.topLevel, this]
  · intro i hi
    show (e2.heapExtract.2.selectRoot (e2.heapAt 0)).ownAt i = if i = (e2.heapAt 0).toNat then _ else _
    rw [hsel]; split
    · rfl
    · next h => rw [o3, if_neg h]; exact only i hi h
  · intro i hi
    show e2.nodeAt i = _
    rw [hnode i (by omega)]
    exact e.heapBuilt_nodeAt i hi

end Sys2Proof.Machine
end

