-- ==== Sys2Proof/Laws/Codes.lean ====
section
/-! SUPPORT. Laws of code storage (43_code_table.md R180), of the trees in the arena and of GEN_CODES' walk (R181-R183, R185). -/

namespace Sys2Proof.Machine

/-! ## Code storage -/

/-- Bit `k` of the eight code words. -/
def cwBit (cw : Vector Word 8) (k : Nat) : Bool := (tget cw (k / 32) 0#32).getLsbD (31 - k % 32)

theorem CtEntry.codebit_eq (c : CtEntry) (k : Nat) : c.codebit k = cwBit c.cw k := rfl

theorem cwBit_set (cw : Vector Word 8) (j k : Nat) (b : Bool) (hj : j < 256) :
    cwBit (tset cw (j / 32) (setBit (tget cw (j / 32) 0#32) (31 - j % 32) b)) k =
      if k = j then b else cwBit cw k := by
  unfold cwBit
  rw [tget_tset]
  by_cases hw : k / 32 = j / 32
  · rw [if_pos ⟨hw, by omega⟩, getLsbD_setBit]
    by_cases hk : k = j
    · subst hk; rw [if_pos ⟨rfl, by omega⟩, if_pos rfl]
    · rw [if_neg (by omega), if_neg hk, hw]
  · rw [if_neg (by omega), if_neg (by intro h; rw [h] at hw; exact hw rfl)]

theorem cwBit_storeBits (c : List Bool) (j : Nat) (cw : Vector Word 8) (h : j + c.length ≤ 256) (k : Nat) :
    cwBit (storeBits c j cw) k = if j ≤ k ∧ k < j + c.length then c.getD (k - j) false else cwBit cw k := by
  induction c generalizing j cw with
  | nil => rw [if_neg (by simp only [List.length_nil]; omega)]; rfl
  | cons b c ih =>
    simp only [List.length_cons] at h
    rw [storeBits, ih _ _ (by omega), cwBit_set _ _ _ _ (by omega)]
    simp only [List.length_cons]
    by_cases hk : k = j
    · subst hk; simp
    · by_cases h2 : j + 1 ≤ k ∧ k < j + 1 + c.length
      · rw [if_pos h2, if_pos (by omega)]
        have : k - j = (k - (j + 1)) + 1 := by omega
        rw [this]; rfl
      · rw [if_neg h2, if_neg hk, if_neg (by omega)]

theorem cwBit_zero (k : Nat) : cwBit (Vector.replicate 8 0#32) k = false := by
  unfold cwBit; rw [tget_replicate]; simp

/-- The bits of an entry left by `store_code`: the code, and zeros at and above its length. -/
theorem codeEntry_codebit (c : List Bool) (h : c.length ≤ 255) (k : Nat) :
    (codeEntry c).codebit k = c.getD k false := by
  rw [CtEntry.codebit_eq]
  show cwBit (storeBits c 0 (Vector.replicate 8 0#32)) k = _
  rw [cwBit_storeBits _ _ _ (by omega), cwBit_zero]
  by_cases hk : k < c.length
  · simp [hk]
  · simp [hk]

@[simp] theorem CtEntry.length_code (c : CtEntry) : c.code.length = c.len.toNat := by simp [CtEntry.code]

/-- Reading a stored code back gives the code (43_code_table.md R180). -/
theorem codeEntry_code (c : List Bool) (h : c.length ≤ 255) : (codeEntry c).code = c := by
  have hlen : (codeEntry c).len.toNat = c.length := by
    show (BitVec.ofNat 8 c.length).toNat = _
    rw [BitVec.toNat_ofNat]; omega
  refine List.ext_getElem (by rw [CtEntry.length_code, hlen]) fun k h1 h2 => ?_
  have : (codeEntry c).code[k] = (codeEntry c).codebit k := by simp [CtEntry.code]
  rw [this, codeEntry_codebit c h, List.getD_eq_getElem _ _ h2]

theorem Engine.storeCodes_rest (e : Engine) (cs : List (Byte × List Bool)) :
    (e.storeCodes cs).freq = e.freq ∧ (e.storeCodes cs).node = e.node ∧ (e.storeCodes cs).own = e.own ∧
      (e.storeCodes cs).heap = e.heap ∧ (e.storeCodes cs).heapSize = e.heapSize ∧
      (e.storeCodes cs).nodeCount = e.nodeCount ∧ (e.storeCodes cs).leafCount = e.leafCount ∧
      (e.storeCodes cs).rootValid = e.rootValid ∧ (e.storeCodes cs).rootIdx = e.rootIdx ∧
      (e.storeCodes cs).inMem = e.inMem ∧ (e.storeCodes cs).outMem = e.outMem ∧
      (e.storeCodes cs).outBits = e.outBits := by
  induction cs generalizing e with
  | nil => exact ⟨rfl, rfl, rfl, rfl, rfl, rfl, rfl, rfl, rfl, rfl, rfl, rfl⟩
  | cons c cs ih => exact ih _

theorem Engine.storeCode_ctAt (e : Engine) (s : Byte) (c : List Bool) (x : Byte) :
    (e.storeCode s c).ctAt x.toNat = if x = s then codeEntry c else e.ctAt x.toNat := by
  have := tget_tset e.ct s.toNat x.toNat (codeEntry c) CtEntry.blank
  have hs : s.toNat < 256 := s.isLt
  simp only [hs, and_true] at this
  by_cases h : x = s
  · subst h; rw [if_pos rfl] at this ⊢; exact this
  · rw [if_neg (fun hn => h (BitVec.eq_of_toNat_eq hn))] at this
    rw [if_neg h]; exact this

/-- Storing codes of distinct symbols: each symbol of the list gets its code, every other keeps its entry. -/
theorem Engine.storeCodes_ctAt (e : Engine) (cs : List (Byte × List Bool)) (hd : (cs.map Prod.fst).Nodup) :
    (∀ c ∈ cs, (e.storeCodes cs).ctAt c.1.toNat = codeEntry c.2) ∧
      ∀ s : Byte, s ∉ cs.map Prod.fst → (e.storeCodes cs).ctAt s.toNat = e.ctAt s.toNat := by
  induction cs generalizing e with
  | nil => exact ⟨by simp, fun s _ => rfl⟩
  | cons c cs ih =>
    rw [List.map_cons, List.nodup_cons] at hd
    obtain ⟨h1, h2⟩ := ih (e.storeCode c.1 c.2) hd.2
    refine ⟨fun d hm => ?_, fun s hs => ?_⟩
    · rcases List.mem_cons.1 hm with rfl | hm
      · rw [Engine.storeCodes, h2 _ hd.1, Engine.storeCode_ctAt, if_pos rfl]
      · exact h1 d hm
    · rw [List.map_cons, List.mem_cons, not_or] at hs
      rw [Engine.storeCodes, h2 _ hs.2, Engine.storeCode_ctAt, if_neg hs.1]

/-! ## Trees -/

theorem HTree.length_paths (t : HTree) : t.paths.length = t.leaves := by
  induction t with
  | leaf i => rfl
  | node i l r ihl ihr => simp [HTree.paths, HTree.leaves, ihl, ihr]

theorem HTree.length_codes (t : HTree) : t.codes.length = t.leaves := by
  cases t with
  | leaf i => rfl
  | node i l r => exact HTree.length_paths _

theorem HTree.codes_fst (t : HTree) : t.codes.map Prod.fst = t.paths.map Prod.fst := by
  cases t <;> rfl

theorem HTree.path_length_le (t : HTree) : ∀ c ∈ t.paths, c.2.length ≤ t.depth := by
  induction t with
  | leaf i => simp [HTree.paths]
  | node i l r ihl ihr =>
    intro c hc
    simp only [HTree.paths, List.mem_append, List.mem_map] at hc
    rcases hc with ⟨d, hd, rfl⟩ | ⟨d, hd, rfl⟩
    · have := ihl d hd; simp only [HTree.depth, List.length_cons]; omega
    · have := ihr d hd; simp only [HTree.depth, List.length_cons]; omega

theorem HTree.exists_longest (t : HTree) : ∃ c ∈ t.paths, c.2.length = t.depth := by
  induction t with
  | leaf i => exact ⟨(i, []), by simp [HTree.paths], rfl⟩
  | node i l r ihl ihr =>
    obtain ⟨c, hc, hcl⟩ := ihl
    obtain ⟨d, hd, hdl⟩ := ihr
    by_cases h : r.depth ≤ l.depth
    · refine ⟨(c.1, false :: c.2), ?_, ?_⟩
      · simp only [HTree.paths, List.mem_append, List.mem_map]; exact .inl ⟨c, hc, rfl⟩
      · simp only [HTree.depth, List.length_cons]; omega
    · refine ⟨(d.1, true :: d.2), ?_, ?_⟩
      · simp only [HTree.paths, List.mem_append, List.mem_map]; exact .inr ⟨d, hd, rfl⟩
      · simp only [HTree.depth, List.length_cons]; omega

/-- No path of a tree is a prefix of another (43_code_table.md R185, item 1). -/
theorem HTree.paths_prefix (t : HTree) : ∀ c ∈ t.paths, ∀ d ∈ t.paths, c.2 <+: d.2 → c = d := by
  induction t with
  | leaf i => simp [HTree.paths]
  | node i l r ihl ihr =>
    intro c hc d hd hp
    simp only [HTree.paths, List.mem_append, List.mem_map] at hc hd
    rcases hc with ⟨c, hc, rfl⟩ | ⟨c, hc, rfl⟩ <;> rcases hd with ⟨d, hd, rfl⟩ | ⟨d, hd, rfl⟩
    · rw [ihl c hc d hd (List.cons_prefix_cons.1 hp).2]
    · have := (List.cons_prefix_cons.1 hp).1; cases this
    · have := (List.cons_prefix_cons.1 hp).1; cases this
    · rw [ihr c hc d hd (List.cons_prefix_cons.1 hp).2]

theorem HTree.codes_prefix (t : HTree) : ∀ c ∈ t.codes, ∀ d ∈ t.codes, c.2 <+: d.2 → c = d := by
  cases t with
  | leaf i => simp [HTree.codes]
  | node i l r => exact HTree.paths_prefix _

theorem HTree.code_length_pos (t : HTree) : ∀ c ∈ t.codes, 1 ≤ c.2.length := by
  cases t with
  | leaf i => simp [HTree.codes]
  | node i l r =>
    intro c hc
    simp only [HTree.codes, HTree.paths, List.mem_append, List.mem_map] at hc
    rcases hc with ⟨d, _, rfl⟩ | ⟨d, _, rfl⟩ <;> simp

/-- Every code of a tree with at most 256 leaves fits in the code table (00_scope.md R9). -/
theorem HTree.code_length_le (t : HTree) (h : t.leaves ≤ 256) : ∀ c ∈ t.codes, c.2.length ≤ 255 := by
  cases t with
  | leaf i => simp [HTree.codes]
  | node i l r =>
    intro c hc
    have h1 := HTree.path_length_le _ c hc
    have h2 := HTree.depth_le (.node i l r)
    omega

/-- The Kraft equality of a full binary tree, cleared of fractions (43_code_table.md R185, item 2). -/
theorem HTree.kraft (t : HTree) (D : Nat) (h : t.depth ≤ D) :
    (t.paths.map fun c => 2 ^ (D - c.2.length)).sum = 2 ^ D := by
  induction t generalizing D with
  | leaf i => simp [HTree.paths]
  | node i l r ihl ihr =>
    simp only [HTree.depth] at h
    obtain ⟨D', rfl⟩ : ∃ D', D = D' + 1 := ⟨D - 1, by omega⟩
    simp only [HTree.paths, List.map_append, List.map_map, Function.comp_def, List.length_cons,
      Nat.add_sub_add_right, List.sum_append]
    rw [ihl D' (by omega), ihr D' (by omega), Nat.pow_succ]; omega

/-! ## Trees in the arena -/

theorem Engine.Holds.idx_lt {e : Engine} {t : HTree} (h : e.Holds t) : t.idx < e.nodeCount.toNat := by
  cases t with
  | leaf i => exact h.1
  | node i l r => exact h.1

theorem Engine.Under.trans {e : Engine} {a b c : Nat} (h1 : e.Under a b) (h2 : e.Under b c) : e.Under a c := by
  induction h2 with
  | self => exact h1
  | left _ ht ih => exact ih.left ht
  | right _ ht ih => exact ih.right ht

theorem Engine.Holds.leaf_under {e : Engine} {t : HTree} (h : e.Holds t) :
    ∀ c ∈ t.paths, e.Under t.idx c.1 ∧ c.1 < e.nodeCount.toNat ∧ (e.nodeAt c.1).tag = false := by
  induction t with
  | leaf i =>
    intro c hc
    simp only [HTree.paths, List.mem_singleton] at hc
    subst hc
    exact ⟨.self, h.1, h.2⟩
  | node i l r ihl ihr =>
    obtain ⟨_, ht, hl, hr, hhl, hhr⟩ := h
    intro c hc
    simp only [HTree.paths, List.mem_append, List.mem_map] at hc
    rcases hc with ⟨d, hd, rfl⟩ | ⟨d, hd, rfl⟩
    · obtain ⟨h1, h2⟩ := ihl hhl d hd
      exact ⟨Engine.Under.trans (hl ▸ Engine.Under.left .self ht) h1, h2⟩
    · obtain ⟨h1, h2⟩ := ihr hhr d hd
      exact ⟨Engine.Under.trans (hr ▸ Engine.Under.right .self ht) h1, h2⟩

/-- Two ancestors of one node lie on one line. -/
theorem ArenaInv.under_line {e : Engine} (a : ArenaInv e) {x y j : Nat} (hx : x < e.nodeCount.toNat)
    (hy : y < e.nodeCount.toNat) (h1 : e.Under x j) (h2 : e.Under y j) : e.Under x y ∨ e.Under y x := by
  have key : ∀ i c, e.Under x i → (e.nodeAt i).tag = true → e.childOf c i → e.Under y c →
      (e.Under y i → e.Under x y ∨ e.Under y x) → e.Under x y ∨ e.Under y x := by
    intro i c hxi ht hc hyc ih
    by_cases hcy : c = y
    · exact .inl (hcy ▸ hxi.child ht hc)
    · obtain ⟨p, hp, htp, hcp⟩ := hyc.parent hcy
      have hil := (a.under_lt hx hxi).1
      have hpl := (a.under_lt hy hp).1
      have hki := (a.tag_iff hil).1 ht
      have hkp := (a.tag_iff hpl).1 htp
      have hcl : c < e.nodeCount.toNat := (a.under_lt hy hyc).1
      have hcc : e.ownAt c = .child := by
        by_contra hne; exact a.noParent c hcl hne i hki hil hc
      obtain ⟨q, _, hu⟩ := a.parent c hcl hcc
      have : p = i := (hu p hkp hpl hcp).trans (hu i hki hil hc).symm
      exact ih (this ▸ hp)
  induction h1 with
  | self => exact .inr h2
  | left hi ht ih => exact key _ _ hi ht (.inl rfl) h2 ih
  | right hi ht ih => exact key _ _ hi ht (.inr rfl) h2 ih

/-- The subtrees under the two children of a node share no node (R44, item 9). -/
theorem ArenaInv.children_disjoint {e : Engine} (a : ArenaInv e) {i j : Nat} (hi : i < e.nodeCount.toNat)
    (ht : (e.nodeAt i).tag = true) (h1 : e.Under (e.nodeAt i).left.toNat j)
    (h2 : e.Under (e.nodeAt i).right.toNat j) : False := by
  have hk := (a.tag_iff hi).1 ht
  obtain ⟨p1, p2, p3, p4, p5, _⟩ := a.internal i hk hi
  have hne : (e.nodeAt i).left.toNat ≠ (e.nodeAt i).right.toNat := fun h => p3 (BitVec.eq_of_toNat_eq h)
  have line := a.under_line (by omega) (by omega) h1 h2
  have key : ∀ x y, x < i → y < i → x ≠ y → e.ownAt y = .child → e.childOf y i → e.Under x y → False := by
    intro x y hx hy hxy hoy hc hu
    obtain ⟨p, hp, htp, hcp⟩ := hu.parent (Ne.symm hxy)
    have hpl := a.under_lt (by omega) hp
    obtain ⟨q, _, huq⟩ := a.parent y (by omega) hoy
    have := (huq p ((a.tag_iff hpl.1).1 htp) hpl.1 hcp).trans (huq i hk hi hc).symm
    omega
  rcases line with h | h
  · exact key _ _ p1 p2 hne p5 (.inr rfl) h
  · exact key _ _ p2 p1 (Ne.symm hne) p4 (.inl rfl) h

/-- No leaf stands twice in a tree of the arena. -/
theorem Engine.Holds.leaves_nodup {e : Engine} (a : ArenaInv e) {t : HTree} (h : e.Holds t) :
    (t.paths.map Prod.fst).Nodup := by
  induction t with
  | leaf i => simp [HTree.paths]
  | node i l r ihl ihr =>
    obtain ⟨hi, ht, hl, hr, hhl, hhr⟩ := h
    simp only [HTree.paths, List.map_append, List.map_map, Function.comp_def]
    refine List.nodup_append.2 ⟨ihl hhl, ihr hhr, ?_⟩
    intro x hx y hy hxy
    subst hxy
    obtain ⟨c, hc, rfl⟩ := List.mem_map.1 hx
    obtain ⟨d, hd, hdc⟩ := List.mem_map.1 hy
    have h1 := (hhl.leaf_under c hc).1
    have h2 := (hhr.leaf_under d hd).1
    rw [hdc] at h2
    rw [← hl] at h1
    rw [← hr] at h2
    exact a.children_disjoint hi ht h1 h2

/-- A tree of the arena has at most LEAF_COUNT leaves. -/
theorem Engine.Holds.leaves_le {e : Engine} (a : ArenaInv e) {t : HTree} (h : e.Holds t) :
    t.leaves ≤ e.leafCount.toNat := by
  rw [← HTree.length_paths, ← List.length_map (f := Prod.fst), ← List.length_range (n := e.leafCount.toNat)]
  refine (List.subperm_of_subset (h.leaves_nodup a) fun i hi => ?_).length_le
  obtain ⟨c, hc, rfl⟩ := List.mem_map.1 hi
  obtain ⟨_, h2, h3⟩ := h.leaf_under c hc
  refine List.mem_range.2 ?_
  by_contra hge
  rw [a.tagInternal c.1 (by omega) h2] at h3; cases h3

/-- The codes of a tree, each under its leaf's symbol. -/
def Engine.symCodes (e : Engine) (t : HTree) : List (Byte × List Bool) :=
  t.codes.map fun c => ((e.nodeAt c.1).sym, c.2)

/-- Distinct leaves have distinct symbols (R44, item 2). -/
theorem Engine.Holds.syms_nodup {e : Engine} (a : ArenaInv e) {t : HTree} (h : e.Holds t) :
    ((e.symCodes t).map Prod.fst).Nodup := by
  have hnd := h.leaves_nodup a
  have : (e.symCodes t).map Prod.fst = (t.paths.map Prod.fst).map fun i => (e.nodeAt i).sym := by
    rw [← HTree.codes_fst]; simp [Engine.symCodes, Function.comp_def]
  rw [this]
  have lt : ∀ x ∈ t.paths.map Prod.fst, x < e.leafCount.toNat := by
    intro x hx
    obtain ⟨c, hc, rfl⟩ := List.mem_map.1 hx
    obtain ⟨_, h2, h3⟩ := h.leaf_under c hc
    by_contra hge
    rw [a.tagInternal c.1 (by omega) h2] at h3; cases h3
  refine List.Nodup.map_on (fun x hx y hy hxy => ?_) hnd
  rcases Nat.lt_trichotomy x y with hlt | heq | hlt
  · have := a.symAsc x y hlt (lt y hy); rw [hxy] at this; omega
  · exact heq
  · have := a.symAsc y x hlt (lt x hx); rw [hxy] at this; omega

/-! ## The walk -/

theorem Engine.walk_leaf {e : Engine} {i : NodeIdx} (h : (e.nodeAt i.toNat).tag = false) (fuel : Nat) (p : List Bool) :
    e.walk fuel i p = some [((e.nodeAt i.toNat).sym, p)] := by
  cases fuel <;> simp [Engine.walk, h]

theorem Engine.walk_node {e : Engine} {i : NodeIdx} (h : (e.nodeAt i.toNat).tag = true) (fuel : Nat) (p : List Bool)
    {l r : List (Byte × List Bool)} (hl : e.walk fuel (e.nodeAt i.toNat).left (p ++ [false]) = some l)
    (hr : e.walk fuel (e.nodeAt i.toNat).right (p ++ [true]) = some r) : e.walk (fuel + 1) i p = some (l ++ r) := by
  simp [Engine.walk, h, hl, hr]

/-- The walk lists the paths of the tree in pre-order, if the depth allowed suffices. -/
theorem Engine.Holds.walk {e : Engine} {t : HTree} (h : e.Holds t) (fuel : Nat) (i : NodeIdx) (hi : i.toNat = t.idx)
    (hf : t.depth ≤ fuel) (p : List Bool) :
    e.walk fuel i p = some (t.paths.map fun c => ((e.nodeAt c.1).sym, p ++ c.2)) := by
  induction t generalizing fuel i p with
  | leaf j =>
    have : i.toNat = j := hi
    have ht := h.2
    rw [Engine.walk_leaf (by rw [this]; exact ht), this]
    simp [HTree.paths]
  | node j l r ihl ihr =>
    obtain ⟨_, ht, hl, hr, hhl, hhr⟩ := h
    have : i.toNat = j := hi
    subst this
    simp only [HTree.depth] at hf
    obtain ⟨f, rfl⟩ : ∃ f, fuel = f + 1 := ⟨fuel - 1, by omega⟩
    rw [Engine.walk_node ht f p (ihl hhl f _ hl (by omega) _) (ihr hhr f _ hr (by omega) _)]
    simp [HTree.paths, Function.comp_def]

/-- Everything GEN_CODES' walk finds on a state of R44 with a root: a tree in the arena under ROOT, and its
codes, which all fit in the code table. -/
theorem Parts.rootCodes {e : Engine} (p : Parts e) (hv : e.rootValid = true) :
    ∃ t : HTree, t.idx = e.rootIdx.toNat ∧ e.Holds t ∧ t.leaves ≤ 256 ∧ e.rootCodes = some (e.symCodes t) ∧
      ((e.symCodes t).map Prod.fst).Nodup := by
  obtain ⟨hr, _⟩ := p.root.valid hv
  obtain ⟨t, hti, hh⟩ := p.arena.holds _ hr
  have hle : t.leaves ≤ 256 := (hh.leaves_le p.arena).trans p.arena.leafBound
  refine ⟨t, hti, hh, hle, ?_, hh.syms_nodup p.arena⟩
  unfold Engine.rootCodes
  cases t with
  | leaf i =>
    have : e.rootIdx.toNat = i := hti.symm
    rw [this, if_neg (by rw [hh.2]; simp)]; rfl
  | node i l r =>
    have hi : e.rootIdx.toNat = i := hti.symm
    rw [if_pos (by rw [hi]; exact hh.2.1)]
    have hd := HTree.depth_le (.node i l r)
    rw [hh.walk 255 e.rootIdx hi (by omega) []]
    rfl

theorem maxLen_le {cs : List (Byte × List Bool)} {n : Nat} : maxLen cs ≤ n ↔ ∀ c ∈ cs, c.2.length ≤ n := by
  induction cs with
  | nil => simp [maxLen]
  | cons c cs ih => simp only [maxLen, Nat.max_le, ih, List.mem_cons, forall_eq_or_imp]

theorem le_maxLen {cs : List (Byte × List Bool)} {c : Byte × List Bool} (h : c ∈ cs) : c.2.length ≤ maxLen cs :=
  maxLen_le.1 le_rfl c h

theorem maxLen_attained {cs : List (Byte × List Bool)} (h : cs ≠ []) : ∃ c ∈ cs, c.2.length = maxLen cs := by
  induction cs with
  | nil => exact absurd rfl h
  | cons c cs ih =>
    by_cases hcs : cs = []
    · subst hcs; exact ⟨c, by simp, by simp [maxLen]⟩
    · obtain ⟨d, hd, hl⟩ := ih hcs
      by_cases hm : maxLen cs ≤ c.2.length
      · exact ⟨c, by simp, by simp [maxLen, hm]⟩
      · exact ⟨d, by simp [hd], by simp [maxLen, hl]; omega⟩

theorem codeEntry_len {c : List Bool} (h : c.length ≤ 255) : (codeEntry c).len.toNat = c.length := by
  show (BitVec.ofNat 8 c.length).toNat = _
  rw [BitVec.toNat_ofNat]; omega

/-! ## Trees are determined by their root, and the reference decoder follows them -/

/-- The arena holds at most one tree at an index. -/
theorem Engine.Holds.unique {e : Engine} {t t' : HTree} (h : e.Holds t) (h' : e.Holds t') (hi : t.idx = t'.idx) :
    t = t' := by
  induction t generalizing t' with
  | leaf i =>
    cases t' with
    | leaf j => rw [show i = j from hi]
    | node j l r =>
      have hij : i = j := hi
      have := h.2; rw [hij, h'.2.1] at this; cases this
  | node i l r ihl ihr =>
    cases t' with
    | leaf j =>
      have hij : i = j := hi
      have := h.2.1; rw [hij, h'.2] at this; cases this
    | node j l' r' =>
      have hij : i = j := hi
      subst hij
      obtain ⟨_, _, h1, h2, h3, h4⟩ := h
      obtain ⟨_, _, h1', h2', h3', h4'⟩ := h'
      rw [ihl h3 h3' (h1.symm.trans h1'), ihr h4 h4' (h2.symm.trans h2')]

theorem Engine.decodeFrom_congr {e e' : Engine} (h : e'.node = e.node) (r n : NodeIdx) (bits : List Bool) :
    e'.decodeFrom r n bits = e.decodeFrom r n bits := by
  induction bits generalizing n with
  | nil => rfl
  | cons x xs ih =>
    have hn : e'.nodeAt = e.nodeAt := by funext i; simp only [Engine.nodeAt, h]
    rw [Engine.decodeFrom, Engine.decodeFrom, hn]
    simp only [ih]

/-- The reference decoder, started at the top of a subtree, reads one whole path as its leaf's symbol. -/
theorem Engine.Holds.decode_path {e : Engine} {t : HTree} (h : e.Holds t) {n : NodeIdx} (hn : n.toNat = t.idx)
    (r : NodeIdx) (rest : List Bool) : ∀ c ∈ t.paths, c.2 ≠ [] →
    e.decodeFrom r n (c.2 ++ rest) = (e.decodeFrom r r rest).map ((e.nodeAt c.1).sym :: ·) := by
  induction t generalizing n with
  | leaf i => intro c hc hne; simp only [HTree.paths, List.mem_singleton] at hc; subst hc; exact absurd rfl hne
  | node i l r' ihl ihr =>
    obtain ⟨_, ht, hl, hr, hhl, hhr⟩ := h
    have hni : n.toNat = i := hn
    intro c hc _
    simp only [HTree.paths, List.mem_append, List.mem_map] at hc
    have key : ∀ (x : Bool) (u : HTree) (d : Nat × List Bool), d ∈ u.paths → e.Holds u →
        (if x then (e.nodeAt n.toNat).right else (e.nodeAt n.toNat).left).toNat = u.idx →
        (∀ {m : NodeIdx}, m.toNat = u.idx → ∀ c ∈ u.paths, c.2 ≠ [] →
          e.decodeFrom r m (c.2 ++ rest) = (e.decodeFrom r r rest).map ((e.nodeAt c.1).sym :: ·)) →
        e.decodeFrom r n (x :: d.2 ++ rest) = (e.decodeFrom r r rest).map ((e.nodeAt d.1).sym :: ·) := by
      intro x u d hd hu hx ih
      rw [List.cons_append, Engine.decodeFrom]
      cases u with
      | leaf j =>
        simp only [HTree.paths, List.mem_singleton] at hd
        subst hd
        have hxj : (if x then (e.nodeAt n.toNat).right else (e.nodeAt n.toNat).left).toNat = j := hx
        rw [hxj, hu.2]; rfl
      | node j l' r'' =>
        have hxj : (if x then (e.nodeAt n.toNat).right else (e.nodeAt n.toNat).left).toNat = j := hx
        rw [hxj, hu.2.1, if_pos rfl]
        refine ih hx d hd ?_
        intro h0
        have := HTree.code_length_pos (.node j l' r'') d hd
        rw [h0] at this; simp at this
    rcases hc with ⟨d, hd, rfl⟩ | ⟨d, hd, rfl⟩
    · exact key false l d hd hhl (by rw [hni]; exact hl) fun hm => ihl hhl hm
    · exact key true r' d hd hhr (by rw [hni]; exact hr) fun hm => ihr hhr hm

end Sys2Proof.Machine
end

