-- ==== Sys2Proof/Laws/Encoder.lean ====
section
/-! SUPPORT. Laws of emit_bit and of ENCODE's loop: everything they do to the output stream (44_encoder.md R200-R203). -/

namespace Sys2Proof.Machine

/-- Everything of the engine-owned state but OUT_MEM and OUT_BITS is the same. -/
structure SameButOutput (e e' : Engine) : Prop where
  freq : e'.freq = e.freq
  node : e'.node = e.node
  own : e'.own = e.own
  heap : e'.heap = e.heap
  heapSize : e'.heapSize = e.heapSize
  nodeCount : e'.nodeCount = e.nodeCount
  leafCount : e'.leafCount = e.leafCount
  rootValid : e'.rootValid = e.rootValid
  rootIdx : e'.rootIdx = e.rootIdx
  ct : e'.ct = e.ct
  inMem : e'.inMem = e.inMem

theorem SameButOutput.refl (e : Engine) : SameButOutput e e := ⟨rfl, rfl, rfl, rfl, rfl, rfl, rfl, rfl, rfl, rfl, rfl⟩

theorem SameButOutput.trans {a b c : Engine} (h : SameButOutput a b) (h' : SameButOutput b c) : SameButOutput a c :=
  ⟨h'.freq.trans h.freq, h'.node.trans h.node, h'.own.trans h.own, h'.heap.trans h.heap, h'.heapSize.trans h.heapSize,
    h'.nodeCount.trans h.nodeCount, h'.leafCount.trans h.leafCount, h'.rootValid.trans h.rootValid,
    h'.rootIdx.trans h.rootIdx, h'.ct.trans h.ct, h'.inMem.trans h.inMem⟩

/-- The unused low bits of the last byte, if it is not full, are 0 (44_encoder.md R200). -/
def Engine.padded (e : Engine) : Prop :=
  ∀ q, e.outBits.toNat ≤ q → q / 8 = e.outBits.toNat / 8 → e.outBits.toNat % 8 ≠ 0 → e.streamBit q = some false

/-! ## emit_bit -/

theorem emitBit_same (junk : Byte) (e : Engine) (b : Bool) : SameButOutput e (e.emitBit junk b) :=
  ⟨rfl, rfl, rfl, rfl, rfl, rfl, rfl, rfl, rfl, rfl, rfl⟩

theorem emitBit_outBits (junk : Byte) (e : Engine) (b : Bool) (h : e.outBits.toNat + 1 < 2 ^ 32) :
    (e.emitBit junk b).outBits.toNat = e.outBits.toNat + 1 := by
  show (BitVec.ofNat 32 _).toNat = _
  rw [BitVec.toNat_ofNat]; omega

/-- The byte emit_bit writes into: 0 where this is its first bit. -/
def Engine.emitOld (junk : Byte) (e : Engine) : Byte :=
  if e.outBits.toNat % 8 = 0 then 0#8 else (e.outMem.read (e.outBits.toNat / 8)).getD junk

theorem emitBit_read (junk : Byte) (e : Engine) (b : Bool) (a : Nat) :
    (e.emitBit junk b).outMem.read a =
      if a = e.outBits.toNat / 8 then some (setBit (e.emitOld junk) (7 - e.outBits.toNat % 8) b)
      else e.outMem.read a :=
  Memory.read_write _ _ _ _

theorem emitBit_wf (junk : Byte) (e : Engine) (b : Bool) (h : e.outMem.wf = true) :
    (e.emitBit junk b).outMem.wf = true := Memory.wf_write _ _ h

/-- The bits of the stream after emit_bit, in the byte it writes and elsewhere. -/
theorem emitBit_streamBit (junk : Byte) (e : Engine) (b : Bool) (q : Nat) :
    (e.emitBit junk b).streamBit q =
      if q = e.outBits.toNat then some b
      else if q / 8 = e.outBits.toNat / 8 then some ((e.emitOld junk).getLsbD (7 - q % 8))
      else e.streamBit q := by
  unfold Engine.streamBit
  rw [emitBit_read]
  by_cases hb : q / 8 = e.outBits.toNat / 8
  · rw [if_pos hb, Option.map_some, getLsbD_setBit]
    by_cases hq : q = e.outBits.toNat
    · subst hq; rw [if_pos ⟨rfl, by omega⟩, if_pos rfl]
    · rw [if_neg (by omega), if_neg hq, if_pos hb]
  · rw [if_neg hb, if_neg (by intro h; rw [h] at hb; exact hb rfl), if_neg hb]

theorem emitBit_keeps_earlier (junk : Byte) (e : Engine) (b : Bool) (q : Nat) (x : Bool) (hq : q < e.outBits.toNat)
    (hx : e.streamBit q = some x) : (e.emitBit junk b).streamBit q = some x := by
  rw [emitBit_streamBit, if_neg (by omega)]
  split
  · next hb =>
    rw [← hx, Engine.emitOld, if_neg (by omega)]
    unfold Engine.streamBit at hx ⊢
    rw [hb] at hx ⊢
    cases hr : e.outMem.read (e.outBits.toNat / 8)
    · rw [hr] at hx; cases hx
    · rfl
  · exact hx

theorem emitBit_padded (junk : Byte) (e : Engine) (b : Bool) (h : e.outBits.toNat + 1 < 2 ^ 32) (hp : e.padded) :
    (e.emitBit junk b).padded := by
  intro q h1 h2 h3
  rw [emitBit_outBits junk e b h] at h1 h2 h3
  have hq8 : q / 8 = e.outBits.toNat / 8 := by omega
  rw [emitBit_streamBit, if_neg (by omega), if_pos hq8, Engine.emitOld]
  by_cases h0 : e.outBits.toNat % 8 = 0
  · rw [if_pos h0]; simp
  · rw [if_neg h0]
    have := hp q (by omega) hq8 h0
    unfold Engine.streamBit at this
    rw [hq8] at this
    cases hr : e.outMem.read (e.outBits.toNat / 8)
    · rw [hr] at this; cases this
    · rw [hr] at this; simpa using this

/-! ## A whole code, or any run of bits -/

/-- Everything a run of emit_bit calls does. -/
theorem emitCode_spec (junk : Byte) (e : Engine) (c : List Bool) (h : e.outBits.toNat + c.length < 2 ^ 32) :
    SameButOutput e (e.emitCode junk c) ∧
      (e.emitCode junk c).outBits.toNat = e.outBits.toNat + c.length ∧
      (∀ k, k < c.length → (e.emitCode junk c).streamBit (e.outBits.toNat + k) = some (c.getD k false)) ∧
      (∀ q x, q < e.outBits.toNat → e.streamBit q = some x → (e.emitCode junk c).streamBit q = some x) ∧
      (∀ a, a < e.outBits.toNat / 8 ∨ e.outBits.toNat + c.length ≤ 8 * a →
        (e.emitCode junk c).outMem.read a = e.outMem.read a) ∧
      (e.outMem.wf = true → (e.emitCode junk c).outMem.wf = true) ∧
      (e.padded → (e.emitCode junk c).padded) := by
  induction c generalizing e with
  | nil =>
    exact ⟨SameButOutput.refl e, rfl, fun k hk => absurd hk (Nat.not_lt_zero k), fun _ _ _ hx => hx, fun _ _ => rfl, id,
      id⟩
  | cons b c ih =>
    simp only [List.length_cons] at h
    have h1 : e.outBits.toNat + 1 < 2 ^ 32 := by omega
    have hb := emitBit_outBits junk e b h1
    obtain ⟨i1, i2, i3, i4, i5, i6, i7⟩ := ih (e.emitBit junk b) (by omega)
    have hstep : e.emitCode junk (b :: c) = (e.emitBit junk b).emitCode junk c := rfl
    rw [hstep]
    rw [hb] at i2 i3 i4 i5
    refine ⟨(emitBit_same junk e b).trans i1, by rw [i2, List.length_cons]; omega, fun k hk => ?_, fun q x hq hx => ?_,
      fun a ha => ?_, fun hw => i6 (emitBit_wf junk e b hw), fun hp => i7 (emitBit_padded junk e b h1 hp)⟩
    · rw [List.length_cons] at hk
      cases k with
      | zero =>
        refine i4 _ _ (by omega) ?_
        rw [Nat.add_zero, emitBit_streamBit, if_pos rfl]; rfl
      | succ k =>
        have := i3 k (by omega)
        rw [show e.outBits.toNat + (k + 1) = e.outBits.toNat + 1 + k by omega]
        exact this
    · exact i4 q x (by omega) (emitBit_keeps_earlier junk e b q x hq hx)
    · rw [List.length_cons] at ha
      rw [i5 a (by omega), emitBit_read, if_neg (by omega)]

theorem emitCode_append (junk : Byte) (e : Engine) (c d : List Bool) :
    e.emitCode junk (c ++ d) = (e.emitCode junk c).emitCode junk d := by
  simp [Engine.emitCode]

theorem emitCode_same (junk : Byte) (e : Engine) (c : List Bool) : SameButOutput e (e.emitCode junk c) := by
  induction c generalizing e with
  | nil => exact SameButOutput.refl e
  | cons b c ih => exact (emitBit_same junk e b).trans (ih (e.emitBit junk b))

/-! ## ENCODE's loop -/

theorem Engine.codesOf_congr {e e' : Engine} (h : e'.ct = e.ct) (t : List Byte) : e'.codesOf t = e.codesOf t := by
  simp [Engine.codesOf, Engine.ctAt, h]

theorem Engine.text_congr {e e' : Engine} (h : e'.inMem = e.inMem) (start n : Nat) :
    e'.text start n = e.text start n := by
  induction n generalizing start with
  | zero => rfl
  | succ n ih => simp [Engine.text, h, ih]

theorem Engine.text_length {e : Engine} {start n : Nat} {t : List Byte} (h : e.text start n = some t) :
    t.length = n := by
  induction n generalizing start t with
  | zero => simp only [Engine.text, Option.some.injEq] at h; rw [← h]; rfl
  | succ n ih =>
    unfold Engine.text at h
    cases hr : e.inMem.read start
    · rw [hr] at h; cases h
    · rw [hr] at h
      obtain ⟨u, hu, rfl⟩ := Option.map_eq_some_iff.1 h
      rw [List.length_cons, ih hu]

/-- ENCODE's loop, when it finishes, is one run of emit_bit over the concatenated codes of the text
(44_encoder.md R202), each symbol of which has a code. -/
theorem encodeLoop_finished (ob : Nat) (junk : Byte) (n off k : Nat) (e e' : Engine) (k' : Nat)
    (h : encodeLoop ob junk n off k e = .finished e' k') (hob : 8 * ob + 1 < 2 ^ 32)
    (hb : e.outBits.toNat ≤ 8 * ob) :
    ∃ t, e.text off n = some t ∧ (∀ b ∈ t, (e.ctAt b.toNat).valid = true) ∧
      e' = e.emitCode junk (e.codesOf t) ∧ k' = k + (e.codesOf t).length ∧
      e.outBits.toNat + (e.codesOf t).length ≤ 8 * ob := by
  induction n generalizing off k e with
  | zero =>
    simp only [encodeLoop, EncodeEnd.finished.injEq] at h
    obtain ⟨rfl, rfl⟩ := h
    exact ⟨[], rfl, by simp, rfl, rfl, by simpa [Engine.codesOf] using hb⟩
  | succ n ih =>
    unfold encodeLoop at h
    cases hr : e.inMem.read off with
    | none => rw [hr] at h; cases h
    | some s =>
      rw [hr] at h
      simp only at h
      split at h
      · cases h
      · next hv =>
        split at h
        · cases h
        · next hfit =>
          have hlen : (e.ctAt s.toNat).code.length = (e.ctAt s.toNat).len.toNat := CtEntry.length_code _
          obtain ⟨s1, s2, s3, s4, s5, s6, s7⟩ := emitCode_spec junk e (e.ctAt s.toNat).code (by omega)
          obtain ⟨t, ht, hval, he, hk, hle⟩ := ih _ _ _ h (by omega)
          have hc : ∀ x : Byte, (e.emitCode junk (e.ctAt s.toNat).code).ctAt x.toNat = e.ctAt x.toNat := fun x =>
            congrArg (fun v => tget v x.toNat CtEntry.blank) s1.ct
          rw [Engine.codesOf_congr s1.ct] at he hk hle
          refine ⟨s :: t, ?_, ?_, ?_, ?_, ?_⟩
          · unfold Engine.text
            rw [hr, ← Engine.text_congr s1.inMem, ht]; rfl
          · intro b hb'
            rcases List.mem_cons.1 hb' with rfl | hb'
            · simpa using hv
            · have := hval b hb'; rwa [hc] at this
          · rw [he, ← emitCode_append]; rfl
          · rw [hk]; simp only [Engine.codesOf, List.flatMap_cons, List.length_append, CtEntry.length_code]; omega
          · rw [s2] at hle
            simp only [Engine.codesOf, List.flatMap_cons, List.length_append] at hle ⊢; omega

/-- ENCODE's loop runs through any text that has been written, whose symbols have codes and whose bits fit
(44_encoder.md R202). -/
theorem encodeLoop_runs (ob : Nat) (junk : Byte) (n off k : Nat) (e : Engine) (t : List Byte)
    (ht : e.text off n = some t) (hv : ∀ b ∈ t, (e.ctAt b.toNat).valid = true) (hob : 8 * ob + 1 < 2 ^ 32)
    (hfit : e.outBits.toNat + (e.codesOf t).length ≤ 8 * ob) :
    encodeLoop ob junk n off k e = .finished (e.emitCode junk (e.codesOf t)) (k + (e.codesOf t).length) := by
  induction n generalizing off k e t with
  | zero =>
    simp only [Engine.text, Option.some.injEq] at ht
    subst ht; rfl
  | succ n ih =>
    unfold Engine.text at ht
    cases hr : e.inMem.read off with
    | none => rw [hr] at ht; cases ht
    | some s =>
      rw [hr] at ht
      obtain ⟨u, hu, rfl⟩ := Option.map_eq_some_iff.1 ht
      have hlen : (e.ctAt s.toNat).code.length = (e.ctAt s.toNat).len.toNat := CtEntry.length_code _
      have hcat : e.codesOf (s :: u) = (e.ctAt s.toNat).code ++ e.codesOf u := rfl
      rw [hcat, List.length_append, hlen] at hfit
      obtain ⟨s1, s2, -⟩ := emitCode_spec junk e (e.ctAt s.toNat).code (by omega)
      have hc : ∀ x : Byte, (e.emitCode junk (e.ctAt s.toNat).code).ctAt x.toNat = e.ctAt x.toNat := fun x =>
        congrArg (fun v => tget v x.toNat CtEntry.blank) s1.ct
      have := ih (off + 1) (k + (e.ctAt s.toNat).len.toNat) (e.emitCode junk (e.ctAt s.toNat).code) u
        (by rw [Engine.text_congr s1.inMem]; exact hu)
        (fun b hb => by rw [hc]; exact hv b (List.mem_cons_of_mem _ hb))
        (by rw [Engine.codesOf_congr s1.ct, s2]; omega)
      rw [Engine.codesOf_congr s1.ct, ← emitCode_append, ← hcat] at this
      unfold encodeLoop
      rw [hr]
      simp only [hv s List.mem_cons_self, Bool.not_true, Bool.false_eq_true, if_false]
      rw [if_neg (by omega), this, hcat, List.length_append, hlen, Nat.add_assoc]

/-- Where the first `m` symbols encode, the loop goes on with the rest from there. -/
theorem encodeLoop_append (ob : Nat) (junk : Byte) (m n off k : Nat) (e e' : Engine) (k' : Nat)
    (h : encodeLoop ob junk m off k e = .finished e' k') :
    encodeLoop ob junk (m + n) off k e = encodeLoop ob junk n (off + m) k' e' := by
  induction m generalizing off k e with
  | zero =>
    obtain ⟨rfl, rfl⟩ := EncodeEnd.finished.inj h
    rw [Nat.zero_add, Nat.add_zero]
  | succ m ih =>
    rw [encodeLoop] at h
    rw [show m + 1 + n = m + n + 1 by omega, encodeLoop]
    cases hr : e.inMem.read off with
    | none => rw [hr] at h; cases h
    | some s =>
      rw [hr] at h
      simp only at h ⊢
      split at h
      · cases h
      · next hv =>
        split at h
        · cases h
        · next hf =>
          rw [if_neg hv, if_neg hf, ih _ _ _ h, show off + 1 + m = off + (m + 1) by omega]

/-- ENCODE's loop, when it stops with an error at `off'`, has done exactly what a loop over the symbols
before `off'` does (44_encoder.md R203). -/
theorem encodeLoop_stopped (ob : Nat) (junk : Byte) (n off k : Nat) (e e' : Engine) (x : ErrCode) (off' : Nat)
    (s : Byte) (h : encodeLoop ob junk n off k e = .stopped x e' off' s) :
    ∃ m k', m < n ∧ off' = off + m ∧ encodeLoop ob junk m off k e = .finished e' k' ∧
      e'.inMem.read off' = some s ∧
      ((x = .symbolNotFound ∧ (e'.ctAt s.toNat).valid = false) ∨
        (x = .outOverflow ∧ (e'.ctAt s.toNat).valid = true ∧
          8 * ob < e'.outBits.toNat + (e'.ctAt s.toNat).len.toNat)) := by
  induction n generalizing off k e with
  | zero => cases h
  | succ n ih =>
    unfold encodeLoop at h
    cases hr : e.inMem.read off with
    | none => rw [hr] at h; cases h
    | some s0 =>
      rw [hr] at h
      simp only at h
      split at h
      · next hv =>
        obtain ⟨rfl, rfl, rfl, rfl⟩ := EncodeEnd.stopped.inj h
        exact ⟨0, k, by omega, rfl, rfl, hr, .inl ⟨rfl, by simpa using hv⟩⟩
      · next hv =>
        split at h
        · next hfit =>
          obtain ⟨rfl, rfl, rfl, rfl⟩ := EncodeEnd.stopped.inj h
          exact ⟨0, k, by omega, rfl, rfl, hr, .inr ⟨rfl, by simpa using hv, hfit⟩⟩
        · next hfit =>
          obtain ⟨m, k', h1, h2, h3, h4⟩ := ih _ _ _ h
          refine ⟨m + 1, k', by omega, by omega, ?_, h4⟩
          rw [encodeLoop, hr]
          simp only [hv, hfit, if_false]
          exact h3

/-- ENCODE's loop faults only at a byte of its range that nothing has written (44_encoder.md R204). -/
theorem encodeLoop_unwritten (ob : Nat) (junk : Byte) (n off k : Nat) (e : Engine) (off' : Nat)
    (h : encodeLoop ob junk n off k e = .unwritten off') :
    off ≤ off' ∧ off' < off + n ∧ e.inMem.read off' = none := by
  induction n generalizing off k e with
  | zero => cases h
  | succ n ih =>
    unfold encodeLoop at h
    cases hr : e.inMem.read off with
    | none =>
      rw [hr] at h
      obtain rfl := EncodeEnd.unwritten.inj h
      exact ⟨le_rfl, by omega, hr⟩
    | some s0 =>
      rw [hr] at h
      simp only at h
      split at h
      · cases h
      · split at h
        · cases h
        · obtain ⟨h1, h2, h3⟩ := ih _ _ _ h
          refine ⟨by omega, by omega, ?_⟩
          rwa [(emitCode_same junk e _).inMem] at h3

/-! ## Lengths, and the byte that no run needs -/

/-- The length of the concatenated codes is the sum of the LENs. -/
theorem Engine.codesOf_length (e : Engine) (t : List Byte) : (e.codesOf t).length =
    (t.map fun b => (e.ctAt b.toNat).len.toNat).sum := by
  induction t with
  | nil => rfl
  | cons b t ih => simp [Engine.codesOf, List.length_flatMap]

/-- Where every byte of the stream has been written, emit_bit does not read its free byte (log 6). -/
theorem emitBit_junk (j j' : Byte) {e : Engine} (b : Bool) (h : ∀ a,
    8 * a < e.outBits.toNat → (e.outMem.read a).isSome = true) :
    e.emitBit j b = e.emitBit j' b := by
  unfold Engine.emitBit
  by_cases h8 : e.outBits.toNat % 8 = 0
  · simp only [if_pos h8]
  · simp only [if_neg h8]
    obtain ⟨y, hy⟩ := Option.isSome_iff_exists.1 (h (e.outBits.toNat / 8) (by omega))
    rw [hy]; rfl

theorem emitBit_written (j : Byte) {e : Engine} (b : Bool) (h : ∀ a,
    8 * a < e.outBits.toNat → (e.outMem.read a).isSome = true) :
    ∀ a, 8 * a < (e.emitBit j b).outBits.toNat → ((e.emitBit j b).outMem.read a).isSome = true := by
  intro a ha
  rw [emitBit_read]
  split
  · rfl
  · next hne =>
    refine h a ?_
    have : (e.emitBit j b).outBits.toNat ≤ e.outBits.toNat + 1 := by
      show (BitVec.ofNat 32 _).toNat ≤ _
      rw [BitVec.toNat_ofNat]; exact Nat.mod_le _ _
    omega

theorem emitCode_junk (j j' : Byte) {e : Engine} (c : List Bool) (h : ∀ a,
    8 * a < e.outBits.toNat → (e.outMem.read a).isSome = true) :
    e.emitCode j c = e.emitCode j' c ∧ ∀ a, 8 * a < (e.emitCode j c).outBits.toNat →
      ((e.emitCode j c).outMem.read a).isSome = true := by
  induction c generalizing e with
  | nil => exact ⟨rfl, h⟩
  | cons b c ih =>
    have := ih (emitBit_written j b h)
    refine ⟨?_, this.2⟩
    show (e.emitBit j b).emitCode j c = (e.emitBit j' b).emitCode j' c
    rw [← emitBit_junk j j' b h]; exact this.1

/-- Where every byte of the stream has been written, ENCODE does not depend on the free byte (log 6). -/
theorem encodeLoop_junk (ob : Nat) (j j' : Byte) (n off k : Nat) {e : Engine} (h : ∀ a,
    8 * a < e.outBits.toNat → (e.outMem.read a).isSome = true) :
    encodeLoop ob j n off k e = encodeLoop ob j' n off k e := by
  induction n generalizing off k e with
  | zero => rfl
  | succ n ih =>
    unfold encodeLoop
    cases e.inMem.read off with
    | none => rfl
    | some s =>
      have hc := emitCode_junk j j' (e.ctAt s.toNat).code h
      simp only
      rw [← hc.1, ih (off + 1) _ hc.2]

end Sys2Proof.Machine
end

