-- ==== Sys2Proof/Laws/State.lean ====
section
/-! SUPPORT. One lemma per field per update of the state and of the engine-owned state, each true by unfolding, so that no later proof unfolds a record update. -/

namespace Sys2Proof.Machine

/-! ## A completion -/

@[simp] theorem State.complete_params (x : State) (c : Completion) : (x.complete c).params = x.params := rfl
@[simp] theorem State.complete_eng (x : State) (c : Completion) : (x.complete c).eng = c.eng := rfl
@[simp] theorem State.complete_phase (x : State) (c : Completion) : (x.complete c).phase = .idle := rfl
@[simp] theorem State.complete_ie (x : State) (c : Completion) : (x.complete c).ie = x.ie := rfl
@[simp] theorem State.complete_done (x : State) (c : Completion) : (x.complete c).done = true := rfl
@[simp] theorem State.complete_overrun (x : State) (c : Completion) : (x.complete c).overrun = x.overrun := rfl
@[simp] theorem State.complete_err (x : State) (c : Completion) : (x.complete c).err = errNumber c.err := rfl
@[simp] theorem State.complete_arg0 (x : State) (c : Completion) : (x.complete c).arg0 = x.arg0 := rfl
@[simp] theorem State.complete_arg1 (x : State) (c : Completion) : (x.complete c).arg1 = x.arg1 := rfl
@[simp] theorem State.complete_res0 (x : State) (c : Completion) : (x.complete c).res0 = c.r0 := rfl
@[simp] theorem State.complete_res1 (x : State) (c : Completion) : (x.complete c).res1 = c.r1 := rfl
@[simp] theorem State.complete_cmdL (x : State) (c : Completion) : (x.complete c).cmdL = x.cmdL := rfl
@[simp] theorem State.complete_arg0L (x : State) (c : Completion) : (x.complete c).arg0L = x.arg0L := rfl
@[simp] theorem State.complete_arg1L (x : State) (c : Completion) : (x.complete c).arg1L = x.arg1L := rfl
@[simp] theorem State.complete_host (x : State) (c : Completion) : (x.complete c).host = x.host := rfl
@[simp] theorem State.complete_resp (x : State) (c : Completion) : (x.complete c).resp = x.resp := rfl
@[simp] theorem State.complete_starts (x : State) (c : Completion) : (x.complete c).starts = x.starts := rfl
@[simp] theorem State.complete_busyMoves (x : State) (c : Completion) : (x.complete c).busyMoves = x.busyMoves := rfl
@[simp] theorem State.complete_draws (x : State) (c : Completion) : (x.complete c).draws = x.draws := rfl

/-! ## The completion of an ILLEGAL word -/

@[simp] theorem State.completeIllegal_params (x : State) : (x.completeIllegal).params = x.params := rfl
@[simp] theorem State.completeIllegal_eng (x : State) : (x.completeIllegal).eng = x.eng := rfl
@[simp] theorem State.completeIllegal_phase (x : State) : (x.completeIllegal).phase = .idle := rfl
@[simp] theorem State.completeIllegal_ie (x : State) : (x.completeIllegal).ie = x.ie := rfl
@[simp] theorem State.completeIllegal_done (x : State) : (x.completeIllegal).done = true := rfl
@[simp] theorem State.completeIllegal_overrun (x : State) : (x.completeIllegal).overrun = x.overrun := rfl
@[simp] theorem State.completeIllegal_err (x : State) : (x.completeIllegal).err = 0x4#4 := rfl
@[simp] theorem State.completeIllegal_arg0 (x : State) : (x.completeIllegal).arg0 = x.arg0 := rfl
@[simp] theorem State.completeIllegal_arg1 (x : State) : (x.completeIllegal).arg1 = x.arg1 := rfl
@[simp] theorem State.completeIllegal_res0 (x : State) : (x.completeIllegal).res0 = 0#32 := rfl
@[simp] theorem State.completeIllegal_res1 (x : State) : (x.completeIllegal).res1 = 0#32 := rfl
@[simp] theorem State.completeIllegal_cmdL (x : State) : (x.completeIllegal).cmdL = x.cmdL := rfl
@[simp] theorem State.completeIllegal_arg0L (x : State) : (x.completeIllegal).arg0L = x.arg0L := rfl
@[simp] theorem State.completeIllegal_arg1L (x : State) : (x.completeIllegal).arg1L = x.arg1L := rfl
@[simp] theorem State.completeIllegal_host (x : State) : (x.completeIllegal).host = x.host := rfl
@[simp] theorem State.completeIllegal_resp (x : State) : (x.completeIllegal).resp = x.resp := rfl
@[simp] theorem State.completeIllegal_starts (x : State) : (x.completeIllegal).starts = x.starts := rfl
@[simp] theorem State.completeIllegal_busyMoves (x : State) : (x.completeIllegal).busyMoves = x.busyMoves := rfl
@[simp] theorem State.completeIllegal_draws (x : State) : (x.completeIllegal).draws = x.draws := rfl

/-! ## Acceptance -/

@[simp] theorem State.accept_params (x : State) (v : Word) : (x.accept v).params = x.params := rfl
@[simp] theorem State.accept_eng (x : State) (v : Word) : (x.accept v).eng = x.eng := rfl
@[simp] theorem State.accept_phase (x : State) (v : Word) : (x.accept v).phase = .busy := rfl
@[simp] theorem State.accept_ie (x : State) (v : Word) : (x.accept v).ie = x.ie := rfl
@[simp] theorem State.accept_done (x : State) (v : Word) : (x.accept v).done = false := rfl
@[simp] theorem State.accept_overrun (x : State) (v : Word) : (x.accept v).overrun = x.overrun := rfl
@[simp] theorem State.accept_err (x : State) (v : Word) : (x.accept v).err = 0#4 := rfl
@[simp] theorem State.accept_arg0 (x : State) (v : Word) : (x.accept v).arg0 = x.arg0 := rfl
@[simp] theorem State.accept_arg1 (x : State) (v : Word) : (x.accept v).arg1 = x.arg1 := rfl
@[simp] theorem State.accept_res0 (x : State) (v : Word) : (x.accept v).res0 = x.res0 := rfl
@[simp] theorem State.accept_res1 (x : State) (v : Word) : (x.accept v).res1 = x.res1 := rfl
@[simp] theorem State.accept_cmdL (x : State) (v : Word) : (x.accept v).cmdL = v := rfl
@[simp] theorem State.accept_arg0L (x : State) (v : Word) : (x.accept v).arg0L = x.arg0 := rfl
@[simp] theorem State.accept_arg1L (x : State) (v : Word) : (x.accept v).arg1L = x.arg1 := rfl
@[simp] theorem State.accept_host (x : State) (v : Word) : (x.accept v).host = x.host := rfl
@[simp] theorem State.accept_resp (x : State) (v : Word) : (x.accept v).resp = x.resp := rfl
@[simp] theorem State.accept_starts (x : State) (v : Word) : (x.accept v).starts = x.starts + 1 := rfl
@[simp] theorem State.accept_busyMoves (x : State) (v : Word) : (x.accept v).busyMoves = 0 := rfl
@[simp] theorem State.accept_draws (x : State) (v : Word) : (x.accept v).draws = x.draws := rfl

/-! ## The initialisation step -/

@[simp] theorem State.initStep_params (x : State) : (x.initStep).params = x.params := rfl
@[simp] theorem State.initStep_eng (x : State) : (x.initStep).eng = x.eng.cleared := rfl
@[simp] theorem State.initStep_phase (x : State) : (x.initStep).phase = .idle := rfl
@[simp] theorem State.initStep_ie (x : State) : (x.initStep).ie = x.ie := rfl
@[simp] theorem State.initStep_done (x : State) : (x.initStep).done = x.done := rfl
@[simp] theorem State.initStep_overrun (x : State) : (x.initStep).overrun = x.overrun := rfl
@[simp] theorem State.initStep_err (x : State) : (x.initStep).err = x.err := rfl
@[simp] theorem State.initStep_arg0 (x : State) : (x.initStep).arg0 = x.arg0 := rfl
@[simp] theorem State.initStep_arg1 (x : State) : (x.initStep).arg1 = x.arg1 := rfl
@[simp] theorem State.initStep_res0 (x : State) : (x.initStep).res0 = x.res0 := rfl
@[simp] theorem State.initStep_res1 (x : State) : (x.initStep).res1 = x.res1 := rfl
@[simp] theorem State.initStep_cmdL (x : State) : (x.initStep).cmdL = x.cmdL := rfl
@[simp] theorem State.initStep_arg0L (x : State) : (x.initStep).arg0L = x.arg0L := rfl
@[simp] theorem State.initStep_arg1L (x : State) : (x.initStep).arg1L = x.arg1L := rfl
@[simp] theorem State.initStep_host (x : State) : (x.initStep).host = x.host := rfl
@[simp] theorem State.initStep_resp (x : State) : (x.initStep).resp = x.resp := rfl
@[simp] theorem State.initStep_starts (x : State) : (x.initStep).starts = x.starts := rfl
@[simp] theorem State.initStep_busyMoves (x : State) : (x.initStep).busyMoves = x.busyMoves := rfl
@[simp] theorem State.initStep_draws (x : State) : (x.initStep).draws = x.draws := rfl

/-! ## Hardware reset -/

@[simp] theorem State.hardReset_params (x : State) : (x.hardReset).params = x.params := rfl
@[simp] theorem State.hardReset_eng (x : State) : (x.hardReset).eng = Engine.reset := rfl
@[simp] theorem State.hardReset_phase (x : State) : (x.hardReset).phase = .init := rfl
@[simp] theorem State.hardReset_ie (x : State) : (x.hardReset).ie = false := rfl
@[simp] theorem State.hardReset_done (x : State) : (x.hardReset).done = false := rfl
@[simp] theorem State.hardReset_overrun (x : State) : (x.hardReset).overrun = false := rfl
@[simp] theorem State.hardReset_err (x : State) : (x.hardReset).err = 0#4 := rfl
@[simp] theorem State.hardReset_arg0 (x : State) : (x.hardReset).arg0 = 0#32 := rfl
@[simp] theorem State.hardReset_arg1 (x : State) : (x.hardReset).arg1 = 0#32 := rfl
@[simp] theorem State.hardReset_res0 (x : State) : (x.hardReset).res0 = 0#32 := rfl
@[simp] theorem State.hardReset_res1 (x : State) : (x.hardReset).res1 = 0#32 := rfl
@[simp] theorem State.hardReset_cmdL (x : State) : (x.hardReset).cmdL = 0#32 := rfl
@[simp] theorem State.hardReset_arg0L (x : State) : (x.hardReset).arg0L = 0#32 := rfl
@[simp] theorem State.hardReset_arg1L (x : State) : (x.hardReset).arg1L = 0#32 := rfl
@[simp] theorem State.hardReset_host (x : State) : (x.hardReset).host = x.host := rfl
@[simp] theorem State.hardReset_resp (x : State) : (x.hardReset).resp = x.resp := rfl
@[simp] theorem State.hardReset_starts (x : State) : (x.hardReset).starts = x.starts + 1 := rfl
@[simp] theorem State.hardReset_busyMoves (x : State) : (x.hardReset).busyMoves = 0 := rfl
@[simp] theorem State.hardReset_draws (x : State) : (x.hardReset).draws = x.draws := rfl

/-! ## STATUS, CTRL and OVERRUN -/

@[simp] theorem State.writeStatus_params (x : State) (d : Word) : (x.writeStatus d).params = x.params := rfl
@[simp] theorem State.writeStatus_eng (x : State) (d : Word) : (x.writeStatus d).eng = x.eng := rfl
@[simp] theorem State.writeStatus_phase (x : State) (d : Word) : (x.writeStatus d).phase = x.phase := rfl
@[simp] theorem State.writeStatus_ie (x : State) (d : Word) : (x.writeStatus d).ie = x.ie := rfl
@[simp] theorem State.writeStatus_done (x : State) (d : Word) : (x.writeStatus d).done = (x.done && !d.getLsbD 1) := rfl
@[simp] theorem State.writeStatus_overrun (x : State) (d : Word) : (x.writeStatus d).overrun = (x.overrun && !d.getLsbD 2) := rfl
@[simp] theorem State.writeStatus_err (x : State) (d : Word) : (x.writeStatus d).err = x.err := rfl
@[simp] theorem State.writeStatus_arg0 (x : State) (d : Word) : (x.writeStatus d).arg0 = x.arg0 := rfl
@[simp] theorem State.writeStatus_arg1 (x : State) (d : Word) : (x.writeStatus d).arg1 = x.arg1 := rfl
@[simp] theorem State.writeStatus_res0 (x : State) (d : Word) : (x.writeStatus d).res0 = x.res0 := rfl
@[simp] theorem State.writeStatus_res1 (x : State) (d : Word) : (x.writeStatus d).res1 = x.res1 := rfl
@[simp] theorem State.writeStatus_cmdL (x : State) (d : Word) : (x.writeStatus d).cmdL = x.cmdL := rfl
@[simp] theorem State.writeStatus_arg0L (x : State) (d : Word) : (x.writeStatus d).arg0L = x.arg0L := rfl
@[simp] theorem State.writeStatus_arg1L (x : State) (d : Word) : (x.writeStatus d).arg1L = x.arg1L := rfl
@[simp] theorem State.writeStatus_host (x : State) (d : Word) : (x.writeStatus d).host = x.host := rfl
@[simp] theorem State.writeStatus_resp (x : State) (d : Word) : (x.writeStatus d).resp = x.resp := rfl
@[simp] theorem State.writeStatus_starts (x : State) (d : Word) : (x.writeStatus d).starts = x.starts := rfl
@[simp] theorem State.writeStatus_busyMoves (x : State) (d : Word) : (x.writeStatus d).busyMoves = x.busyMoves := rfl
@[simp] theorem State.writeStatus_draws (x : State) (d : Word) : (x.writeStatus d).draws = x.draws := rfl
@[simp] theorem State.writeCtrl_params (x : State) (d : Word) : (x.writeCtrl d).params = x.params := rfl
@[simp] theorem State.writeCtrl_eng (x : State) (d : Word) : (x.writeCtrl d).eng = x.eng := rfl
@[simp] theorem State.writeCtrl_phase (x : State) (d : Word) : (x.writeCtrl d).phase = x.phase := rfl
@[simp] theorem State.writeCtrl_ie (x : State) (d : Word) : (x.writeCtrl d).ie = d.getLsbD 0 := rfl
@[simp] theorem State.writeCtrl_done (x : State) (d : Word) : (x.writeCtrl d).done = x.done := rfl
@[simp] theorem State.writeCtrl_overrun (x : State) (d : Word) : (x.writeCtrl d).overrun = x.overrun := rfl
@[simp] theorem State.writeCtrl_err (x : State) (d : Word) : (x.writeCtrl d).err = x.err := rfl
@[simp] theorem State.writeCtrl_arg0 (x : State) (d : Word) : (x.writeCtrl d).arg0 = x.arg0 := rfl
@[simp] theorem State.writeCtrl_arg1 (x : State) (d : Word) : (x.writeCtrl d).arg1 = x.arg1 := rfl
@[simp] theorem State.writeCtrl_res0 (x : State) (d : Word) : (x.writeCtrl d).res0 = x.res0 := rfl
@[simp] theorem State.writeCtrl_res1 (x : State) (d : Word) : (x.writeCtrl d).res1 = x.res1 := rfl
@[simp] theorem State.writeCtrl_cmdL (x : State) (d : Word) : (x.writeCtrl d).cmdL = x.cmdL := rfl
@[simp] theorem State.writeCtrl_arg0L (x : State) (d : Word) : (x.writeCtrl d).arg0L = x.arg0L := rfl
@[simp] theorem State.writeCtrl_arg1L (x : State) (d : Word) : (x.writeCtrl d).arg1L = x.arg1L := rfl
@[simp] theorem State.writeCtrl_host (x : State) (d : Word) : (x.writeCtrl d).host = x.host := rfl
@[simp] theorem State.writeCtrl_resp (x : State) (d : Word) : (x.writeCtrl d).resp = x.resp := rfl
@[simp] theorem State.writeCtrl_starts (x : State) (d : Word) : (x.writeCtrl d).starts = x.starts := rfl
@[simp] theorem State.writeCtrl_busyMoves (x : State) (d : Word) : (x.writeCtrl d).busyMoves = x.busyMoves := rfl
@[simp] theorem State.writeCtrl_draws (x : State) (d : Word) : (x.writeCtrl d).draws = x.draws := rfl
@[simp] theorem State.setOverrun_params (x : State) : (x.setOverrun).params = x.params := rfl
@[simp] theorem State.setOverrun_eng (x : State) : (x.setOverrun).eng = x.eng := rfl
@[simp] theorem State.setOverrun_phase (x : State) : (x.setOverrun).phase = x.phase := rfl
@[simp] theorem State.setOverrun_ie (x : State) : (x.setOverrun).ie = x.ie := rfl
@[simp] theorem State.setOverrun_done (x : State) : (x.setOverrun).done = x.done := rfl
@[simp] theorem State.setOverrun_overrun (x : State) : (x.setOverrun).overrun = true := rfl
@[simp] theorem State.setOverrun_err (x : State) : (x.setOverrun).err = x.err := rfl
@[simp] theorem State.setOverrun_arg0 (x : State) : (x.setOverrun).arg0 = x.arg0 := rfl
@[simp] theorem State.setOverrun_arg1 (x : State) : (x.setOverrun).arg1 = x.arg1 := rfl
@[simp] theorem State.setOverrun_res0 (x : State) : (x.setOverrun).res0 = x.res0 := rfl
@[simp] theorem State.setOverrun_res1 (x : State) : (x.setOverrun).res1 = x.res1 := rfl
@[simp] theorem State.setOverrun_cmdL (x : State) : (x.setOverrun).cmdL = x.cmdL := rfl
@[simp] theorem State.setOverrun_arg0L (x : State) : (x.setOverrun).arg0L = x.arg0L := rfl
@[simp] theorem State.setOverrun_arg1L (x : State) : (x.setOverrun).arg1L = x.arg1L := rfl
@[simp] theorem State.setOverrun_host (x : State) : (x.setOverrun).host = x.host := rfl
@[simp] theorem State.setOverrun_resp (x : State) : (x.setOverrun).resp = x.resp := rfl
@[simp] theorem State.setOverrun_starts (x : State) : (x.setOverrun).starts = x.starts := rfl
@[simp] theorem State.setOverrun_busyMoves (x : State) : (x.setOverrun).busyMoves = x.busyMoves := rfl
@[simp] theorem State.setOverrun_draws (x : State) : (x.setOverrun).draws = x.draws := rfl

/-! ## A bus read -/

@[simp] theorem State.busRead_params (x : State) (a : BusAddr) : (x.busRead a).params = x.params := rfl
@[simp] theorem State.busRead_eng (x : State) (a : BusAddr) : (x.busRead a).eng = x.eng := rfl
@[simp] theorem State.busRead_phase (x : State) (a : BusAddr) : (x.busRead a).phase = x.phase := rfl
@[simp] theorem State.busRead_ie (x : State) (a : BusAddr) : (x.busRead a).ie = x.ie := rfl
@[simp] theorem State.busRead_done (x : State) (a : BusAddr) : (x.busRead a).done = x.done := rfl
@[simp] theorem State.busRead_overrun (x : State) (a : BusAddr) : (x.busRead a).overrun = x.overrun := rfl
@[simp] theorem State.busRead_err (x : State) (a : BusAddr) : (x.busRead a).err = x.err := rfl
@[simp] theorem State.busRead_arg0 (x : State) (a : BusAddr) : (x.busRead a).arg0 = x.arg0 := rfl
@[simp] theorem State.busRead_arg1 (x : State) (a : BusAddr) : (x.busRead a).arg1 = x.arg1 := rfl
@[simp] theorem State.busRead_res0 (x : State) (a : BusAddr) : (x.busRead a).res0 = x.res0 := rfl
@[simp] theorem State.busRead_res1 (x : State) (a : BusAddr) : (x.busRead a).res1 = x.res1 := rfl
@[simp] theorem State.busRead_cmdL (x : State) (a : BusAddr) : (x.busRead a).cmdL = x.cmdL := rfl
@[simp] theorem State.busRead_arg0L (x : State) (a : BusAddr) : (x.busRead a).arg0L = x.arg0L := rfl
@[simp] theorem State.busRead_arg1L (x : State) (a : BusAddr) : (x.busRead a).arg1L = x.arg1L := rfl
@[simp] theorem State.busRead_host (x : State) (a : BusAddr) : (x.busRead a).host = x.host := rfl
@[simp] theorem State.busRead_resp (x : State) (a : BusAddr) : (x.busRead a).resp = some (.readDone (x.busData (region x.params a)) (x.busError (region x.params a))) := rfl
@[simp] theorem State.busRead_starts (x : State) (a : BusAddr) : (x.busRead a).starts = x.starts := rfl
@[simp] theorem State.busRead_busyMoves (x : State) (a : BusAddr) : (x.busRead a).busyMoves = x.busyMoves := rfl
@[simp] theorem State.busRead_draws (x : State) (a : BusAddr) : (x.busRead a).draws = x.draws + 4 := rfl

/-! ## Clearing -/

@[simp] theorem Engine.cleared_freq (x : Engine) : (x.cleared).freq = Vector.replicate 256 0#32 := rfl
@[simp] theorem Engine.cleared_node (x : Engine) : (x.cleared).node = x.node := rfl
@[simp] theorem Engine.cleared_own (x : Engine) : (x.cleared).own = x.own := rfl
@[simp] theorem Engine.cleared_heap (x : Engine) : (x.cleared).heap = x.heap := rfl
@[simp] theorem Engine.cleared_heapSize (x : Engine) : (x.cleared).heapSize = 0#9 := rfl
@[simp] theorem Engine.cleared_nodeCount (x : Engine) : (x.cleared).nodeCount = 0#10 := rfl
@[simp] theorem Engine.cleared_leafCount (x : Engine) : (x.cleared).leafCount = 0#9 := rfl
@[simp] theorem Engine.cleared_rootValid (x : Engine) : (x.cleared).rootValid = false := rfl
@[simp] theorem Engine.cleared_rootIdx (x : Engine) : (x.cleared).rootIdx = 0#9 := rfl
@[simp] theorem Engine.cleared_ct (x : Engine) : (x.cleared).ct = Vector.replicate 256 CtEntry.blank := rfl
@[simp] theorem Engine.cleared_inMem (x : Engine) : (x.cleared).inMem = x.inMem := rfl
@[simp] theorem Engine.cleared_outMem (x : Engine) : (x.cleared).outMem = x.outMem := rfl
@[simp] theorem Engine.cleared_outBits (x : Engine) : (x.cleared).outBits = 0#32 := rfl
@[simp] theorem Engine.ctCleared_freq (x : Engine) : (x.ctCleared).freq = x.freq := rfl
@[simp] theorem Engine.ctCleared_node (x : Engine) : (x.ctCleared).node = x.node := rfl
@[simp] theorem Engine.ctCleared_own (x : Engine) : (x.ctCleared).own = x.own := rfl
@[simp] theorem Engine.ctCleared_heap (x : Engine) : (x.ctCleared).heap = x.heap := rfl
@[simp] theorem Engine.ctCleared_heapSize (x : Engine) : (x.ctCleared).heapSize = x.heapSize := rfl
@[simp] theorem Engine.ctCleared_nodeCount (x : Engine) : (x.ctCleared).nodeCount = x.nodeCount := rfl
@[simp] theorem Engine.ctCleared_leafCount (x : Engine) : (x.ctCleared).leafCount = x.leafCount := rfl
@[simp] theorem Engine.ctCleared_rootValid (x : Engine) : (x.ctCleared).rootValid = x.rootValid := rfl
@[simp] theorem Engine.ctCleared_rootIdx (x : Engine) : (x.ctCleared).rootIdx = x.rootIdx := rfl
@[simp] theorem Engine.ctCleared_ct (x : Engine) : (x.ctCleared).ct = Vector.replicate 256 CtEntry.blank := rfl
@[simp] theorem Engine.ctCleared_inMem (x : Engine) : (x.ctCleared).inMem = x.inMem := rfl
@[simp] theorem Engine.ctCleared_outMem (x : Engine) : (x.ctCleared).outMem = x.outMem := rfl
@[simp] theorem Engine.ctCleared_outBits (x : Engine) : (x.ctCleared).outBits = x.outBits := rfl

/-! ## One entry of an array -/

@[simp] theorem Engine.setFreq_freq (x : Engine) (i : Nat) (w : Word) : (x.setFreq i w).freq = tset x.freq i w := rfl
@[simp] theorem Engine.setFreq_node (x : Engine) (i : Nat) (w : Word) : (x.setFreq i w).node = x.node := rfl
@[simp] theorem Engine.setFreq_own (x : Engine) (i : Nat) (w : Word) : (x.setFreq i w).own = x.own := rfl
@[simp] theorem Engine.setFreq_heap (x : Engine) (i : Nat) (w : Word) : (x.setFreq i w).heap = x.heap := rfl
@[simp] theorem Engine.setFreq_heapSize (x : Engine) (i : Nat) (w : Word) : (x.setFreq i w).heapSize = x.heapSize := rfl
@[simp] theorem Engine.setFreq_nodeCount (x : Engine) (i : Nat) (w : Word) : (x.setFreq i w).nodeCount = x.nodeCount := rfl
@[simp] theorem Engine.setFreq_leafCount (x : Engine) (i : Nat) (w : Word) : (x.setFreq i w).leafCount = x.leafCount := rfl
@[simp] theorem Engine.setFreq_rootValid (x : Engine) (i : Nat) (w : Word) : (x.setFreq i w).rootValid = x.rootValid := rfl
@[simp] theorem Engine.setFreq_rootIdx (x : Engine) (i : Nat) (w : Word) : (x.setFreq i w).rootIdx = x.rootIdx := rfl
@[simp] theorem Engine.setFreq_ct (x : Engine) (i : Nat) (w : Word) : (x.setFreq i w).ct = x.ct := rfl
@[simp] theorem Engine.setFreq_inMem (x : Engine) (i : Nat) (w : Word) : (x.setFreq i w).inMem = x.inMem := rfl
@[simp] theorem Engine.setFreq_outMem (x : Engine) (i : Nat) (w : Word) : (x.setFreq i w).outMem = x.outMem := rfl
@[simp] theorem Engine.setFreq_outBits (x : Engine) (i : Nat) (w : Word) : (x.setFreq i w).outBits = x.outBits := rfl
@[simp] theorem Engine.setOwn_freq (x : Engine) (i : Nat) (w : Own) : (x.setOwn i w).freq = x.freq := rfl
@[simp] theorem Engine.setOwn_node (x : Engine) (i : Nat) (w : Own) : (x.setOwn i w).node = x.node := rfl
@[simp] theorem Engine.setOwn_own (x : Engine) (i : Nat) (w : Own) : (x.setOwn i w).own = tset x.own i w := rfl
@[simp] theorem Engine.setOwn_heap (x : Engine) (i : Nat) (w : Own) : (x.setOwn i w).heap = x.heap := rfl
@[simp] theorem Engine.setOwn_heapSize (x : Engine) (i : Nat) (w : Own) : (x.setOwn i w).heapSize = x.heapSize := rfl
@[simp] theorem Engine.setOwn_nodeCount (x : Engine) (i : Nat) (w : Own) : (x.setOwn i w).nodeCount = x.nodeCount := rfl
@[simp] theorem Engine.setOwn_leafCount (x : Engine) (i : Nat) (w : Own) : (x.setOwn i w).leafCount = x.leafCount := rfl
@[simp] theorem Engine.setOwn_rootValid (x : Engine) (i : Nat) (w : Own) : (x.setOwn i w).rootValid = x.rootValid := rfl
@[simp] theorem Engine.setOwn_rootIdx (x : Engine) (i : Nat) (w : Own) : (x.setOwn i w).rootIdx = x.rootIdx := rfl
@[simp] theorem Engine.setOwn_ct (x : Engine) (i : Nat) (w : Own) : (x.setOwn i w).ct = x.ct := rfl
@[simp] theorem Engine.setOwn_inMem (x : Engine) (i : Nat) (w : Own) : (x.setOwn i w).inMem = x.inMem := rfl
@[simp] theorem Engine.setOwn_outMem (x : Engine) (i : Nat) (w : Own) : (x.setOwn i w).outMem = x.outMem := rfl
@[simp] theorem Engine.setOwn_outBits (x : Engine) (i : Nat) (w : Own) : (x.setOwn i w).outBits = x.outBits := rfl
@[simp] theorem Engine.setCt_freq (x : Engine) (i : Nat) (c : CtEntry) : (x.setCt i c).freq = x.freq := rfl
@[simp] theorem Engine.setCt_node (x : Engine) (i : Nat) (c : CtEntry) : (x.setCt i c).node = x.node := rfl
@[simp] theorem Engine.setCt_own (x : Engine) (i : Nat) (c : CtEntry) : (x.setCt i c).own = x.own := rfl
@[simp] theorem Engine.setCt_heap (x : Engine) (i : Nat) (c : CtEntry) : (x.setCt i c).heap = x.heap := rfl
@[simp] theorem Engine.setCt_heapSize (x : Engine) (i : Nat) (c : CtEntry) : (x.setCt i c).heapSize = x.heapSize := rfl
@[simp] theorem Engine.setCt_nodeCount (x : Engine) (i : Nat) (c : CtEntry) : (x.setCt i c).nodeCount = x.nodeCount := rfl
@[simp] theorem Engine.setCt_leafCount (x : Engine) (i : Nat) (c : CtEntry) : (x.setCt i c).leafCount = x.leafCount := rfl
@[simp] theorem Engine.setCt_rootValid (x : Engine) (i : Nat) (c : CtEntry) : (x.setCt i c).rootValid = x.rootValid := rfl
@[simp] theorem Engine.setCt_rootIdx (x : Engine) (i : Nat) (c : CtEntry) : (x.setCt i c).rootIdx = x.rootIdx := rfl
@[simp] theorem Engine.setCt_ct (x : Engine) (i : Nat) (c : CtEntry) : (x.setCt i c).ct = tset x.ct i c := rfl
@[simp] theorem Engine.setCt_inMem (x : Engine) (i : Nat) (c : CtEntry) : (x.setCt i c).inMem = x.inMem := rfl
@[simp] theorem Engine.setCt_outMem (x : Engine) (i : Nat) (c : CtEntry) : (x.setCt i c).outMem = x.outMem := rfl
@[simp] theorem Engine.setCt_outBits (x : Engine) (i : Nat) (c : CtEntry) : (x.setCt i c).outBits = x.outBits := rfl

/-! ## The root -/

@[simp] theorem Engine.selectRoot_freq (x : Engine) (n : NodeIdx) : (x.selectRoot n).freq = x.freq := rfl
@[simp] theorem Engine.selectRoot_node (x : Engine) (n : NodeIdx) : (x.selectRoot n).node = x.node := rfl
@[simp] theorem Engine.selectRoot_own (x : Engine) (n : NodeIdx) : (x.selectRoot n).own = tset x.own n.toNat .rooted := rfl
@[simp] theorem Engine.selectRoot_heap (x : Engine) (n : NodeIdx) : (x.selectRoot n).heap = x.heap := rfl
@[simp] theorem Engine.selectRoot_heapSize (x : Engine) (n : NodeIdx) : (x.selectRoot n).heapSize = x.heapSize := rfl
@[simp] theorem Engine.selectRoot_nodeCount (x : Engine) (n : NodeIdx) : (x.selectRoot n).nodeCount = x.nodeCount := rfl
@[simp] theorem Engine.selectRoot_leafCount (x : Engine) (n : NodeIdx) : (x.selectRoot n).leafCount = x.leafCount := rfl
@[simp] theorem Engine.selectRoot_rootValid (x : Engine) (n : NodeIdx) : (x.selectRoot n).rootValid = true := rfl
@[simp] theorem Engine.selectRoot_rootIdx (x : Engine) (n : NodeIdx) : (x.selectRoot n).rootIdx = n := rfl
@[simp] theorem Engine.selectRoot_ct (x : Engine) (n : NodeIdx) : (x.selectRoot n).ct = x.ct := rfl
@[simp] theorem Engine.selectRoot_inMem (x : Engine) (n : NodeIdx) : (x.selectRoot n).inMem = x.inMem := rfl
@[simp] theorem Engine.selectRoot_outMem (x : Engine) (n : NodeIdx) : (x.selectRoot n).outMem = x.outMem := rfl
@[simp] theorem Engine.selectRoot_outBits (x : Engine) (n : NodeIdx) : (x.selectRoot n).outBits = x.outBits := rfl

end Sys2Proof.Machine
end

