-- ==== Sys2Proof/Laws/Commands.lean ====
section
/-! SUPPORT. Everything a command can do to the parts of the structural invariants and to the buffers, one lemma per command. -/

namespace Sys2Proof.Machine

/-! ## The shape of a completion -/

/-- A command that completes is one completion; only ENCODE draws a free byte. -/
theorem exec_completion {i : Instr} {s t : State} (h : exec i s = .next t) :
    ∃ (c : Completion) (k : Nat), t = ({ s with draws := k } : State).complete c ∧
      ((∀ A, i ≠ .encode A) → k = s.draws) := by
  cases i with
  | genCodes =>
    simp only [exec, execGenCodes] at h
    split at h
    · split at h
      · cases h
      · exact ⟨_, s.draws, (Host.Outcome.next.inj h).symm, fun _ => rfl⟩
    · exact ⟨_, s.draws, (Host.Outcome.next.inj h).symm, fun _ => rfl⟩
  | encode A =>
    simp only [exec, execEncode] at h
    split at h
    · exact ⟨_, s.draws, (Host.Outcome.next.inj h).symm, fun _ => rfl⟩
    · split at h
      · exact ⟨_, s.draws, (Host.Outcome.next.inj h).symm, fun _ => rfl⟩
      · split at h
        · exact ⟨_, s.draws + 1, (Host.Outcome.next.inj h).symm, fun hA => absurd rfl (hA A)⟩
        · exact ⟨_, s.draws + 1, (Host.Outcome.next.inj h).symm, fun hA => absurd rfl (hA A)⟩
        · cases h
  | _ => exact ⟨_, s.draws, (Host.Outcome.next.inj h).symm, fun _ => rfl⟩

/-! ## Node operands -/

theorem Engine.allocated_iff (e : Engine) (v : Word) : e.allocated v = true ↔ v.toNat < e.nodeCount.toNat := by
  simp [Engine.allocated]

theorem Engine.isLoose_iff (e : Engine) (v : Word) : e.isLoose v = true ↔ e.ownAt v.toNat = .loose := by
  simp [Engine.isLoose]

theorem nodeOperand_toNat {v : Word} (h : v.toNat < 512) : (nodeOperand v).toNat = v.toNat := by
  show (BitVec.ofNat 9 v.toNat).toNat = _
  rw [BitVec.toNat_ofNat]; omega

theorem natWord_toNat {n : Nat} (h : n < 2 ^ 32) : (natWord n).toNat = n := by
  show (BitVec.ofNat 32 n).toNat = _
  rw [BitVec.toNat_ofNat]; exact Nat.mod_eq_of_lt h

/-! ## The parts of the structural invariants -/

theorem Parts.congr {e e' : Engine} (p : Parts e) (hnode : e'.node = e.node) (hown : e'.own = e.own)
    (hheap : e'.heap = e.heap) (hsize : e'.heapSize = e.heapSize) (hcount : e'.nodeCount = e.nodeCount)
    (hleaf : e'.leafCount = e.leafCount) (hv : e'.rootValid = e.rootValid) (hi : e'.rootIdx = e.rootIdx) :
    Parts e' := by
  have hn : ∀ i, e'.nodeAt i = e.nodeAt i := fun i => by simp only [Engine.nodeAt, hnode]
  have ho : ∀ i, e'.ownAt i = e.ownAt i := fun i => by simp only [Engine.ownAt, hown]
  refine ⟨p.arena.congr (by rw [hleaf]) (by rw [hcount]) (fun i _ => hn i) (fun i _ => by rw [ho]),
    p.queue.congr hsize hheap (by rw [hcount]) (fun i _ => hn i) (fun i _ => by rw [ho]) (fun i h1 h2 => ?_),
    ⟨fun i h1 h2 => ?_, fun h => ?_, fun h => ?_⟩⟩
  · rw [hcount] at h2; omega
  · rw [hcount] at h1; rw [ho] at h2; rw [hv, hi]; exact p.root.rooted i h1 h2
  · rw [hv] at h; rw [hi, hcount, ho]; exact p.root.valid h
  · rw [hv] at h; rw [hi]; exact p.root.invalid h

/-- The arena, the queue and the root after everything is cleared. -/
theorem emptied_parts {e : Engine} (h1 : e.nodeCount = 0#10) (h2 : e.leafCount = 0#9) (h3 : e.heapSize = 0#9)
    (h4 : e.rootValid = false) (h5 : e.rootIdx = 0#9) : Parts e := by
  have hN : e.nodeCount.toNat = 0 := by rw [h1]; rfl
  have hK : e.leafCount.toNat = 0 := by rw [h2]; rfl
  have hH : e.heapSize.toNat = 0 := by rw [h3]; rfl
  refine ⟨⟨by omega, by omega, by omega, by omega, by omega, by omega, by omega, by omega, ?_, ?_, ?_⟩,
    ⟨?_, fun n => ?_, fun i h0 h1 => by omega⟩, ⟨by omega, by simp [h4], fun _ => h5⟩⟩
  · rw [hN, hK]; rfl
  · rw [hN, hK]; rfl
  · rw [hK]; exact Nat.zero_le _
  · simp [Engine.queue, hH]
  · simp [Engine.queue, hH, hN]

theorem cleared_parts (e : Engine) : Parts e.cleared := emptied_parts rfl rfl rfl rfl rfl

theorem reset_parts : Parts Engine.reset := emptied_parts rfl rfl rfl rfl rfl

theorem cmdHeapBuild_parts {e : Engine} (p : Parts e) : Parts e.cmdHeapBuild.eng := by
  unfold Engine.cmdHeapBuild Engine.heapBuildBody
  split
  · exact p
  · next e' h =>
    split at h
    · cases h
    · split at h
      · cases h
      · next hT =>
        obtain rfl := Except.ok.inj h
        exact heapBuilt_parts e (by omega)

theorem cmdPqInsert_parts {e : Engine} (p : Parts e) (n : Word) : Parts (e.cmdPqInsert n).eng := by
  unfold Engine.cmdPqInsert
  split
  · exact p
  · next ha =>
    split
    · exact p
    · next hl =>
      split
      · exact p
      · next hs =>
        have ha' : n.toNat < e.nodeCount.toNat := (e.allocated_iff n).1 (by simpa using ha)
        have hl' : e.ownAt n.toNat = .loose := (e.isLoose_iff n).1 (by simpa using hl)
        have h511 := p.arena.nodeBound
        have hop : (nodeOperand n).toNat = n.toNat := nodeOperand_toNat (by omega)
        have h256 := heapSize_le_256 p.arena p.queue
        obtain ⟨h1, h2, h3⟩ := heapInsert_keeps p.arena p.queue p.root (n := nodeOperand n) (by rw [hop]; exact ha')
          (by rw [hop]; exact hl') (by omega)
        exact ⟨h1, h2, h3⟩

theorem cmdPqExtract_parts {e : Engine} (p : Parts e) : Parts e.cmdPqExtract.eng := by
  unfold Engine.cmdPqExtract
  split
  · exact p
  · next h =>
    obtain ⟨h1, h2, h3⟩ := heapExtract_keeps p.arena p.queue p.root (by omega)
    exact ⟨h1, h2, h3⟩

theorem cmdPqPeek_eng (e : Engine) : e.cmdPqPeek.eng = e := by unfold Engine.cmdPqPeek; split <;> rfl

theorem cmdNodeMerge_parts {e : Engine} (p : Parts e) (a b : Word) : Parts (e.cmdNodeMerge a b).eng := by
  unfold Engine.cmdNodeMerge
  split
  · exact p
  · next hab =>
    split
    · exact p
    · next hl =>
      split
      · exact p
      · split
        · exact p
        · simp only [Bool.or_eq_true, Bool.not_eq_true', not_or, Bool.not_eq_false, decide_eq_true_eq] at hab hl
          have h511 := p.arena.nodeBound
          have ha := (e.allocated_iff a).1 hab.1
          have hb := (e.allocated_iff b).1 hab.2
          have hoa : (nodeOperand a).toNat = a.toNat := nodeOperand_toNat (by omega)
          have hob : (nodeOperand b).toNat = b.toNat := nodeOperand_toNat (by omega)
          obtain ⟨_, _, h1, h2, h3⟩ := mergeNodes_keeps p.arena p.queue p.root (a := nodeOperand a)
            (b := nodeOperand b) (by rw [hoa]; exact ha) (by rw [hob]; exact hb)
            (fun h => hl.1.1 (BitVec.eq_of_toNat_eq (by rw [← hoa, ← hob, h])))
            (by rw [hoa]; exact (e.isLoose_iff a).1 hl.1.2) (by rw [hob]; exact (e.isLoose_iff b).1 hl.2)
          exact ⟨h1, h2, h3⟩

theorem cmdMergeStep_parts {e : Engine} (p : Parts e) : Parts e.cmdMergeStep.eng := by
  unfold Engine.cmdMergeStep
  split
  · exact p
  · next n e' h =>
    by_cases h2 : 2 ≤ e.heapSize.toNat
    · obtain ⟨b, e'', hb, hp, _⟩ := mergeStepBody_ok p h2
      rw [hb] at h
      obtain ⟨rfl, rfl⟩ := Prod.mk.inj (Except.ok.inj h)
      exact hp
    · rw [Engine.mergeStepBody, if_pos (by omega)] at h
      cases h

theorem cmdSetRoot_parts {e : Engine} (p : Parts e) (n : Word) : Parts (e.cmdSetRoot n).eng := by
  unfold Engine.cmdSetRoot
  split
  · exact p
  · next ha =>
    split
    · exact p
    · next hl =>
      have ha' : n.toNat < e.nodeCount.toNat := (e.allocated_iff n).1 (by simpa using ha)
      have hl' : e.ownAt n.toNat = .loose := (e.isLoose_iff n).1 (by simpa using hl)
      have h511 := p.arena.nodeBound
      have hop : (nodeOperand n).toNat = n.toNat := nodeOperand_toNat (by omega)
      exact setRoot_parts p (by rw [hop]; exact ha') (by rw [hop]; exact hl')

theorem buildTreeBody_cases (e : Engine) :
    (e.presentSyms = [] ∧ e.buildTreeBody = .error .invalidInput) ∨
      (e.presentSyms ≠ [] ∧ 0xFFFFFFFF < e.totalFreq ∧ e.buildTreeBody = .error .weightOverflow) ∨
      (e.presentSyms ≠ [] ∧ e.totalFreq ≤ 0xFFFFFFFF) := by
  by_cases h0 : e.presentSyms.length = 0
  · exact .inl ⟨List.eq_nil_of_length_eq_zero h0, by simp [Engine.buildTreeBody, Engine.heapBuildBody, h0]⟩
  · have hne : e.presentSyms ≠ [] := fun h => h0 (by rw [h]; rfl)
    by_cases hT : 0xFFFFFFFF < e.totalFreq
    · exact .inr (.inl ⟨hne, hT, by rw [Engine.buildTreeBody, Engine.heapBuildBody, if_neg h0, if_pos hT]⟩)
    · exact .inr (.inr ⟨hne, by omega⟩)

theorem cmdBuildTree_parts {e : Engine} (p : Parts e) : Parts e.cmdBuildTree.eng := by
  unfold Engine.cmdBuildTree
  rcases buildTreeBody_cases e with ⟨_, h⟩ | ⟨_, _, h⟩ | ⟨h0, hT⟩
  · rw [h]; exact p
  · rw [h]; exact p
  · obtain ⟨e', he, hp, _⟩ := buildTreeBody_ok e (by simpa using h0) hT
    rw [he]; exact hp

theorem storeCodes_parts {e : Engine} (p : Parts e) (cs : List (Byte × List Bool)) :
    Parts (e.ctCleared.storeCodes cs) := by
  obtain ⟨_, h2, h3, h4, h5, h6, h7, h8, h9, _⟩ := e.ctCleared.storeCodes_rest cs
  exact p.congr h2 h3 h4 h5 h6 h7 h8 h9

/-! ## ENCODE's run -/

/-- What ENCODE's run leaves when it ends in a next state: the output of the symbols before its end, bit after bit
(44_encoder.md R202, R203). -/
theorem encodeRun_emits {s : State} {A : Bool} {e : Engine}
    (h : (∃ k, s.encodeRun A = .finished e k) ∨ ∃ x off b, s.encodeRun A = .stopped x e off b)
    (hob : 8 * s.params.outBytes + 1 < 2 ^ 32) (hb : (s.eng.startOutput A).outBits.toNat ≤ 8 * s.params.outBytes) :
    ∃ m t, m ≤ s.arg1L.toNat ∧ s.eng.text s.arg0L.toNat m = some t ∧
      e = (s.eng.startOutput A).emitCode (Config.freeByte s.draws) (s.eng.codesOf t) ∧
      (s.eng.startOutput A).outBits.toNat + (s.eng.codesOf t).length ≤ 8 * s.params.outBytes := by
  have hct : (s.eng.startOutput A).ct = s.eng.ct := by cases A <;> rfl
  have hin : (s.eng.startOutput A).inMem = s.eng.inMem := by cases A <;> rfl
  obtain ⟨m, k, hle, hm⟩ : ∃ m k, m ≤ s.arg1L.toNat ∧ encodeLoop s.params.outBytes (Config.freeByte s.draws) m
      s.arg0L.toNat 0 (s.eng.startOutput A) = .finished e k := by
    rcases h with ⟨k, h⟩ | ⟨x, off, b, h⟩
    · exact ⟨_, k, le_rfl, h⟩
    · obtain ⟨m, k', h1, _, h3, _⟩ := encodeLoop_stopped _ _ _ _ _ _ _ _ _ _ h
      exact ⟨m, k', h1.le, h3⟩
  obtain ⟨t, h1, _, h3, _, h5⟩ := encodeLoop_finished _ _ _ _ _ _ _ _ hm hob hb
  rw [Engine.codesOf_congr hct] at h3 h5
  rw [Engine.text_congr hin] at h1
  exact ⟨m, t, hle, h1, h3, h5⟩

theorem startOutput_outBits (e : Engine) (A : Bool) :
    (e.startOutput A).outBits = if A then e.outBits else 0#32 := by cases A <;> rfl

theorem startOutput_same (e : Engine) (A : Bool) : SameButOutput e (e.startOutput A) := by
  cases A <;> exact ⟨rfl, rfl, rfl, rfl, rfl, rfl, rfl, rfl, rfl, rfl, rfl⟩

theorem startOutput_outMem (e : Engine) (A : Bool) : (e.startOutput A).outMem = e.outMem := by cases A <;> rfl

/-- ENCODE that ends in a next state: an early rejection, which changes nothing, or a run. -/
theorem execEncode_next {s t : State} {A : Bool} (h : execEncode A s = .next t) :
    ((s.arg1L.toNat = 0 ∧ t = s.complete (raised s.eng .invalidInput)) ∨
        (s.arg1L.toNat ≠ 0 ∧ s.params.inBytes < s.arg0L.toNat + s.arg1L.toNat ∧
          t = s.complete (raised s.eng .badRange))) ∨
      (s.arg1L.toNat ≠ 0 ∧ s.arg0L.toNat + s.arg1L.toNat ≤ s.params.inBytes ∧
        ((∃ e k, s.encodeRun A = .finished e k ∧
            t = ({ s with draws := s.draws + 1 } : State).complete (success e (natWord k) s.arg1L)) ∨
          ∃ x e off b, s.encodeRun A = .stopped x e off b ∧
            t = ({ s with draws := s.draws + 1 } : State).complete ⟨e, x, natWord off, symWord b⟩)) := by
  unfold execEncode at h
  split at h
  · next h0 => exact .inl (.inl ⟨h0, (Host.Outcome.next.inj h).symm⟩)
  · next h0 =>
    split at h
    · next hr => exact .inl (.inr ⟨h0, by simpa [rangeBad] using hr, (Host.Outcome.next.inj h).symm⟩)
    · next hr =>
      refine .inr ⟨h0, by simpa [rangeBad] using hr, ?_⟩
      split at h
      · next e k hrun => exact .inl ⟨e, k, hrun, (Host.Outcome.next.inj h).symm⟩
      · next x e off b hrun => exact .inr ⟨x, e, off, b, hrun, (Host.Outcome.next.inj h).symm⟩
      · cases h

/-- ENCODE leaves everything of the engine-owned state but OUT_MEM and OUT_BITS. -/
theorem encodeLoop_same (ob : Nat) (junk : Byte) (n off k : Nat) (e e' : Engine)
    (h : (∃ k', encodeLoop ob junk n off k e = .finished e' k') ∨
      ∃ x o b, encodeLoop ob junk n off k e = .stopped x e' o b) : SameButOutput e e' := by
  induction n generalizing off k e with
  | zero =>
    rcases h with ⟨k', h⟩ | ⟨x, o, b, h⟩
    · obtain ⟨rfl, rfl⟩ := EncodeEnd.finished.inj h; exact SameButOutput.refl _
    · cases h
  | succ n ih =>
    unfold encodeLoop at h
    cases hr : e.inMem.read off with
    | none => rw [hr] at h; rcases h with ⟨k', h⟩ | ⟨x, o, b, h⟩ <;> cases h
    | some s0 =>
      rw [hr] at h
      simp only at h
      split at h
      · rcases h with ⟨k', h⟩ | ⟨x, o, b, h⟩
        · cases h
        · obtain ⟨_, rfl, _, _⟩ := EncodeEnd.stopped.inj h; exact SameButOutput.refl _
      · split at h
        · rcases h with ⟨k', h⟩ | ⟨x, o, b, h⟩
          · cases h
          · obtain ⟨_, rfl, _, _⟩ := EncodeEnd.stopped.inj h; exact SameButOutput.refl _
        · exact (emitCode_same junk e _).trans (ih _ _ _ h)

theorem execEncode_same {s t : State} {A : Bool} (h : execEncode A s = .next t) : SameButOutput s.eng t.eng := by
  rcases execEncode_next h with (⟨_, rfl⟩ | ⟨_, _, rfl⟩) | ⟨_, _, ⟨e, k, hr, rfl⟩ | ⟨x, e, off, b, hr, rfl⟩⟩
  · exact SameButOutput.refl _
  · exact SameButOutput.refl _
  · exact (startOutput_same s.eng A).trans (encodeLoop_same _ _ _ _ _ _ _ (.inl ⟨k, hr⟩))
  · exact (startOutput_same s.eng A).trans (encodeLoop_same _ _ _ _ _ _ _ (.inr ⟨x, off, b, hr⟩))

theorem SameButOutput.parts {e e' : Engine} (h : SameButOutput e e') (p : Parts e) : Parts e' :=
  p.congr h.node h.own h.heap h.heapSize h.nodeCount h.leafCount h.rootValid h.rootIdx

/-! ## The buffers -/

/-- The buffer part reads only the two memories and OUT_BITS. -/
theorem BufferInv.congr {p : Params} {e e' : Engine} (h : BufferInv p e) (hi : e'.inMem = e.inMem)
    (ho : e'.outMem = e.outMem) (hb : e'.outBits = e.outBits) : BufferInv p e' :=
  ⟨by rw [hi]; exact h.inWf, by rw [ho]; exact h.outWf, by rw [hi]; exact h.inBound, by rw [ho]; exact h.outBound,
    by rw [hb]; exact h.bitsBound, by rw [hb, ho]; exact h.streamWritten⟩

/-- Everything a run of emit_bit calls within OUT_MEM keeps of the buffers. -/
theorem emitCode_buffers {p : Params} {e : Engine} (junk : Byte) (c : List Bool) (hp : 8 * p.outBytes + 1 < 2 ^ 32)
    (h : BufferInv p e) (hc : e.outBits.toNat + c.length ≤ 8 * p.outBytes) : BufferInv p (e.emitCode junk c) := by
  induction c generalizing e with
  | nil => exact h
  | cons b c ih =>
    rw [List.length_cons] at hc
    have hb := emitBit_outBits junk e b (by omega)
    refine ih (e := e.emitBit junk b) ⟨h.inWf, emitBit_wf junk e b h.outWf, h.inBound, fun a x ha => ?_, by omega,
      fun a ha => ?_⟩ (by omega)
    · rw [emitBit_read] at ha
      split at ha
      · omega
      · exact h.outBound a x ha
    · rw [emitBit_read]
      split
      · rfl
      · next hne => exact h.streamWritten a (by omega)

/-- Starting the output keeps the buffers. -/
theorem startOutput_buffers {p : Params} {e : Engine} (A : Bool) (h : BufferInv p e) : BufferInv p (e.startOutput A) := by
  cases A
  · exact ⟨h.inWf, h.outWf, h.inBound, h.outBound, Nat.zero_le _, fun a ha => absurd ha (Nat.not_lt_zero _)⟩
  · exact h

theorem execEncode_buffers {s t : State} {A : Bool} (hp : s.params.wf = true) (hb : BufferInv s.params s.eng)
    (h : execEncode A s = .next t) : BufferInv s.params t.eng := by
  have hob : 8 * s.params.outBytes + 1 < 2 ^ 32 := by
    simp only [Params.wf, sizeOk, Bool.and_eq_true, decide_eq_true_eq] at hp; omega
  have hs := startOutput_buffers A hb
  rcases execEncode_next h with (⟨_, rfl⟩ | ⟨_, _, rfl⟩) | ⟨_, _, ⟨e, k, hr, rfl⟩ | ⟨x, e, off, b, hr, rfl⟩⟩
  · exact hb
  · exact hb
  · obtain ⟨m, txt, _, _, rfl, hle⟩ := encodeRun_emits (.inl ⟨k, hr⟩) hob hs.bitsBound
    exact emitCode_buffers _ _ hob hs hle
  · obtain ⟨m, txt, _, _, rfl, hle⟩ := encodeRun_emits (.inr ⟨x, off, b, hr⟩) hob hs.bitsBound
    exact emitCode_buffers _ _ hob hs hle

end Sys2Proof.Machine
end

