-- ==== Sys2Proof/Laws/Outcomes.lean ====
section
/-! SUPPORT. What each command answers where its checks pass, and which errors each shared body can raise. -/

namespace Sys2Proof.Machine

/-! ## Results as operands -/

theorem idxWord_toNat (n : NodeIdx) : (idxWord n).toNat = n.toNat := by
  show (BitVec.setWidth 32 n).toNat = _
  rw [BitVec.toNat_setWidth]; exact Nat.mod_eq_of_lt (by have := n.isLt; omega)

theorem nodeOperand_idxWord (n : NodeIdx) : nodeOperand (idxWord n) = n := by
  apply BitVec.eq_of_toNat_eq
  rw [nodeOperand_toNat (by rw [idxWord_toNat]; have := n.isLt; omega), idxWord_toNat]

/-! ## The success of each command -/

theorem execHeapBuild_ok {s : State} (h0 : s.eng.presentSyms ≠ []) (hT : s.eng.totalFreq ≤ 0xFFFFFFFF) :
    exec .heapBuild s = .next (s.complete (success s.eng.heapBuilt (natWord s.eng.presentSyms.length) (natWord s.eng.totalFreq))) := by
  simp only [exec, execHeapBuild, Engine.cmdHeapBuild, Engine.heapBuildBody,
    if_neg (show ¬ s.eng.presentSyms.length = 0 by simpa using h0), if_neg
    (show ¬ 0xFFFFFFFF < s.eng.totalFreq by omega)]

theorem execPqExtract_ok {s : State} (h : 0 < s.eng.heapSize.toNat) :
    exec .pqExtract s = .next (s.complete (success s.eng.heapExtract.2 (idxWord (s.eng.heapAt 0)) (s.eng.nodeAt (s.eng.heapAt 0).toNat).weight)) := by
  simp only [exec, execPqExtract, Engine.cmdPqExtract, if_neg (show ¬ s.eng.heapSize.toNat = 0 by omega)]; rfl

theorem execPqInsert_ok {s : State} (n : NodeIdx) (h0 : s.arg0L = idxWord n)
    (h : n.toNat < s.eng.nodeCount.toNat) (hl : s.eng.ownAt n.toNat = .loose) (hs : s.eng.heapSize.toNat < 256) :
    exec .pqInsert s = .next (s.complete (success (s.eng.heapInsert n) (idxWord n) (s.eng.nodeAt n.toNat).weight)) := by
  simp only [exec, execPqInsert, Engine.cmdPqInsert, h0, (s.eng.allocated_iff (idxWord n)).2 (by rw [idxWord_toNat]; exact h),
    (s.eng.isLoose_iff (idxWord n)).2 (by rw [idxWord_toNat]; exact hl), if_neg
      (show ¬ s.eng.heapSize.toNat = 256 by omega), nodeOperand_idxWord, idxWord_toNat]; rfl

theorem execNodeMerge_ok {s : State} (a b : NodeIdx) (h0 : s.arg0L = idxWord a) (h1 : s.arg1L = idxWord b)
    (ha : a.toNat < s.eng.nodeCount.toNat) (hb : b.toNat < s.eng.nodeCount.toNat)
    (hne : a ≠ b) (hla : s.eng.ownAt a.toNat = .loose) (hlb : s.eng.ownAt b.toNat = .loose)
      (hN : s.eng.nodeCount.toNat < 511) (hw : s.eng.mergedWeight a b ≤ 0xFFFFFFFF) :
    exec .nodeMerge s = .next (s.complete (success (s.eng.mergeNodes a b) (idxWord s.eng.nextIdx) (natWord (s.eng.mergedWeight a b)))) := by
  have hne' : idxWord a ≠ idxWord b := fun h => hne (by rw [← nodeOperand_idxWord a, h, nodeOperand_idxWord])
  simp [exec, execNodeMerge, Engine.cmdNodeMerge, h0, h1, (s.eng.allocated_iff (idxWord a)).2 (by rw [idxWord_toNat]; exact ha), (s.eng.allocated_iff (idxWord b)).2 (by rw [idxWord_toNat]; exact hb),
    (s.eng.isLoose_iff (idxWord a)).2 (by rw [idxWord_toNat]; exact hla), (s.eng.isLoose_iff (idxWord b)).2
      (by rw [idxWord_toNat]; exact hlb), nodeOperand_idxWord,
    show ¬ s.eng.nodeCount.toNat = 511 by omega, show ¬ 0xFFFFFFFF < s.eng.mergedWeight a b by omega, hne']

theorem execSetRoot_ok {s : State} (n : NodeIdx) (h0 : s.arg0L = idxWord n) (h : n.toNat < s.eng.nodeCount.toNat)
    (hl : s.eng.ownAt n.toNat = .loose) :
    exec .setRoot s = .next (s.complete (success (s.eng.releaseRoot.selectRoot n) (idxWord n) (s.eng.nodeAt n.toNat).weight)) := by
  simp only [exec, execSetRoot, Engine.cmdSetRoot, h0, (s.eng.allocated_iff (idxWord n)).2 (by rw [idxWord_toNat]; exact h),
    (s.eng.isLoose_iff (idxWord n)).2 (by rw [idxWord_toNat]; exact hl), nodeOperand_idxWord, idxWord_toNat]; rfl

theorem execMergeStep_ok {s : State} {n : NodeIdx} {e : Engine} (h : s.eng.mergeStepBody = .ok (n, e)) :
    exec .mergeStep s = .next (s.complete (success e (idxWord n) (e.nodeAt n.toNat).weight)) := by
  simp only [exec, execMergeStep, Engine.cmdMergeStep, h]

theorem execGenCodes_ok {s : State} {cs : List (Byte × List Bool)} (hv : s.eng.rootValid = true)
    (hc : s.eng.rootCodes = some cs) :
    exec .genCodes s = .next (s.complete (success (s.eng.ctCleared.storeCodes cs) (natWord cs.length) (natWord (maxLen cs)))) := by
  simp only [exec, execGenCodes, hv, hc, if_true]

/-- Everything GEN_CODES without an error leaves, for the tree at ROOT. -/
theorem genCodes_table {s t : State} {tr : HTree} (hI : StructInv s.eng) (h : exec .genCodes s = .next t)
    (he : t.err = 0#4)
   (hh : s.eng.Holds tr) (hi : tr.idx = s.eng.rootIdx.toNat) :
   t.res0.toNat = tr.leaves ∧ tr.leaves ≤ 256 ∧ ((s.eng.symCodes tr).map Prod.fst).Nodup ∧
   (∀ c ∈ s.eng.symCodes tr, t.eng.ctAt c.1.toNat = codeEntry c.2 ∧ c.2.length ≤ 255) ∧
   (∀ x : Byte, x ∉ (s.eng.symCodes tr).map Prod.fst → t.eng.ctAt x.toNat = CtEntry.blank) ∧
     t.eng.node = s.eng.node ∧ t.eng.rootIdx = s.eng.rootIdx := by
  have hv : s.eng.rootValid = true := by
    by_contra hv
    rw [show exec .genCodes s = .next (s.complete (raised s.eng .noTree)) by simp [exec, execGenCodes, hv]] at h
    obtain rfl := Host.Outcome.next.inj h
    cases he
  obtain ⟨u, h1, h2, h3, h4, h5⟩ := hI.parts.rootCodes hv
  obtain rfl : tr = u := hh.unique h2 (hi.trans h1.symm)
  rw [execGenCodes_ok hv h4] at h
  obtain rfl := Host.Outcome.next.inj h
  obtain ⟨g1, g2⟩ := s.eng.ctCleared.storeCodes_ctAt (s.eng.symCodes tr) h5
  have hlen : (s.eng.symCodes tr).length = tr.leaves := by rw [Engine.symCodes, List.length_map, tr.length_codes]
  obtain ⟨_, r2, r3, r4, r5, r6, r7, r8, r9, r10, r11, r12⟩ := s.eng.ctCleared.storeCodes_rest (s.eng.symCodes tr)
  refine ⟨?_, h3, h5, fun c hc => ⟨g1 c hc, ?_⟩, fun x hx => ?_, r2, r9⟩
  · show (natWord _).toNat = _
    rw [hlen, natWord_toNat (by omega)]
  · obtain ⟨d, hd, rfl⟩ := List.mem_map.1 hc
    exact tr.code_length_le h3 d hd
  · exact (g2 x hx).trans (tget_replicate _ _ _)

/-! ## ENCODE's run -/

theorem Params.stream_small {p : Params} (h : p.wf = true) : 8 * p.outBytes + 1 < 2 ^ 32 := by
  simp only [Params.wf, sizeOk, Bool.and_eq_true, decide_eq_true_eq] at h; omega

theorem startOutput_num (e : Engine) (A : Bool) : (e.startOutput A).outBits.toNat = if A then e.outBits.toNat else 0 := by
  cases A <;> rfl

theorem execEncode_runs {s : State} {A : Bool} (h0 : s.arg1L.toNat ≠ 0)
    (hr : s.arg0L.toNat + s.arg1L.toNat ≤ s.params.inBytes) :
  execEncode A s = match s.encodeRun A with
    | .finished e k => .next (({ s with draws := s.draws + 1 }).complete (success e (natWord k) s.arg1L))
    | .stopped x e off b => .next (({ s with draws := s.draws + 1 }).complete ⟨e, x, natWord off, symWord b⟩)
    | .unwritten off => .fault (.unwrittenInput off) := by
  unfold execEncode
  have : rangeBad s.params s.arg0L s.arg1L = false := by simp [rangeBad]; omega
  rw [if_neg h0, this]; rfl

/-- ENCODE's run over a text whose first `m` symbols encode goes on from there. -/
theorem encodeRun_prefix {s : State} {A : Bool} {m : Nat} {t : List Byte} (n : Nat) (hp : s.params.wf = true)
   (ht : s.eng.text s.arg0L.toNat m = some t) (hv : ∀ b ∈ t, (s.eng.ctAt b.toNat).valid = true)
   (hfit : (s.eng.startOutput A).outBits.toNat + (s.eng.codesOf t).length ≤ 8 * s.params.outBytes) :
   encodeLoop s.params.outBytes (Config.freeByte s.draws) (m + n) s.arg0L.toNat 0 (s.eng.startOutput A) =
    encodeLoop s.params.outBytes (Config.freeByte s.draws) n (s.arg0L.toNat + m) (s.eng.codesOf t).length
      ((s.eng.startOutput A).emitCode (Config.freeByte s.draws) (s.eng.codesOf t)) := by
  have hs := startOutput_same s.eng A
  have hct : ∀ x, (s.eng.startOutput A).ctAt x = s.eng.ctAt x := fun x => by simp [Engine.ctAt, hs.ct]
  have := encodeLoop_runs s.params.outBytes (Config.freeByte s.draws) m s.arg0L.toNat 0 (s.eng.startOutput A) t
    (by rw [Engine.text_congr hs.inMem]; exact ht) (fun b hb => by rw [hct]; exact hv b hb) (Params.stream_small hp)
    (by rw [Engine.codesOf_congr hs.ct]; exact hfit)
  rw [Engine.codesOf_congr hs.ct, Nat.zero_add] at this
  exact encodeLoop_append _ _ _ _ _ _ _ _ _ this

/-! ## The errors of the shared bodies -/

theorem mergeStepBody_err {e : Engine} {x : ErrCode} (h : e.mergeStepBody = .error x) :
    x = .queueEmpty ∨ x = .arenaFull ∨ x = .weightOverflow := by
  unfold Engine.mergeStepBody at h
  simp only at h
  split_ifs at h <;> cases h <;> simp

theorem heapBuildBody_err {e : Engine} {x : ErrCode} (h : e.heapBuildBody = .error x) :
    x = .invalidInput ∨ x = .weightOverflow := by
  unfold Engine.heapBuildBody at h
  split_ifs at h <;> cases h <;> simp

theorem buildTreeBody_err {e : Engine} {x : ErrCode} (h : e.buildTreeBody = .error x) :
    x = .invalidInput ∨ x = .weightOverflow := by
  rcases buildTreeBody_cases e with ⟨-, h'⟩ | ⟨-, -, h'⟩ | ⟨h0, hT⟩
  · rw [h'] at h; cases h; simp
  · rw [h'] at h; cases h; simp
  · obtain ⟨e', he, _⟩ := buildTreeBody_ok e (by simpa using h0) hT
    rw [he] at h; cases h

end Sys2Proof.Machine
end

