-- ==== Sys2Proof/Laws/Agree.lean ====
section
/-! SUPPORT. Two states that agree on the arena build the same tree (41_priority_queue.md R130, 42_tree_builder.md R156). -/

namespace Sys2Proof.Machine

/-- The two states have the same arena: counts, nodes and ownership of the allocated entries. -/
structure Agree (e e' : Engine) : Prop where
  count : e'.nodeCount = e.nodeCount
  leaf : e'.leafCount = e.leafCount
  node : ∀ i, i < e.nodeCount.toNat → e'.nodeAt i = e.nodeAt i
  own : ∀ i, i < e.nodeCount.toNat → e'.ownAt i = e.ownAt i

theorem Agree.mem {e e' : Engine} (a : Agree e e') (p : Parts e) (p' : Parts e') (n : NodeIdx) :
    n ∈ e'.queue ↔ n ∈ e.queue := by
  rw [p.queue.mem, p'.queue.mem, a.count]
  constructor
  · rintro ⟨h1, h2⟩; exact ⟨h1, by rw [← a.own _ h1]; exact h2⟩
  · rintro ⟨h1, h2⟩; exact ⟨h1, by rw [a.own _ h1]; exact h2⟩

theorem Agree.size {e e' : Engine} (a : Agree e e') (p : Parts e) (p' : Parts e') : e'.heapSize = e.heapSize := by
  apply BitVec.eq_of_toNat_eq
  rw [p.queue.count p.arena.nodeBound, p'.queue.count p'.arena.nodeBound, a.count]
  congr 1
  refine List.filter_congr fun i hi => ?_
  rw [a.own i (List.mem_range.1 hi)]

theorem Agree.less {e e' : Engine} (a : Agree e e') {x y : NodeIdx} (hx : x.toNat < e.nodeCount.toNat)
    (hy : y.toNat < e.nodeCount.toNat) : e'.less x y = e.less x y :=
  Engine.less_congr (a.node _ hx) (a.node _ hy)

theorem Agree.first {e e' : Engine} (a : Agree e e') (p : Parts e) (p' : Parts e') (h : 0 < e.heapSize.toNat) :
    e'.heapAt 0 = e.heapAt 0 := by
  have h' : 0 < e'.heapSize.toNat := by rw [a.size p p']; exact h
  have m1 : e.heapAt 0 ∈ e.queue := by rw [Engine.queue_eq]; exact hget_mem h
  have m2 : e'.heapAt 0 ∈ e'.queue := by rw [Engine.queue_eq]; exact hget_mem h'
  have l1 := e.heapAt_zero_least p.queue.ordered _ ((a.mem p p' _).1 m2)
  have l2 := e'.heapAt_zero_least p'.queue.ordered _ ((a.mem p p' _).2 m1)
  have b1 := (p.queue.first h).1
  have b2 := (p'.queue.first h').1
  rw [a.count] at b2
  rw [a.less b1 b2] at l2
  by_contra hne
  rcases e.less_strictOrder.total _ _ hne with ht | ht
  · rw [l1] at ht; cases ht
  · rw [l2] at ht; cases ht

theorem Agree.mergeStep {e e' e1 e1' : Engine} {n n' : NodeIdx} (a : Agree e e') (p : Parts e) (p' : Parts e')
    (h : 2 ≤ e.heapSize.toNat)
    (hm : e.mergeStepBody = .ok (n, e1)) (hm' : e'.mergeStepBody = .ok (n', e1')) : Agree e1 e1' := by
  have hs := a.size p p'
  obtain ⟨b, f, ok, q, bq, bne, bmin, hidx, hsz, hN, hk, _, _, hold, hnew, _, hown, _⟩ := mergeStepBody_ok p h
  obtain ⟨b', f', ok', q', bq', bne', bmin', hidx', hsz', hN', hk', _, _, hold', hnew', _, hown',
    _⟩ := mergeStepBody_ok p' (by rw [hs]; exact h)
  rw [ok] at hm; rw [ok'] at hm'
  obtain ⟨rfl, rfl⟩ := Prod.mk.inj (Except.ok.inj hm)
  obtain ⟨rfl, rfl⟩ := Prod.mk.inj (Except.ok.inj hm')
  have h0 := a.first p p' (by omega)
  have bb : b' = b := by
    have l1 := bmin b' ((a.mem p p' _).1 bq') (by rw [← h0]; exact bne')
    have l2 := bmin' b ((a.mem p p' _).2 bq) (by rw [h0]; exact bne)
    have b1 := ((p.queue.mem b).1 bq).1
    have b2 := ((p.queue.mem b').1 ((a.mem p p' _).1 bq')).1
    rw [a.less b1 b2] at l2
    by_contra hne
    rcases e.less_strictOrder.total _ _ hne with ht | ht
    · rw [l1] at ht; cases ht
    · rw [l2] at ht; cases ht
  have hc : e'.nodeCount.toNat = e.nodeCount.toNat := by rw [a.count]
  have ha0 := (p.queue.first (by omega)).1
  have hb0 := ((p.queue.mem b).1 bq).1
  refine ⟨BitVec.eq_of_toNat_eq (by omega), by rw [hk, hk', a.leaf], fun i hi => ?_, fun i hi => ?_⟩
  · by_cases hiN : i = e.nodeCount.toNat
    · subst hiN
      rw [hc, h0, bb] at hnew'
      rw [hnew, hnew', Engine.weightAt, Engine.weightAt, a.node _ ha0, a.node _ hb0]; rfl
    · rw [hold i (by omega), hold' i (by omega)]; exact a.node i (by omega)
  · rw [hown i hi, hown' i (by omega), hc, h0, bb]
    split
    · rfl
    · split
      · rfl
      · exact a.own i (by omega)

theorem Building.next {e e' : Engine} {n : NodeIdx} (b : Building e) (h1 : 1 < e.heapSize.toNat)
    (hm : e.mergeStepBody = .ok (n, e')) : Building e' ∧ e'.heapSize.toNat + 1 = e.heapSize.toNat := by
  obtain ⟨c, e1, hok, hp, _, _, _, _, hs, hN, hk, hrv, _, hnode, _, _, hown, f1, f2, f3, f4,
    f5⟩ := mergeStepBody_ok b.parts h1
  rw [hok] at hm
  obtain ⟨rfl, rfl⟩ := Prod.mk.inj (Except.ok.inj hm)
  refine ⟨⟨hp, fun i hi => ?_, by omega, hrv.trans b.noRoot⟩, hs⟩
  rw [hown i hi]
  split
  · exact .inl rfl
  · split
    · exact .inr rfl
    · exact b.owned i (by omega)

theorem Agree.loop (fuel : Nat) {e e' : Engine} (a : Agree e e') (b : Building e) (b' : Building e')
    (hf : e.heapSize.toNat ≤ fuel) :
    ∃ f f', buildLoop fuel e = .ok f ∧ buildLoop fuel e' = .ok f' ∧ Agree f f' ∧ Building f ∧ Building f' ∧
      f.heapSize.toNat = 1 := by
  induction fuel generalizing e e' with
  | zero => have := b.nonempty; omega
  | succ n ih =>
    unfold buildLoop
    have hs := a.size b.parts b'.parts
    by_cases h1 : 1 < e.heapSize.toNat
    · rw [if_pos h1, if_pos (by rw [hs]; exact h1)]
      obtain ⟨_, e1, ok, _⟩ := mergeStepBody_ok b.parts h1
      obtain ⟨_, e1', ok', _⟩ := mergeStepBody_ok b'.parts (by rw [hs]; exact h1)
      obtain ⟨c1, c2⟩ := Building.next b h1 ok
      obtain ⟨c1', _⟩ := Building.next b' (by rw [hs]; exact h1) ok'
      have := ih (a.mergeStep b.parts b'.parts h1 ok ok') c1 c1' (by omega)
      rw [ok, ok']; exact this
    · rw [if_neg h1, if_neg (by rw [hs]; exact h1)]
      have := b.nonempty
      exact ⟨e, e', rfl, rfl, a, b, b', by omega⟩

theorem buildTree_agree {e e' : Engine} (hf : e'.freq = e.freq) (h0 : e.presentSyms.length ≠ 0)
    (hT : e.totalFreq ≤ 0xFFFFFFFF) :
    ∃ f f', e.buildTreeBody = .ok f ∧ e'.buildTreeBody = .ok f' ∧ f'.rootIdx = f.rootIdx ∧
      f'.rootValid = f.rootValid ∧ Agree f f' ∧ f'.heapSize = f.heapSize := by
  have hfa : ∀ s, e'.freqAt s = e.freqAt s := fun s => by simp [Engine.freqAt, hf]
  have hps : e'.presentSyms = e.presentSyms := by simp [Engine.presentSyms, hfa]
  have htf : e'.totalFreq = e.totalFreq := by simp [Engine.totalFreq, hps, hfa]
  have b := heapBuilt_building e h0 hT
  have b' := heapBuilt_building e' (by rw [hps]; exact h0) (by rw [htf]; exact hT)
  obtain ⟨cN, cK, cS⟩ := e.heapBuilt_counts
  obtain ⟨cN', cK', cS'⟩ := e'.heapBuilt_counts
  rw [hps] at cN' cK' cS'
  have a : Agree e.heapBuilt e'.heapBuilt := by
    refine ⟨BitVec.eq_of_toNat_eq (by omega), BitVec.eq_of_toNat_eq (by omega), fun i hi => ?_, fun i hi => ?_⟩
    · rw [e.heapBuilt_nodeAt i (by omega), e'.heapBuilt_nodeAt i (by rw [hps]; omega)]; simp [Engine.leafOf, hps, hfa]
    · rw [e.heapBuilt_ownAt i (by omega), e'.heapBuilt_ownAt i (by rw [hps]; omega)]
  obtain ⟨f, f', l1, l2, ag, bf, bf', hs1⟩ := a.loop _ b b' le_rfl
  have hsz := ag.size bf.parts bf'.parts
  have hff := ag.first bf.parts bf'.parts (by omega)
  have ht := (bf.parts.queue.first (by omega)).1
  have h511 := bf.parts.arena.nodeBound
  refine ⟨f.heapExtract.2.selectRoot f.heapExtract.1, f'.heapExtract.2.selectRoot f'.heapExtract.1, ?_, ?_, hff,
    rfl, ⟨ag.count, ag.leaf, fun i hi => ag.node i hi, fun i hi => ?_⟩, ?_⟩
  · unfold Engine.buildTreeBody Engine.heapBuildBody
    rw [if_neg h0, if_neg (Nat.not_lt.2 hT)]; simp only [l1]
  · unfold Engine.buildTreeBody Engine.heapBuildBody
    rw [if_neg (by rw [hps]; exact h0), if_neg (by rw [htf]; omega)]
    have : e'.heapBuilt.heapSize.toNat = e.heapBuilt.heapSize.toNat := by omega
    simp only [this, l2]
  · have e1 : f.heapExtract.1 = f.heapAt 0 := rfl
    have e2 : f'.heapExtract.1 = f.heapAt 0 := hff
    rw [e1, e2, Engine.selectRoot_ownAt _ _ (by omega), Engine.selectRoot_ownAt _ _ (by omega)]
    split
    · rfl
    · rw [Engine.heapExtract_ownAt, Engine.heapExtract_ownAt, hff]
      split
      · rfl
      · exact ag.own i hi
  · apply BitVec.eq_of_toNat_eq
    show f'.heapExtract.2.heapSize.toNat = f.heapExtract.2.heapSize.toNat
    rw [Engine.heapExtract_heapSize, Engine.heapExtract_heapSize, hsz]

end Sys2Proof.Machine
end

