-- ==== Sys2Proof/Laws/Bus.lean ====
section
/-! SUPPORT. Laws of the address map and of one bus transfer (20_memory.md R62-R73): what each address selects, and everything a transfer can do. -/

namespace Sys2Proof.Machine

/-! ## The address map -/

theorem Params.wf_iff (p : Params) :
    p.wf = true ↔ (p.inBytes % 4 = 0 ∧ 4 ≤ p.inBytes ∧ p.inBytes ≤ 4096) ∧
      (p.outBytes % 4 = 0 ∧ 4 ≤ p.outBytes ∧ p.outBytes ≤ 4096) := by
  simp [Params.wf, sizeOk, and_assoc]

theorem toNat_addr {n : Nat} (h : n < 65536) : (BitVec.ofNat 16 n).toNat = n := by
  rw [BitVec.toNat_ofNat]; omega

theorem region_regAddr (p : Params) (r : Reg) : region p (regAddr r) = .reg r := by cases r <;> rfl

/-- The windows of the address map, row by row (20_memory.md R64): which word of which window an aligned
address selects. -/
theorem region_rows (p : Params) {n : Nat} (h4 : n % 4 = 0) (hn : n < 65536) :
    (0x0400 ≤ n → n < 0x0800 → region p (BitVec.ofNat 16 n) = .freq ((n - 0x0400) / 4)) ∧
      (0x1000 ≤ n → n < 0x1000 + p.inBytes → n < 0x2000 → region p (BitVec.ofNat 16 n) = .input ((n - 0x1000) / 4)) ∧
      (0x2000 ≤ n → n < 0x2000 + p.outBytes → n < 0x3000 → region p (BitVec.ofNat 16 n) = .output ((n - 0x2000) / 4)) ∧
      (0x4000 ≤ n → n < 0x8000 →
        region p (BitVec.ofNat 16 n) = .ct ((n - 0x4000) / 64) ((n - 0x4000) % 64 / 4)) ∧
      (0x8000 ≤ n → n < 0xA000 →
        region p (BitVec.ofNat 16 n) = .node ((n - 0x8000) / 16) ((n - 0x8000) % 16 / 4)) ∧
      (0xA000 ≤ n → n < 0xA400 → region p (BitVec.ofNat 16 n) = .heap ((n - 0xA000) / 4)) := by
  unfold region
  simp only [toNat_addr hn]
  refine ⟨?_, ?_, ?_, ?_, ?_, ?_⟩ <;> intros <;> split_ifs <;> first | rfl | omega

theorem region_freq (p : Params) {x : Nat} (h : x < 256) : region p (BitVec.ofNat 16 (0x0400 + 4 * x)) = .freq x := by
  rw [(region_rows p (by omega) (by omega)).1 (by omega) (by omega)]
  congr 1; omega

theorem region_input (p : Params) {j : Nat} (h : 4 * j < p.inBytes) (hp : p.inBytes ≤ 4096) :
    region p (BitVec.ofNat 16 (0x1000 + 4 * j)) = .input j := by
  obtain ⟨-, row, -⟩ := region_rows p (show (0x1000 + 4 * j) % 4 = 0 by omega) (by omega)
  rw [row (by omega) (by omega) (by omega)]
  congr 1; omega

theorem region_output (p : Params) {j : Nat} (h : 4 * j < p.outBytes) (hp : p.outBytes ≤ 4096) :
    region p (BitVec.ofNat 16 (0x2000 + 4 * j)) = .output j := by
  obtain ⟨-, -, row, -⟩ := region_rows p (show (0x2000 + 4 * j) % 4 = 0 by omega) (by omega)
  rw [row (by omega) (by omega) (by omega)]
  congr 1; omega

theorem region_ct (p : Params) {x w : Nat} (hx : x < 256) (hw : w < 16) :
    region p (BitVec.ofNat 16 (0x4000 + 64 * x + 4 * w)) = .ct x w := by
  obtain ⟨-, -, -, row, -⟩ := region_rows p (show (0x4000 + 64 * x + 4 * w) % 4 = 0 by omega) (by omega)
  rw [row (by omega) (by omega)]
  congr 1 <;> omega

theorem region_node (p : Params) {i w : Nat} (hi : i < 512) (hw : w < 4) :
    region p (BitVec.ofNat 16 (0x8000 + 16 * i + 4 * w)) = .node i w := by
  obtain ⟨-, -, -, -, row, -⟩ := region_rows p (show (0x8000 + 16 * i + 4 * w) % 4 = 0 by omega) (by omega)
  rw [row (by omega) (by omega)]
  congr 1 <;> omega

theorem region_heap (p : Params) {i : Nat} (hi : i < 256) :
    region p (BitVec.ofNat 16 (0xA000 + 4 * i)) = .heap i := by
  obtain ⟨-, -, -, -, -, row⟩ := region_rows p (show (0xA000 + 4 * i) % 4 = 0 by omega) (by omega)
  rw [row (by omega) (by omega)]
  congr 1; omega

/-- An aligned register offset is that of a register. -/
theorem regAt_aligned {n : Nat} (h : n % 4 = 0) (hn : n < 0x003C) : ∃ r, regAt n = some r ∧ regOffset r = n := by
  obtain ⟨k, rfl⟩ : ∃ k, n = 4 * k := ⟨n / 4, by omega⟩
  have hk : k < 15 := by omega
  interval_cases k <;> exact ⟨_, rfl, rfl⟩

/-- A region that is one of the six windows. -/
def Region.isWindow : Region → Bool
  | .misaligned => false
  | .unmapped => false
  | .reg _ => false
  | .freq _ => true
  | .input _ => true
  | .output _ => true
  | .ct _ _ => true
  | .node _ _ => true
  | .heap _ => true

/-- The bounds of what a window region selects. -/
def Region.inBounds (p : Params) : Region → Prop
  | .misaligned => True
  | .unmapped => True
  | .reg _ => True
  | .freq x => x < 256
  | .input j => 4 * j < p.inBytes
  | .output j => 4 * j < p.outBytes
  | .ct x w => x < 256 ∧ w < 16
  | .node i w => i < 512 ∧ w < 4
  | .heap i => i < 256

/-- Everything the address map can answer. -/
theorem region_cases (p : Params) (a : BusAddr) :
    (region p a).inBounds p ∧
      ((a.toNat % 4 ≠ 0 ∧ region p a = .misaligned) ∨
        (a.toNat % 4 = 0 ∧ inRegisters a.toNat ∧ ∃ r, region p a = .reg r ∧ a = regAddr r) ∨
        (a.toNat % 4 = 0 ∧ ¬ inRegisters a.toNat ∧ inWindow p a.toNat ∧ (region p a).isWindow = true) ∨
        (a.toNat % 4 = 0 ∧ ¬ inRegisters a.toNat ∧ region p a = .unmapped ∧
          (p.inBytes ≤ 4096 → p.outBytes ≤ 4096 → ¬ inWindow p a.toNat))) := by
  unfold region inRegisters inWindow
  simp only
  by_cases h4 : a.toNat % 4 = 0
  · rw [if_neg (by omega)]
    split
    · next hr =>
      obtain ⟨r, hr1, hr2⟩ := regAt_aligned h4 hr
      rw [hr1]
      refine ⟨trivial, .inr (.inl ⟨h4, hr, r, rfl, BitVec.eq_of_toNat_eq ?_⟩)⟩
      show _ = (BitVec.ofNat 16 (regOffset r)).toNat
      rw [hr2, BitVec.toNat_ofNat]; omega
    · next hr =>
      repeat' split
      all_goals
        first
        | exact ⟨by simp only [Region.inBounds]; omega, .inr (.inr (.inl ⟨h4, hr, by omega, rfl⟩))⟩
        | exact ⟨trivial, .inr (.inr (.inr ⟨h4, hr, rfl, fun _ _ => by omega⟩))⟩
  · rw [if_pos h4]
    exact ⟨trivial, .inl ⟨h4, rfl⟩⟩

/-! ## One transfer -/

theorem busError_reg (s : State) (r : Reg) : s.busError (.reg r) = false := rfl

theorem busError_window {s : State} {g : Region} (h : g.isWindow = true) : s.busError g = s.busy := by
  cases g <;> first | rfl | cases h

theorem busy_of_idle {s : State} (h : s.phase = .idle) : s.busy = false := by simp [State.busy, h]

theorem busy_of_not_idle {s : State} (h : s.phase ≠ .idle) : s.busy = true := by simp [State.busy, h]

theorem busStore_error {s : State} {g : Region} (d : Word) (h : s.busError g = true) : s.busStore g d = s := by
  simp [State.busStore, h]

theorem busData_error {s : State} {g : Region} (h : s.busError g = true) : s.busData g = 0#32 := by
  simp [State.busData, h]

/-- A write that the bus fails changes nothing of HTB. -/
theorem busWrite_error {s : State} {a : BusAddr} (d : Word) (h : s.busError (region s.params a) = true) :
    s.busWrite a d = { s with resp := some (.writeDone true) } := by
  simp [State.busWrite, busStore_error d h, h]

/-- A write to a register. -/
theorem busWrite_reg {s : State} (r : Reg) (d : Word) :
    s.busWrite (regAddr r) d = { s.writeReg d r with resp := some (.writeDone false) } := by
  simp [State.busWrite, region_regAddr, State.busStore, busError_reg]

/-- A write to a window while IDLE. -/
theorem busWrite_window {s : State} {a : BusAddr} (d : Word) (hi : s.phase = .idle)
    (h : (region s.params a).isWindow = true) :
    s.busWrite a d =
      { s with eng := s.eng.writeWindow d (region s.params a), resp := some (.writeDone false) } := by
  have he : s.busError (region s.params a) = false := by rw [busError_window h, busy_of_idle hi]
  unfold State.busWrite State.busStore
  rw [he]
  cases hg : region s.params a <;> rw [hg] at h <;> first | rfl | cases h

/-- A read of a window while IDLE. -/
theorem busData_window {s : State} {g : Region} (hi : s.phase = .idle) (h : g.isWindow = true) :
    s.busError g = false ∧ s.busData g = s.eng.readWindow s.draws g := by
  have he : s.busError g = false := by rw [busError_window h, busy_of_idle hi]
  refine ⟨he, ?_⟩
  unfold State.busData
  rw [he]
  cases g <;> first | rfl | cases h

/-- Everything a write transfer can do to the state: nothing but the response, a register write, or a window
write while IDLE. -/
theorem busWrite_cases (s : State) (a : BusAddr) (d : Word) :
    s.busWrite a d = { s with resp := some (.writeDone true) } ∨
      (∃ r, a = regAddr r ∧ s.busWrite a d = { s.writeReg d r with resp := some (.writeDone false) }) ∨
      (s.phase = .idle ∧ (region s.params a).isWindow = true ∧ (region s.params a).inBounds s.params ∧
        s.busWrite a d =
          { s with eng := s.eng.writeWindow d (region s.params a), resp := some (.writeDone false) }) := by
  obtain ⟨hb, h | ⟨_, _, r, _, rfl⟩ | h | h⟩ := region_cases s.params a
  · exact .inl (busWrite_error d (by rw [h.2]; rfl))
  · exact .inr (.inl ⟨r, rfl, busWrite_reg r d⟩)
  · by_cases hi : s.phase = .idle
    · exact .inr (.inr ⟨hi, h.2.2.2, hb, busWrite_window d hi h.2.2.2⟩)
    · exact .inl (busWrite_error d (by rw [busError_window h.2.2.2, busy_of_not_idle hi]))
  · exact .inl (busWrite_error d (by rw [h.2.2.1]; rfl))

/-- A write to a register reaches the engine-owned state and the instance never, and PHASE and the latches only
by acceptance. -/
theorem writeReg_eng (s : State) (d : Word) (r : Reg) : (s.writeReg d r).eng = s.eng := by
  cases r <;> try rfl
  show (s.writeCmd d).eng = s.eng
  unfold State.writeCmd; split <;> rfl

theorem writeReg_params (s : State) (d : Word) (r : Reg) : (s.writeReg d r).params = s.params := by
  cases r <;> try rfl
  show (s.writeCmd d).params = s.params
  unfold State.writeCmd; split <;> rfl

theorem writeReg_host (s : State) (d : Word) (r : Reg) : (s.writeReg d r).host = s.host := by
  cases r <;> try rfl
  show (s.writeCmd d).host = s.host
  unfold State.writeCmd; split <;> rfl

theorem writeReg_busy {s : State} (d : Word) (r : Reg) (h : s.phase ≠ .idle) :
    (s.writeReg d r).phase = s.phase ∧ (s.writeReg d r).cmdL = s.cmdL ∧ (s.writeReg d r).arg0L = s.arg0L ∧
      (s.writeReg d r).arg1L = s.arg1L ∧ (s.writeReg d r).starts = s.starts ∧
      (s.writeReg d r).busyMoves = s.busyMoves := by
  cases r <;> try exact ⟨rfl, rfl, rfl, rfl, rfl, rfl⟩
  show (s.writeCmd d).phase = _ ∧ _
  simp only [State.writeReg, State.writeCmd, if_neg h]
  exact ⟨rfl, rfl, rfl, rfl, rfl, rfl⟩

/-! ## What the windows read and write -/

theorem wordOf_byte (b0 b1 b2 b3 : Byte) (k : Nat) (hk : k < 4) :
    (wordOf b0 b1 b2 b3).extractLsb' (8 * k) 8 = (if k = 0 then b0 else if k = 1 then b1 else if k = 2 then b2 else b3) := by
  apply BitVec.eq_of_getLsbD_eq
  intro i hi
  rw [BitVec.getLsbD_extractLsb']
  unfold wordOf
  simp only [BitVec.getLsbD_append]
  interval_cases k
  · simp [hi]
  · simp [hi, show ¬ 8 + i < 8 by omega]
  · simp [hi, show ¬ 16 + i < 8 by omega, show ¬ 16 + i - 8 < 8 by omega, show 16 + i - 8 - 8 = i by omega]
  · simp [hi, show ¬ 24 + i < 8 by omega, show ¬ 24 + i - 8 < 8 by omega, show ¬ 24 + i - 8 - 8 < 8 by omega,
    show 24 + i - 8 - 8 - 8 = i by omega]

/-- A written byte is read back in its place in the word. -/
theorem readWord_byte (m : Memory) (j k0 k : Nat) (b : Byte) (hk : k < 4) (h : m.read (4 * j + k) = some b) :
    (m.readWord j k0).extractLsb' (8 * k) 8 = b := by
  unfold Memory.readWord
  rw [wordOf_byte _ _ _ _ _ hk]
  have hf : m.readFree (4 * j + k) (k0 + k) = b := by simp [Memory.readFree, h]
  interval_cases k <;> exact hf

theorem ctAt_setCt (e : Engine) (x : Byte) (c : CtEntry) (y : Byte) :
    (e.setCt x.toNat c).ctAt y.toNat = if y = x then c else e.ctAt y.toNat := by
  show tget (tset _ _ _) _ _ = _
  rw [tget_tset]
  by_cases h : y = x
  · subst h; rw [if_pos ⟨rfl, y.isLt⟩, if_pos rfl]
  · rw [if_neg (fun h' => h (BitVec.eq_of_toNat_eq h'.1)), if_neg h]; rfl

theorem writeReg_res (s : State) (d : Word) (r : Reg) : (s.writeReg d r).res0 = s.res0 ∧
    (s.writeReg d r).res1 = s.res1 := by
  cases r <;> try exact ⟨rfl, rfl⟩
  show (s.writeCmd d).res0 = _ ∧ (s.writeCmd d).res1 = _
  unfold State.writeCmd; split <;> exact ⟨rfl, rfl⟩

end Sys2Proof.Machine
end

