-- ==== Sys2Proof/Laws/Step.lean ====
section
/-! SUPPORT. Everything a step can do (00_scope.md R6): whose turn it is, the engine's step, and the host's. -/

namespace Sys2Proof.Machine

/-! ## Whose turn it is -/

theorem nextAgent_engine {s : State} : s.nextAgent = .engine ↔ s.enginesTurn := by
  unfold State.nextAgent State.enginesTurn
  split
  · next h => rw [h]; split <;> simp
  · next h =>
    split
    · next h0 => simp [h, h0]
    · next h0 =>
      split
      · next hl => simp [h, h0]; omega
      · next hl => simp [h, h0]; omega

theorem step_engine {s : State} (h : s.enginesTurn) : step s = s.engineMove := by
  unfold step State.advance
  rw [nextAgent_engine.2 h]

theorem step_busy {s : State} {i : Instr} (hp : s.phase = .busy) (h : s.enginesTurn) (hd : decode s.cmdL = .ok i) :
    step s = exec i s := by
  rw [step_engine h]
  unfold State.engineMove
  rw [hp, hd]

theorem step_illegal {s : State} {x : Illegal} (hp : s.phase = .busy) (h : s.enginesTurn)
    (hd : decode s.cmdL = .error x) : step s = .next s.completeIllegal := by
  rw [step_engine h]
  unfold State.engineMove
  rw [hp, hd]

theorem step_init {s : State} (hp : s.phase = .init) (h : s.enginesTurn) : step s = .next s.initStep := by
  rw [step_engine h]
  unfold State.engineMove
  rw [hp]

/-- Where it is not the engine's turn, the host's oldest move is taken, or nothing happens. -/
theorem step_host {s : State} (h : ¬ s.enginesTurn) : step s = .next s.hostStep := by
  have hne : s.nextAgent ≠ .engine := fun he => h (nextAgent_engine.1 he)
  unfold step State.advance
  cases hn : s.nextAgent with
  | engine => exact absurd hn hne
  | host => rfl
  | nobody =>
    have : s.host = [] := by
      unfold State.nextAgent at hn
      split at hn
      · split at hn
        · assumption
        · cases hn
      · split at hn
        · cases hn
        · split at hn <;> cases hn
    simp [State.hostStep, this]

/-- Everything a step that answers a next state can have done. -/
theorem step_cases {s t : State} (h : step s = .next t) :
    (s.phase = .init ∧ t = s.initStep) ∨
      (s.phase = .busy ∧ ∃ i, decode s.cmdL = .ok i ∧ exec i s = .next t) ∨
      (s.phase = .busy ∧ t = s.completeIllegal) ∨
      (∃ m rest, s.host = m :: rest ∧ t = ({ s with busyMoves := s.busyMoves + 1 } : State).hostMove m rest) ∨
      (s.phase = .idle ∧ s.host = [] ∧ t = s) := by
  by_cases he : s.enginesTurn
  · cases hp : s.phase with
    | init => rw [step_init hp he] at h; exact .inl ⟨rfl, (Host.Outcome.next.inj h).symm⟩
    | idle => exact absurd hp he.1
    | busy =>
      cases hd : decode s.cmdL with
      | ok i => rw [step_busy hp he hd] at h; exact .inr (.inl ⟨rfl, i, rfl, h⟩)
      | error x => rw [step_illegal hp he hd] at h; exact .inr (.inr (.inl ⟨rfl, (Host.Outcome.next.inj h).symm⟩))
  · rw [step_host he] at h
    have ht := (Host.Outcome.next.inj h).symm
    cases hh : s.host with
    | nil =>
      refine .inr (.inr (.inr (.inr ⟨?_, rfl, ?_⟩)))
      · by_contra hp; exact he ⟨hp, .inl hh⟩
      · rw [ht, State.hostStep, hh]
    | cons m rest =>
      refine .inr (.inr (.inr (.inl ⟨m, rest, rfl, ?_⟩)))
      rw [ht, State.hostStep, hh]

/-! ## The host's moves -/

/-- Everything a host move can do: a bus read, a bus write, nothing but waiting, or a reset. -/
theorem hostMove_cases (s : State) (m : HostMove) (rest : List HostMove) :
    (∃ l a, (l = rest ∨ (l = s.host ∧ m = .wait ∧ s.phase ≠ .idle)) ∧
        s.hostMove m rest = ({ s with host := l } : State).busRead a) ∨
      (∃ a d, m = .write a d ∧ s.hostMove m rest = ({ s with host := rest } : State).busWrite a d) ∨
      (m = .waitIrq ∧ (s.hostMove m rest = { s with host := rest } ∨ s.hostMove m rest = s)) ∨
      (m = .reset ∧ s.hostMove m rest = ({ s with host := rest } : State).hardReset) := by
  cases m with
  | read a => exact .inl ⟨rest, a, .inl rfl, rfl⟩
  | write a d => exact .inr (.inl ⟨a, d, rfl, rfl⟩)
  | wait =>
    simp only [State.hostMove]
    split
    · next hb => exact .inl ⟨s.host, _, .inr ⟨rfl, trivial, by simpa [State.busy] using hb⟩, rfl⟩
    · exact .inl ⟨rest, _, .inl rfl, rfl⟩
  | waitIrq =>
    simp only [State.hostMove]
    split
    · exact .inr (.inr (.inl ⟨trivial, .inl rfl⟩))
    · exact .inr (.inr (.inl ⟨trivial, .inr rfl⟩))
  | reset => exact .inr (.inr (.inr ⟨rfl, rfl⟩))

/-! ## Keeping the parts -/

theorem exec_parts {i : Instr} {s t : State} (h : exec i s = .next t) (p : Parts s.eng) : Parts t.eng := by
  cases i with
  | nop => obtain rfl := Host.Outcome.next.inj h; exact p
  | clear => obtain rfl := Host.Outcome.next.inj h; exact cleared_parts _
  | heapBuild => obtain rfl := Host.Outcome.next.inj h; exact cmdHeapBuild_parts p
  | pqInsert => obtain rfl := Host.Outcome.next.inj h; exact cmdPqInsert_parts p _
  | pqExtract => obtain rfl := Host.Outcome.next.inj h; exact cmdPqExtract_parts p
  | pqPeek => obtain rfl := Host.Outcome.next.inj h; rw [State.complete_eng, cmdPqPeek_eng]; exact p
  | nodeMerge => obtain rfl := Host.Outcome.next.inj h; exact cmdNodeMerge_parts p _ _
  | mergeStep => obtain rfl := Host.Outcome.next.inj h; exact cmdMergeStep_parts p
  | setRoot => obtain rfl := Host.Outcome.next.inj h; exact cmdSetRoot_parts p _
  | buildTree => obtain rfl := Host.Outcome.next.inj h; exact cmdBuildTree_parts p
  | genCodes =>
    simp only [exec, execGenCodes] at h
    split at h
    · split at h
      · cases h
      · obtain rfl := Host.Outcome.next.inj h; exact storeCodes_parts p _
    · obtain rfl := Host.Outcome.next.inj h; exact p
  | ctClear => obtain rfl := Host.Outcome.next.inj h; exact p.congr rfl rfl rfl rfl rfl rfl rfl rfl
  | encode A => exact (execEncode_same h).parts p

/-! ## Progress -/

theorem run_succ (n : Nat) (s t : State) (h : step s = .next t) : Sys2Proof.core.run
    (n + 1) s = Sys2Proof.core.run n t := by
  have h : Sys2Proof.core.step s = .next t := h
  simp only [Host.Core.run, h]

/-- A host move made while an operation is under way leaves it under way, and is used up unless it is a wait,
which leaves the counts as they were. -/
theorem hostMove_progress (s : State) (m : HostMove) (rest : List HostMove) (hh : s.host = m :: rest)
    (hp : s.phase ≠ .idle) :
    (s.hostMove m rest).phase ≠ .idle ∧ ((s.hostMove m rest).host = rest ∨
      ((s.hostMove m rest).host = s.host ∧ (s.hostMove m rest).starts = s.starts ∧
        (s.hostMove m rest).busyMoves = s.busyMoves)) := by
  rcases hostMove_cases s m rest with ⟨l, a, hl, hr⟩ | ⟨a, d, rfl, hr⟩ | ⟨rfl, hr | hr⟩ | ⟨rfl, hr⟩
  · rw [hr]; refine ⟨hp, ?_⟩
    rcases hl with rfl | ⟨rfl, _⟩
    · exact .inl rfl
    · exact .inr ⟨rfl, rfl, rfl⟩
  · rw [hr]
    rcases busWrite_cases ({ s with host := rest } : State) a d with hw | ⟨r, rfl, hw⟩ | ⟨hi, _⟩
    · rw [hw]; exact ⟨hp, .inl rfl⟩
    · have hb := writeReg_busy (s := { s with host := rest }) d r hp
      rw [hw]; exact ⟨by show (State.writeReg _ _ _).phase ≠ _; rw [hb.1]; exact hp, .inl (writeReg_host _ _ _)⟩
    · exact absurd hi hp
  · rw [hr]; exact ⟨hp, .inl rfl⟩
  · rw [hr]; exact ⟨hp, .inr ⟨rfl, rfl, rfl⟩⟩
  · rw [hr]; exact ⟨by simp, .inl rfl⟩

/-- No command is refused. -/
theorem exec_not_refused (i : Instr) (s : State) (r : Refusal) : exec i s ≠ .refused r := by
  cases i with
  | genCodes => simp only [exec, execGenCodes]; split <;> (try split) <;> simp
  | encode A => simp only [exec, execEncode]; split <;> (try split) <;> (try split) <;> simp
  | _ => exact fun h => by cases h

end Sys2Proof.Machine
end

