-- ==== Sys2Proof/Laws/Frames.lean ====
section
/-! SUPPORT. What the shared bodies leave unchanged of the engine-owned state, and what keeps the buffers. -/

namespace Sys2Proof.Machine

/-- Nothing but the arena, the heap, the counts and ROOT differs. -/
structure SameOutside (e e' : Engine) : Prop where
  freq : e'.freq = e.freq
  ct : e'.ct = e.ct
  inMem : e'.inMem = e.inMem
  outMem : e'.outMem = e.outMem
  outBits : e'.outBits = e.outBits

theorem SameOutside.trans {a b c : Engine} (h : SameOutside a b) (h' : SameOutside b c) : SameOutside a c :=
  ⟨h'.freq.trans h.freq, h'.ct.trans h.ct, h'.inMem.trans h.inMem, h'.outMem.trans h.outMem,
    h'.outBits.trans h.outBits⟩

/-- MERGE_STEP's body. -/
theorem mergeStepBody_outside {e e' : Engine} {n : NodeIdx} (h : e.mergeStepBody = .ok (n, e')) :
    SameOutside e e' ∧ e'.leafCount = e.leafCount ∧ e'.rootValid = e.rootValid ∧ e'.rootIdx = e.rootIdx := by
  unfold Engine.mergeStepBody at h
  split at h
  · cases h
  · split at h
    · cases h
    · simp only at h
      split at h
      · cases h
      · obtain ⟨rfl, rfl⟩ := Prod.mk.inj (Except.ok.inj h)
        exact ⟨⟨rfl, rfl, rfl, rfl, rfl⟩, rfl, rfl, rfl⟩

/-- BUILD_TREE's loop. -/
theorem buildLoop_outside (fuel : Nat) {e e' : Engine} (h : buildLoop fuel e = .ok e') : SameOutside e e' := by
  induction fuel generalizing e with
  | zero => obtain rfl := Except.ok.inj h; exact ⟨rfl, rfl, rfl, rfl, rfl⟩
  | succ f ih =>
    unfold buildLoop at h
    split at h
    · split at h
      · cases h
      · next n e1 h1 =>
        have a := (mergeStepBody_outside h1).1
        have b := ih h
        exact a.trans b
    · obtain rfl := Except.ok.inj h; exact ⟨rfl, rfl, rfl, rfl, rfl⟩

/-- HEAP_BUILD's body. -/
theorem heapBuildBody_outside {e e' : Engine} (h : e.heapBuildBody = .ok e') : SameOutside e e' := by
  unfold Engine.heapBuildBody at h
  split at h
  · cases h
  · split at h
    · cases h
    · obtain rfl := Except.ok.inj h
      exact ⟨by simp, by simp, by simp, by simp, by simp⟩

/-- BUILD_TREE's body. -/
theorem buildTreeBody_outside {e e' : Engine} (h : e.buildTreeBody = .ok e') : SameOutside e e' := by
  unfold Engine.buildTreeBody at h
  split at h
  · cases h
  · next e1 h1 =>
    split at h
    · cases h
    · next e2 h2 =>
      obtain rfl := Except.ok.inj h
      have a := heapBuildBody_outside h1
      have b := buildLoop_outside _ h2
      have c := a.trans b
      exact ⟨c.freq, c.ct, c.inMem, c.outMem, c.outBits⟩

/-- Such a state is the old one with a new arena, heap, counts and ROOT. -/
theorem SameOutside.eng_eq {e e' : Engine} (h : SameOutside e e') :
    e' = { e with
      node := e'.node
      own := e'.own
      heap := e'.heap
      nodeCount := e'.nodeCount
      leafCount := e'.leafCount
      heapSize := e'.heapSize
      rootValid := e'.rootValid
      rootIdx := e'.rootIdx } := by
  obtain ⟨h1, h2, h3, h4, h5⟩ := h
  cases e'; cases e; simp_all

/-- What ENCODE leaves is the old state with a new OUT_MEM and OUT_BITS. -/
theorem SameButOutput.eng_eq {e e' : Engine} (h : SameButOutput e e') :
    e' = { e with outMem := e'.outMem, outBits := e'.outBits } := by
  obtain ⟨h1, h2, h3, h4, h5, h6, h7, h8, h9, h10, h11⟩ := h
  cases e'; cases e; simp_all

/-! ## The buffers -/

theorem reset_buffers (p : Params) : BufferInv p Engine.reset :=
  ⟨rfl, rfl, fun _ _ h => (by cases h), fun _ _ h => (by cases h), Nat.zero_le _,
    fun _ h => absurd h (Nat.not_lt_zero _)⟩

/-- Clearing the counts, the tables and OUT_BITS keeps the buffers. -/
theorem cleared_buffers {p : Params} {e : Engine} (b : BufferInv p e) : BufferInv p e.cleared :=
  ⟨b.inWf, b.outWf, b.inBound, b.outBound, Nat.zero_le _, fun _ h => absurd h (Nat.not_lt_zero _)⟩

/-- A write to any window keeps the buffers. -/
theorem writeWindow_buffers {p : Params} {e : Engine} (hp : p.wf = true) (d : Word) (g : Region) (hb : g.inBounds p)
    (b : BufferInv p e) : BufferInv p (e.writeWindow d g) := by
  have wf := (Params.wf_iff _).1 hp
  cases g with
  | input j =>
    refine ⟨Memory.wf_writeWord _ _ b.inWf, b.outWf, fun a x ha => ?_, b.outBound, b.bitsBound, b.streamWritten⟩
    have hb : 4 * j < p.inBytes := hb
    have ha : (e.inMem.writeWord j d).read a = some x := ha
    rw [Memory.read_writeWord] at ha
    split at ha
    · omega
    · exact b.inBound a x ha
  | output j =>
    refine ⟨b.inWf, Memory.wf_writeWord _ _ b.outWf, b.inBound, fun a x ha => ?_, b.bitsBound, fun a ha => ?_⟩
    · have hb : 4 * j < p.outBytes := hb
      have ha : (e.outMem.writeWord j d).read a = some x := ha
      rw [Memory.read_writeWord] at ha
      split at ha
      · omega
      · exact b.outBound a x ha
    · show ((e.outMem.writeWord j d).read a).isSome = true
      rw [Memory.read_writeWord]
      split
      · rfl
      · exact b.streamWritten a ha
  | _ => exact b.congr rfl rfl rfl

/-- A write to any window keeps the structure. -/
theorem writeWindow_parts {e : Engine} (d : Word) (g : Region) (p : Parts e) : Parts (e.writeWindow d g) := by
  cases g <;> exact p.congr rfl rfl rfl rfl rfl rfl rfl rfl

end Sys2Proof.Machine
end

