-- ==== Sys2Proof/Laws/PerInstr.lean ====
section
/-! SUPPORT. Statements made per command: the word of each command decodes to that command (30_encoding.md R91, R95). -/

namespace Sys2Proof.Laws.RoundTrip

/-- Decoding inverts encoding on the command `i`. -/
def Statement (i : Instr) : Prop := i.wf = true → decode (Sys2Proof.encode i) = .ok i

theorem nop : Statement .nop := fun _ => by decide
theorem clear : Statement .clear := fun _ => by decide
theorem heapBuild : Statement .heapBuild := fun _ => by decide
theorem pqInsert : Statement .pqInsert := fun _ => by decide
theorem pqExtract : Statement .pqExtract := fun _ => by decide
theorem pqPeek : Statement .pqPeek := fun _ => by decide
theorem nodeMerge : Statement .nodeMerge := fun _ => by decide
theorem mergeStep : Statement .mergeStep := fun _ => by decide
theorem setRoot : Statement .setRoot := fun _ => by decide
theorem buildTree : Statement .buildTree := fun _ => by decide
theorem genCodes : Statement .genCodes := fun _ => by decide
theorem ctClear : Statement .ctClear := fun _ => by decide
theorem encode (append : Bool) : Statement (.encode append) := fun _ => by cases append <;> decide

end Sys2Proof.Laws.RoundTrip
end

