-- ==== Sys2Proof/Tests/Slice0.lean ====
section
/-! SUPPORT. Tests of the model on single steps, with the results the spec's examples and test vectors give, and one witness for the hypotheses of each obligation. -/

set_option Elab.async false

namespace Sys2Proof.Tests

open Sys2Proof Sys2Proof.Machine

/-! ## Helpers -/

/-- The next state, if that is what is answered. -/
def nextOf (o : Host.Outcome State Fault Refusal) : Option State :=
  match o with
  | .next t => some t
  | .fault _ => none
  | .refused _ => none

/-- The fault, if that is what is answered. -/
def faultOf (o : Host.Outcome State Fault Refusal) : Option Fault :=
  match o with
  | .next _ => none
  | .fault f => some f
  | .refused _ => none

theorem next_of_any {o : Host.Outcome State Fault Refusal} {p : State → Bool} (h : (nextOf o).any p = true) :
    ∃ t, o = .next t ∧ p t = true := by
  cases o with
  | next t => exact ⟨t, rfl, h⟩
  | fault f => cases h
  | refused r => cases h

theorem fault_of {o : Host.Outcome State Fault Refusal} {f : Fault} (h : faultOf o = some f) : o = .fault f := by
  cases o with
  | next t => cases h
  | fault g => exact congrArg _ (Option.some.inj h)
  | refused r => cases h

/-- The reset engine with some counts in FREQ. -/
def freqs (l : List (Nat × Nat)) : Engine :=
  l.foldl (fun e c => e.setFreq c.1 (BitVec.ofNat 32 c.2)) Engine.reset

/-- An idle machine with the engine-owned state `e`. -/
def idle (e : Engine) : State := { State.reset with eng := e, phase := .idle }

/-- A machine that has accepted the word `v` with the operands `a0` and `a1`, the host with nothing left to do. -/
def accepted (e : Engine) (v : Word) (a0 a1 : Nat) : State :=
  { State.reset with
    eng := e
    phase := .busy
    cmdL := v
    arg0L := BitVec.ofNat 32 a0
    arg1L := BitVec.ofNat 32 a1 }

/-- A machine that has accepted the command `i`. -/
def running (e : Engine) (i : Instr) (a0 a1 : Nat) : State := accepted e (encode i) a0 a1

theorem accepted_turn (e : Engine) (v : Word) (a0 a1 : Nat) : (accepted e v a0 a1).enginesTurn :=
  ⟨fun h => Phase.noConfusion h, .inl rfl⟩

/-- ERR, RES0 and RES1 after one step. -/
def result (s : State) : Option (Nat × Nat × Nat) :=
  (nextOf (step s)).map fun t => (t.err.toNat, t.res0.toNat, t.res1.toNat)

/-- Something of the engine-owned state after one step. -/
def after {α : Type} (s : State) (f : Engine → α) : Option α := (nextOf (step s)).map fun t => f t.eng

/-- The heap as numbers. -/
def heapOf (e : Engine) : List Nat := e.queue.map BitVec.toNat

/-- FREQ of "abracadabra". -/
def abra : Engine := freqs [(97, 5), (98, 2), (99, 1), (100, 1), (114, 2)]

/-- An arena of leaves, each a symbol and a weight, all with one ownership. -/
def leaves (l : List (Nat × Nat)) (o : Own) : Engine :=
  l.zipIdx.foldl
    (fun e c =>
      { e with
        node := tset e.node c.2 ⟨false, BitVec.ofNat 8 c.1.1, BitVec.ofNat 32 c.1.2, 0#9, 0#9⟩
        own := tset e.own c.2 o })
    { freqs l with nodeCount := BitVec.ofNat 10 l.length, leafCount := BitVec.ofNat 9 l.length }

/-- The engine with the heap array `h`, its nodes QUEUED. -/
def queueing (e : Engine) (h : List Nat) : Engine :=
  h.zipIdx.foldl (fun e c => { e.setOwn c.1 .queued with heap := tset e.heap c.2 (BitVec.ofNat 9 c.1) })
    { e with heapSize := BitVec.ofNat 9 h.length }

/-- The leaves of "abracadabra" in the heap order of 41_priority_queue.md R126's example. -/
def abraHeap : Engine :=
  queueing (leaves [(97, 5), (98, 2), (99, 1), (100, 1), (114, 2)] .loose) [2, 3, 0, 1, 4]

/-- The same after two PQ_EXTRACTs. -/
def abraTwo : Engine :=
  queueing (leaves [(97, 5), (98, 2), (99, 1), (100, 1), (114, 2)] .loose) [1, 4, 0]

/-- BUILD_TREE's loop and root on a queue. -/
def grown (e : Engine) : Engine :=
  match buildLoop e.heapSize.toNat e with
  | .ok e' => e'.heapExtract.2.selectRoot e'.heapExtract.1
  | .error _ => e

/-- HEAP_BUILD's new state, where `l` is the list of present symbols. -/
def heapOn (e : Engine) (l : List Nat) : Engine :=
  { e.createLeaves l 0 with
    nodeCount := BitVec.ofNat 10 l.length
    leafCount := BitVec.ofNat 9 l.length
    heapSize := BitVec.ofNat 9 l.length
    rootValid := false
    rootIdx := 0#9
    heap := heapify (e.createLeaves l 0).less l.length (l.length / 2) (e.createLeaves l 0).heap }

/-- FREQ of "aab". -/
def aab : Engine := freqs [(97, 2), (98, 1)]

/-- The two leaves of "aab", LOOSE. -/
def aabLoose : Engine := leaves [(97, 2), (98, 1)] .loose

/-- After HEAP_BUILD on "aab", and after two PQ_EXTRACTs from there. -/
def aabHeap : Engine := heapOn aab [97, 98]
def aabPair : Engine := aabHeap.heapExtract.2.heapExtract.2

/-- After BUILD_TREE on "aab" and on "aaaa". -/
def aabTree : Engine := grown aabHeap
def aaaaTree : Engine := grown (heapOn (freqs [(97, 4)]) [97])

/-- The text "aab" in IN_MEM. -/
def aabText : Memory := [(0, 97#8), (1, 97#8), (2, 98#8)]

/-- The code table of "aab" (a "1", b "0") and its text. -/
def aabTable : Engine := { (Engine.reset.storeCode 97#8 [true]).storeCode 98#8 [false] with inMem := aabText }

/-! ## WellFormed -/

theorem test_params_wf :
    Params.wf ⟨4, 4096⟩ = true ∧ Params.wf ⟨4096, 8⟩ = true ∧ Params.wf ⟨5, 4096⟩ = false ∧
      Params.wf ⟨0, 4096⟩ = false ∧ Params.wf ⟨4100, 4096⟩ = false ∧ Params.wf ⟨4096, 6⟩ = false ∧
      Params.wf ⟨4096, 0⟩ = false ∧ Params.wf ⟨4096, 4100⟩ = false := by decide

theorem test_line_wf :
    (Line.setCode 97#8 1 [true]).wf = true ∧ (Line.setCode 97#8 2 [true]).wf = false ∧
      (Line.setCode 97#8 256 (List.replicate 256 false)).wf = false ∧
      (Line.loadText (List.replicate 4097 0#8)).wf = false := by decide +kernel

/-- A memory whose indices do not strictly rise is not in the canonical form. -/
theorem test_memory_wf :
    Memory.wf [(0, 1#8), (3, 0#8)] = true ∧ Memory.wf [(3, 0#8), (0, 1#8)] = false ∧
      Memory.wf [(3, 0#8), (3, 1#8)] = false := by decide

/-! ## Decoding, on words written out from 30_encoding.md R90 and R95 -/

theorem test_decode_control : decode 0b00000000000000000000000_0_00000001#32 = .ok .clear := by decide
theorem test_decode_queue : decode 0b00000000000000000000000_0_00010010#32 = .ok .pqExtract := by decide
theorem test_decode_tree : decode 0b00000000000000000000000_0_00010110#32 = .ok .setRoot := by decide
theorem test_decode_codes : decode 0b00000000000000000000000_0_00100000#32 = .ok .genCodes := by decide
theorem test_decode_encode : decode 0b00000000000000000000000_0_00110000#32 = .ok (.encode false) := by decide
theorem test_decode_append : decode 0b00000000000000000000000_1_00110000#32 = .ok (.encode true) := by decide

/-- 30_encoding.md R96: the words on both sides of every edge of the reserved ranges. -/
theorem test_decode_edges :
    ([0x01, 0x02, 0x0F, 0x10, 0x17, 0x18, 0x1F, 0x20, 0x21, 0x22, 0x2F, 0x30, 0x31, 0xFF, 0x100, 0x110, 0x130,
        0x131, 0x230, 0x80000000].map fun n => (decode (BitVec.ofNat 32 n)).toOption.isSome) =
      [true, false, false, true, true, false, false, true, true, false, false, true, false, false, false, false,
        true, false, false, false] := by decide

/-- The step after `withFetchWord` on reset runs the word (HEAP_BUILD on a FREQ that is all zero). -/
theorem test_fetch_word : result (State.reset.withFetchWord 32 0x10) = some (1, 0, 0) := by decide +kernel

/-! ## One or two steps' tests per command, on the spec's examples -/

/-- 40_control.md R110, example. -/
theorem test_nop : (nextOf (step (running Engine.reset .nop 7 9))).map State.statusWord = some 2#32 := by
  decide +kernel

/-- 40_control.md R111, example. -/
theorem test_clear :
    after (running { aabTree with outMem := [(0, 0xC0#8)], outBits := 3#32 } .clear 0 0)
        (fun e => (e.nodeCount, e.rootValid, e.rootIdx, e.outBits, e.freqAt 97)) =
      some (0#10, false, 0#9, 0#32, 0#32) := by decide +kernel

theorem test_clear_out :
    after (running { aabTree with outMem := [(0, 0xC0#8)], outBits := 3#32 } .clear 0 0) (fun e => e.outMem) =
      some [(0, 0xC0#8)] := by decide +kernel

/-- 40_control.md R112, example. -/
theorem test_illegal : result (accepted abra 0x110#32 0 0) = some (4, 0, 0) := by decide +kernel

/-- 41_priority_queue.md R126, example. -/
theorem test_heapBuild :
    result (running abra .heapBuild 0 0) = some (0, 5, 11) ∧
      after (running abra .heapBuild 0 0) heapOf = some [2, 3, 0, 1, 4] := by decide +kernel

/-- 41_priority_queue.md R126: the total weight is exact and does not wrap. -/
theorem test_heapBuild_overflow :
    result (running (freqs [(0, 0xFFFFFFFF)]) .heapBuild 0 0) = some (0, 1, 0xFFFFFFFF) ∧
      result (running (freqs [(0, 0xFFFFFFFF), (255, 1)]) .heapBuild 0 0) = some (9, 0, 0) := by decide +kernel

/-- 41_priority_queue.md R127, example. -/
theorem test_pqInsert :
    result (running abraTwo .pqInsert 2 0) = some (0, 2, 1) ∧
      after (running abraTwo .pqInsert 2 0) heapOf = some [2, 1, 0, 4] := by decide +kernel

/-- 30_encoding.md R93: an operand of 513 is index 513, never index 1. -/
theorem test_pqInsert_operand :
    result (running abraTwo .pqInsert 9 0) = some (6, 0, 0) ∧ result (running abraTwo .pqInsert 0x202 0) = some (6, 0, 0) ∧
      result (running abraTwo .pqInsert 1 0) = some (7, 0, 0) := by decide +kernel

/-- 41_priority_queue.md R128, example. -/
theorem test_pqExtract :
    result (running abraHeap .pqExtract 0 0) = some (0, 2, 1) ∧
      after (running abraHeap .pqExtract 0 0) heapOf = some [3, 1, 0, 4] := by decide +kernel

theorem test_pqExtract_empty : result (running abra .pqExtract 0 0) = some (5, 0, 0) := by decide +kernel

/-- 41_priority_queue.md R129, example. -/
theorem test_pqPeek :
    result (running abraHeap .pqPeek 0 0) = some (0, 2, 1) ∧
      after (running abraHeap .pqPeek 0 0) heapOf = some [2, 3, 0, 1, 4] := by decide +kernel

/-- 42_tree_builder.md R152, example. -/
theorem test_nodeMerge :
    result (running abraTwo .nodeMerge 2 3) = some (0, 5, 2) ∧
      after (running abraTwo .nodeMerge 2 3) (fun e => (e.nodeAt 5, e.ownAt 2, e.ownAt 3, e.ownAt 5)) =
        some (⟨true, 0#8, 2#32, 2#9, 3#9⟩, .child, .child, .loose) := by decide +kernel

theorem test_nodeMerge_twice : result (running abraTwo .nodeMerge 2 2) = some (7, 0, 0) := by decide +kernel

/-- 42_tree_builder.md R153, example. -/
theorem test_mergeStep : result (running abraHeap .mergeStep 0 0) = some (0, 5, 2) := by decide +kernel

/-- 42_tree_builder.md R154, example. -/
theorem test_setRoot :
    result (running (leaves [(97, 4)] .loose) .setRoot 0 0) = some (0, 0, 4) ∧
      (nextOf (step (running (leaves [(97, 4)] .loose) .setRoot 0 0))).map (fun t => t.readReg .root) =
        some 0x80000000#32 := by decide +kernel

/-- 42_tree_builder.md R154: the old root is released. -/
theorem test_setRoot_old :
    after (running (aabLoose.selectRoot 0#9) .setRoot 1 0) (fun e => (e.ownAt 0, e.ownAt 1, e.rootIdx)) =
      some (.loose, .rooted, 1#9) := by decide +kernel

/-- 42_tree_builder.md R155, example. -/
theorem test_buildTree :
    result (running aab .buildTree 0 0) = some (0, 2, 3) ∧
      after (running aab .buildTree 0 0) (fun e => (e.nodeAt 2, e.rootValid, e.rootIdx, e.heapSize)) =
        some (⟨true, 0#8, 3#32, 1#9, 0#9⟩, true, 2#9, 0#9) := by decide +kernel

/-- 42_tree_builder.md R155: the degenerate tree. -/
theorem test_buildTree_one :
    after (running (freqs [(97, 4)]) .buildTree 0 0) (fun e => (e.nodeCount, e.heapSize, e.rootIdx, e.ownAt 0)) =
      some (1#10, 0#9, 0#9, .rooted) := by decide +kernel

/-- 43_code_table.md R183, example, through the CT window. -/
theorem test_genCodes :
    result (running (grown abraHeap) .genCodes 0 0) = some (0, 5, 3) ∧
      (nextOf (step (running (grown abraHeap) .genCodes 0 0))).map
          (fun t => ((t.busRead 0x5880#16).resp, (t.busRead 0x5884#16).resp, (t.eng.ctAt 99).code, (t.eng.ctAt 97).code)) =
        some (some (.readDone 0x80000003#32 false), some (.readDone 0xC0000000#32 false), [true, false, false],
          [false]) := by decide +kernel

/-- 43_code_table.md R182: the code of a single leaf. -/
theorem test_genCodes_leaf :
    result (running ((leaves [(97, 4)] .loose).selectRoot 0#9) .genCodes 0 0) = some (0, 1, 1) ∧
      after (running ((leaves [(97, 4)] .loose).selectRoot 0#9) .genCodes 0 0) (fun e => (e.ctAt 97).code) = some [false] := by
  decide +kernel

/-- 43_code_table.md R184, example. -/
theorem test_ctClear :
    (nextOf (step (running aabTable .ctClear 0 0))).map
        (fun t => ((t.busRead 0x5840#16).resp, (t.busRead 0x5880#16).resp)) =
      some (some (.readDone 0#32 false), some (.readDone 0#32 false)) := by decide +kernel

/-- 44_encoder.md R201, example. -/
theorem test_encode :
    result (running aabTable (.encode false) 0 3) = some (0, 3, 3) ∧
      after (running aabTable (.encode false) 0 3) (fun e => (e.outMem, e.outBits)) = some ([(0, 0xC0#8)], 3#32) := by
  decide +kernel

/-- 44_encoder.md R201, example: appending inside a byte. -/
theorem test_encode_append :
    result (running { aabTable with outMem := [(0, 0xC0#8)], outBits := 3#32 } (.encode true) 0 3) = some (0, 3, 3) ∧
      after (running { aabTable with outMem := [(0, 0xC0#8)], outBits := 3#32 } (.encode true) 0 3)
        (fun e => (e.outMem, e.outBits)) = some ([(0, 0xD8#8)], 6#32) := by decide +kernel

/-! ## The bus -/

/-- 20_memory.md R68, 30_encoding.md R100: the earlier symbol is in the less significant bits. -/
theorem test_in_window :
    ((idle Engine.reset).busWrite 0x1000#16 0x00626161#32).eng.inMem =
      [(0, 97#8), (1, 97#8), (2, 98#8), (3, 0#8)] := by decide +kernel

/-- 30_encoding.md R101: the last of the nine writes of SETCODE. -/
theorem test_setCode :
    (Line.setCode 97#8 3 [true, true, false]).moves.getLast? = some (.write 0x5840#16 0x80000003#32) ∧
      (Line.setCode 97#8 3 [true, true, false]).moves.head? = some (.write 0x5844#16 0xC0000000#32) := by
  decide +kernel

/-! ## Witnesses: states that meet the hypotheses of each obligation -/

theorem heapOn_eq {e : Engine} {l : List Nat} (h : e.presentSyms = l) : e.heapBuilt = heapOn e l := by
  subst h; rfl

theorem heapOn_struct {e : Engine} {l : List Nat} (h : e.presentSyms = l)
    (hT : (l.map fun s => (e.freqAt s).toNat).sum ≤ 0xFFFFFFFF) : StructInv (heapOn e l) := by
  rw [← heapOn_eq h]
  exact (heapBuilt_parts e (by unfold Engine.totalFreq; rw [h]; exact hT)).struct

theorem grown_struct {e : Engine} {l : List Nat} (h : e.presentSyms = l) (h0 : l.length ≠ 0)
    (hT : (l.map fun s => (e.freqAt s).toNat).sum ≤ 0xFFFFFFFF) : StructInv (grown (heapOn e l)) := by
  have hT' : e.totalFreq ≤ 0xFFFFFFFF := by unfold Engine.totalFreq; rw [h]; exact hT
  obtain ⟨e', he, hp, -⟩ := buildTreeBody_ok e (by rw [h]; exact h0) hT'
  unfold Engine.buildTreeBody Engine.heapBuildBody at he
  rw [if_neg (by rw [h]; exact h0), if_neg (by omega), heapOn_eq h] at he
  unfold grown
  dsimp only at he
  split at he
  · cases he
  · next e2 h2 => rw [h2]; dsimp only; rw [Except.ok.inj he]; exact hp.struct

theorem aab_syms : aab.presentSyms = [97, 98] := by decide +kernel
theorem aaaa_syms : (freqs [(97, 4)]).presentSyms = [97] := by decide +kernel

theorem aabHeap_struct : StructInv aabHeap := heapOn_struct aab_syms (by decide +kernel)

theorem aabPair_struct : StructInv aabPair := by
  obtain ⟨a, q, r⟩ := heapExtract_keeps aabHeap_struct.arena aabHeap_struct.queueInv aabHeap_struct.root
    (by decide +kernel)
  obtain ⟨a', q', r'⟩ := heapExtract_keeps a q r (by decide +kernel)
  exact (⟨a', q', r'⟩ : Parts _).struct

theorem aabTree_struct : StructInv aabTree := grown_struct aab_syms (by decide) (by decide +kernel)

/-- "aaaa": one leaf, selected as the root. -/
theorem aaaaTree_struct : StructInv aaaaTree := grown_struct aaaa_syms (by decide) (by decide +kernel)

/-- The tree of "aab". -/
def aabHTree : HTree := .node 2 (.leaf 1) (.leaf 0)

theorem aabTree_holds : aabTree.Holds aabHTree ∧ aabHTree.idx = aabTree.rootIdx.toNat := by
  unfold aabHTree Engine.Holds Engine.Holds; decide +kernel

theorem aaaaTree_holds :
    aaaaTree.Holds (.leaf 0) ∧ (HTree.leaf 0).idx = aaaaTree.rootIdx.toNat := by
  unfold Engine.Holds; decide +kernel

theorem reset_inv : Inv State.reset :=
  ⟨by decide, ⟨rfl, rfl, fun _ _ h => (by cases h), fun _ _ h => (by cases h), Nat.zero_le _,
    fun _ h => absurd h (Nat.not_lt_zero _)⟩, reset_parts.struct⟩

theorem witness_DecodeCaseByCase :
    (0x200#32).extractLsb' 9 23 ≠ 0#23 ∧
      ((0x130#32).extractLsb' 9 23 = 0#23 ∧ (0x130#32).extractLsb' 0 8 = 0x30#8) ∧
      ((0x110#32).extractLsb' 9 23 = 0#23 ∧ (0x110#32).extractLsb' 0 8 ≠ 0x30#8 ∧ (0x110#32).getLsbD 8 = true) ∧
      ((0x21#32).extractLsb' 0 8 ≠ 0x30#8 ∧ (0x21#32).getLsbD 8 = false ∧
        (encode .ctClear).extractLsb' 0 8 = (0x21#32).extractLsb' 0 8) ∧
      (∀ i, (encode i).extractLsb' 0 8 ≠ (0x22#32).extractLsb' 0 8) ∧
      ((accepted abra 0x110#32 0 0).phase = .busy ∧ (accepted abra 0x110#32 0 0).enginesTurn ∧
        decode (accepted abra 0x110#32 0 0).cmdL = .error .appendOnOther) := by
  refine ⟨by decide, by decide, by decide, by decide, fun i => ?_, by decide +kernel, accepted_turn _ _ _ _,
    by decide +kernel⟩
  cases i <;> first | decide | (rename_i A; cases A <;> decide)

theorem witness_IllegalWordsComplete :
    (accepted abra 0xFFFFFFFF#32 0 0).phase = .busy ∧ (accepted abra 0xFFFFFFFF#32 0 0).enginesTurn ∧
      (accepted abra 0xFFFFFFFF#32 0 0).cmdL = 0xFFFFFFFF#32 ∧ (∃ x, decode 0xFFFFFFFF#32 = .error x) ∧
      (idle abra).phase = .idle :=
  ⟨rfl, accepted_turn _ _ _ _, rfl, ⟨.reservedBits, by decide⟩, rfl⟩

theorem witness_StepRunsDecodedCommand :
    (running abra .heapBuild 0 0).phase = .busy ∧ (running abra .heapBuild 0 0).enginesTurn ∧
      decode (running abra .heapBuild 0 0).cmdL = .ok .heapBuild ∧ decodeTableWord 32 0x10 = some .heapBuild :=
  ⟨rfl, accepted_turn _ _ _ _, by decide, by decide⟩

theorem witness_AcceptanceLatchesOperands :
    (idle abra).phase = .idle ∧ decode 0x31#32 = .error .reservedOpcode ∧
      (accepted abra 0x31#32 0 0).phase = .busy ∧ (accepted abra 0x31#32 0 0).cmdL = 0x31#32 ∧
      (accepted abra 0x31#32 0 0).enginesTurn :=
  ⟨rfl, by decide, rfl, rfl, accepted_turn _ _ _ _⟩

theorem witness_OverrunDropsCommand : (running abra .nop 0 0).phase ≠ .idle ∧ State.reset.phase ≠ .idle := by
  decide +kernel

/-- Every command completes in some state. -/
theorem witness_CompletionWritesOnlyResults :
    ([Instr.nop, .clear, .heapBuild, .pqInsert, .pqExtract, .pqPeek, .nodeMerge, .mergeStep, .setRoot, .buildTree,
        .genCodes, .ctClear, .encode false, .encode true].all
      fun i => (nextOf (exec i (running { aabTable with freq := aab.freq } i 0 3))).isSome) = true := by decide +kernel

theorem witness_RunningCommandIsIsolated :
    ((running aabTable (.encode true) 0 3).phase ≠ .idle ∧ HostMove.write 0x0010#16 5#32 ≠ .reset) ∧
      (BufferInv State.reset.params State.reset.eng ∧
        (∃ t, exec .nop State.reset = .next t) ∧
        exec (.encode false) (running Engine.reset (.encode false) 0 3) = .fault (.unwrittenInput 0)) :=
  ⟨by decide +kernel, reset_inv.buffers, ⟨_, rfl⟩, fault_of (by decide +kernel)⟩

theorem witness_RegisterAccessWhileBusy :
    (running abra .nop 0 0).phase ≠ .idle ∧ HostMove.write 0x0004#16 1#32 ≠ .reset := by decide +kernel

/-- Both ends of the registers, and the first and the last word of every window. -/
theorem witness_WindowsLockedWhileBusy :
    (running abra .nop 0 0).phase ≠ .idle ∧ (running abra .nop 0 0).params = ⟨4096, 4096⟩ ∧
      (∀ n ∈ [0x0000, 0x0038], inRegisters n) ∧
      (∀ n ∈ [0x0400, 0x07FC, 0x1000, 0x1FFC, 0x2000, 0x2FFC, 0x4000, 0x7FFC, 0x8000, 0x9FFC, 0xA000, 0xA3FC],
        inWindow ⟨4096, 4096⟩ n) := by
  refine ⟨fun h => Phase.noConfusion h, rfl, ?_, ?_⟩
  · unfold inRegisters; decide
  · unfold inWindow; decide

/-- Each of the four clauses of the statement, in one step. Whether the host comes before the engine is the free
latency's to say, so the step that sets OVERRUN is conditional on it. -/
theorem witness_StickyStatusBits :
    (Config.latency 0 ≠ 0 →
      ∃ t, step { State.reset with host := [.write 0x000C#16 0#32] } = .next t ∧ t.overrun = true) ∧
      (nextOf (step { idle abra with overrun := true, host := [.write 0x0008#16 4#32] })).any (fun t => !t.overrun) =
        true ∧
      (nextOf (step (running abra .nop 0 0))).any (fun t => t.done) = true ∧
      (nextOf (step { idle abra with done := true, host := [.write 0x0008#16 2#32] })).any (fun t => !t.done) = true ∧
      (nextOf (step { idle abra with done := true, host := [.write 0x000C#16 0#32] })).any (fun t => !t.done) = true ∧
      (nextOf (step { idle abra with done := true, overrun := true, host := [.reset] })).any
        (fun t => !t.done && !t.overrun) = true := by
  refine ⟨fun h => ?_, by decide +kernel, by decide +kernel, by decide +kernel, by decide +kernel, by decide +kernel⟩
  have h0 : 0 < Config.latency 0 := Nat.pos_of_ne_zero h
  exact ⟨_, by simp [step, State.advance, State.nextAgent, State.reset, State.resetOf, h0]; rfl, by rfl⟩

/-- A running command, and the state right after reset, neither of them IDLE. -/
theorem witness_OperationsFinish : (running aabTable (.encode false) 0 3).phase ≠ .idle ∧ State.reset.phase ≠ .idle :=
  ⟨fun h => Phase.noConfusion h, fun h => Phase.noConfusion h⟩

/-- The smallest and the default instance, and the addresses where the clauses meet. -/
theorem witness_BusErrorsExactly :
    Params.wf ⟨4, 4⟩ = true ∧ State.reset.params.wf = true ∧
      (∀ n ∈ [0x0000, 0x0038, 0x0400, 0x07FC, 0x1000, 0x2000, 0x4000, 0xA3FC], inRegisters n ∨ inWindow ⟨4, 4⟩ n) ∧
      (∀ n ∈ [0x003C, 0x03FC, 0x0800, 0x0FFC, 0x1004, 0x2004, 0x3FFC, 0xA400, 0xFFFC],
        ¬ (inRegisters n ∨ inWindow ⟨4, 4⟩ n)) ∧
      (inWindow ⟨4096, 4096⟩ 0x1FFC ∧ (running abra .nop 0 0).phase ≠ .idle) ∧ (0x0402#16).toNat % 4 ≠ 0 := by
  unfold inRegisters inWindow
  exact ⟨by decide, by decide, by decide, by decide, ⟨by decide, fun h => Phase.noConfusion h⟩, by decide⟩

theorem witness_ReadOnlyIgnoresWrites :
    (idle abra).phase = .idle ∧ (0x8000 ≤ (0x8000#16).toNat ∧ (0x8000#16).toNat % 4 = 0) ∧
      (0x8000 ≤ (0xA3FC#16).toNat ∧ (0xA3FC#16).toNat < 0xA400 ∧ (0xA3FC#16).toNat % 4 = 0) ∧ (9 ≤ 9 ∧ 15 ≤ 15) ∧
      (8 ≤ 8 ∧ 30 ≤ 30) ∧ (0x40000003#32).getLsbD 31 = (3#32 : Word).getLsbD 31 ∧
      (0x40000003#32).extractLsb' 0 8 = (3#32 : Word).extractLsb' 0 8 := by
  exact ⟨rfl, by decide, by decide, by decide, by decide, by decide, by decide⟩

theorem witness_FreqWindow : (idle abra).phase = .idle ∧ (0#32 : Word) = 0#32 := ⟨rfl, rfl⟩

/-- The first and the last word of each window, and a written byte of each. -/
theorem witness_BufferWindows :
    State.reset.params.wf = true ∧ (idle { aabTable with outMem := [(0, 0xC0#8)] }).phase = .idle ∧
      (4 * 0 < State.reset.params.inBytes ∧ 4 * 1023 < State.reset.params.inBytes ∧
        4 * 1023 < State.reset.params.outBytes) ∧
      aabTable.inMem.read (4 * 0 + 2) = some 98#8 ∧ Memory.read [(0, 0xC0#8)] (4 * 0 + 0) = some 0xC0#8 ∧
      ({ aabTable with outMem := [(0, 0xC0#8)] }).streamBit 0 = some true :=
  ⟨by decide, rfl, by decide, by decide, by decide, by decide +kernel⟩

theorem witness_CodeTableWindow :
    (idle aabTable).phase = .idle ∧ 0 < 8 ∧ 7 < 8 ∧ (9 ≤ 9 ∧ 9 ≤ 15) ∧ (9 ≤ 15 ∧ 15 ≤ 15) ∧ (98#8 : Byte) ≠ 97#8 :=
  ⟨rfl, by decide, by decide, by decide, by decide, by decide⟩

theorem witness_NodeWindow :
    (idle aabTree).phase = .idle ∧ (0 < 512 ∧ 2 < (idle aabTree).eng.nodeCount.toNat) ∧
      ((idle aabTree).eng.nodeCount.toNat ≤ 3 ∧ 3 < 4) ∧ 511 < 512 ∧ (idle aabTree).eng.nodeCount.toNat ≤ 511 :=
  ⟨rfl, by decide +kernel, by decide +kernel, by decide, by decide +kernel⟩

theorem witness_HeapWindow :
    (idle abraHeap).phase = .idle ∧ 4 < (idle abraHeap).eng.heapSize.toNat ∧ (idle abraHeap).eng.heapSize.toNat ≤ 255 :=
  ⟨rfl, by decide +kernel, by decide +kernel⟩

theorem idle_reset_inv : Inv (idle Engine.reset) := ⟨reset_inv.params, reset_inv.buffers, reset_inv.struct⟩

theorem witness_PlainStoresAreIdempotent :
    Inv (idle Engine.reset) ∧ 0x1000#16 ≠ 0x000C#16 ∧ (idle Engine.reset).phase = .idle ∧
      (idle Engine.reset).overrun = false := ⟨idle_reset_inv, by decide, rfl, rfl⟩

theorem witness_StatusWordAndInterrupt :
    (∃ t, exec .pqPeek (running abraHeap .pqPeek 0 0) = .next t) ∧ (idle abra).phase = .idle ∧
      (2#32 : Word).getLsbD 1 = true ∧ 3 = 3 ∧ 8 ≤ 31 :=
  ⟨⟨_, rfl⟩, rfl, by decide, rfl, by decide⟩

theorem witness_InitialisationStep :
    State.reset.phase = .init ∧ State.reset.enginesTurn ∧ inWindow State.reset.params (0xA3FC#16).toNat :=
  ⟨rfl, ⟨fun h => Phase.noConfusion h, .inl rfl⟩, by unfold inWindow; decide⟩

theorem witness_NopResult : (running abra .nop 0 0).overrun = false := rfl

/-- A total of 2^32, and one of 2^32 - 1. -/
def tooMuch : Engine := freqs [(0, 0xFFFFFFFF), (255, 1)]
def most : Engine := freqs [(255, 0xFFFFFFFF)]

theorem reset_syms : Engine.reset.presentSyms = [] := by decide +kernel
theorem tooMuch_syms : tooMuch.presentSyms = [0, 255] := by decide +kernel
theorem most_syms : most.presentSyms = [255] := by decide +kernel

theorem totals : 0xFFFFFFFF < tooMuch.totalFreq ∧ most.totalFreq ≤ 0xFFFFFFFF := by
  unfold Engine.totalFreq
  rw [tooMuch_syms, most_syms]; decide +kernel

/-- No symbol; a total of 2^32; and a total of 2^32 - 1. -/
theorem witness_HeapBuildResult :
    Engine.reset.presentSyms = [] ∧ (tooMuch.presentSyms ≠ [] ∧ 0xFFFFFFFF < tooMuch.totalFreq) ∧
      most.presentSyms ≠ [] ∧ most.totalFreq ≤ 0xFFFFFFFF :=
  ⟨reset_syms, ⟨by rw [tooMuch_syms]; decide, totals.1⟩, by rw [most_syms]; decide, totals.2⟩

/-- The largest arena, every entry LOOSE. -/
def full : Engine := { Engine.reset with nodeCount := 511#10, leafCount := 256#9 }

/-- Each clause, with the last node of the largest arena. -/
theorem witness_PqInsertResult :
    full.nodeCount.toNat ≤ (running full .pqInsert 511 0).arg0L.toNat ∧
      ((running abraHeap .pqInsert 1 0).arg0L.toNat < abraHeap.nodeCount.toNat ∧
        abraHeap.ownAt (running abraHeap .pqInsert 1 0).arg0L.toNat ≠ .loose) ∧
      ((running full .pqInsert 510 0).arg0L.toNat < full.nodeCount.toNat ∧
        full.ownAt (running full .pqInsert 510 0).arg0L.toNat = .loose ∧
        ({ full with heapSize := 256#9 }).heapSize.toNat = 256 ∧ ({ full with heapSize := 255#9 }).heapSize.toNat < 256 ∧
        full.nodeCount.toNat ≤ 511) := by decide +kernel

theorem witness_PqExtractResult :
    Engine.reset.heapSize.toNat = 0 ∧ 1 ≤ abraHeap.heapSize.toNat ∧ 1 ≤ (queueing aabLoose [1]).heapSize.toNat := by
  decide +kernel

theorem witness_PqPeekResult : Engine.reset.heapSize.toNat = 0 ∧ 1 ≤ abraHeap.heapSize.toNat := by decide +kernel

/-- Each of the five clauses: the last two at 511 and 510 allocated nodes, and sums of 2^32 and 2^32 - 1. -/
theorem witness_NodeMergeResult :
    (aabLoose.nodeCount.toNat ≤ 2 ∧ 0 < aabLoose.nodeCount.toNat) ∧ (1 < aabLoose.nodeCount.toNat ∧ 1 = 1) ∧
      (0 < abraHeap.nodeCount.toNat ∧ 1 < abraHeap.nodeCount.toNat ∧ abraHeap.ownAt 0 ≠ .loose) ∧
      (509 < full.nodeCount.toNat ∧ full.ownAt 509 = .loose ∧ full.ownAt 510 = .loose ∧ full.nodeCount.toNat = 511) ∧
      (let e := leaves [(97, 0xFFFFFFFF), (98, 1)] .loose;
        e.nodeCount.toNat = 2 ∧ e.ownAt 0 = .loose ∧ e.ownAt 1 = .loose ∧ 0xFFFFFFFF < e.weightAt 0 + e.weightAt 1) ∧
      (let e := leaves [(97, 0xFFFFFFFE), (98, 1)] .loose;
        e.nodeCount.toNat = 2 ∧ e.ownAt 0 = .loose ∧ e.ownAt 1 = .loose ∧ e.weightAt 0 + e.weightAt 1 ≤ 0xFFFFFFFF) ∧
      (let e := { full with nodeCount := 510#10 };
        509 < e.nodeCount.toNat ∧ e.ownAt 509 = .loose ∧ e.nodeCount.toNat < 511 ∧
          e.weightAt 0 + e.weightAt 509 ≤ 0xFFFFFFFF) := by decide +kernel

/-- A queue of two leaves whose weights add up to 2^32. -/
def heavy : Engine := queueing (leaves [(97, 0x80000000), (98, 0x80000000)] .loose) [0, 1]

theorem aabHeap_size : aabHeap.heapSize.toNat = 2 := by
  decide +kernel

theorem witness_MergeStepIsItsParts :
    (queueing aabLoose [1]).heapSize.toNat < 2 ∧
      (2 ≤ ({ full with heapSize := 2#9 }).heapSize.toNat ∧ ({ full with heapSize := 2#9 }).nodeCount.toNat = 511) ∧
      (∃ s1 s2, 2 ≤ heavy.heapSize.toNat ∧ heavy.nodeCount.toNat ≠ 511 ∧
        exec .pqExtract (running heavy .mergeStep 0 0) = .next s1 ∧ exec .pqExtract s1 = .next s2 ∧
        0xFFFFFFFF < s1.res1.toNat + s2.res1.toNat) ∧
      StructInv aabHeap ∧ 2 ≤ aabHeap.heapSize.toNat :=
  ⟨by decide +kernel, by decide +kernel, ⟨_, _, by decide +kernel, by decide +kernel, rfl, rfl, by decide +kernel⟩,
    aabHeap_struct, by rw [aabHeap_size]⟩

theorem witness_SetRootResult :
    full.nodeCount.toNat ≤ (running full .setRoot 511 0).arg0L.toNat ∧
      ((running abraHeap .setRoot 1 0).arg0L.toNat < abraHeap.nodeCount.toNat ∧
        abraHeap.ownAt (running abraHeap .setRoot 1 0).arg0L.toNat ≠ .loose) ∧
      ((running full .setRoot 510 0).arg0L.toNat < full.nodeCount.toNat ∧
        full.ownAt (running full .setRoot 510 0).arg0L.toNat = .loose ∧ full.nodeCount.toNat ≤ 511) ∧
      ((aabLoose.selectRoot 0#9).ownAt 1 = .loose ∧ (aabLoose.selectRoot 0#9).rootValid = true) := by decide +kernel

theorem witness_BuildTreeIsItsParts :
    Engine.reset.presentSyms = [] ∧ (tooMuch.presentSyms ≠ [] ∧ 0xFFFFFFFF < tooMuch.totalFreq) ∧
      most.presentSyms ≠ [] ∧ most.totalFreq ≤ 0xFFFFFFFF := witness_HeapBuildResult

theorem witness_GenCodesResult :
    Engine.reset.rootValid = false ∧ StructInv aabTree ∧ aabTree.rootValid = true :=
  ⟨rfl, aabTree_struct, by decide +kernel⟩

/-- No symbol; a range one byte too long; and a sum that does not fit in 32 bits. -/
theorem witness_EncodeRejectsOperands :
    (running aabTable (.encode false) 0 0).arg1L = 0#32 ∧
      ((running aabTable (.encode false) 4095 2).arg1L ≠ 0#32 ∧
        4096 < (running aabTable (.encode false) 4095 2).arg0L.toNat + (running aabTable (.encode false) 4095 2).arg1L.toNat) ∧
      (running aabTable (.encode true) 0xFFFFFFFF 2).arg1L ≠ 0#32 ∧
      4096 < (running aabTable (.encode true) 0xFFFFFFFF 2).arg0L.toNat + (running aabTable (.encode true) 0xFFFFFFFF 2).arg1L.toNat := by
  decide +kernel

/-- A new stream, and one that ends at the last bit of OUT_MEM. -/
theorem witness_EncodeResult :
    State.reset.params.wf = true ∧ (running aabTable (.encode true) 0 3).arg1L ≠ 0#32 ∧
      (running aabTable (.encode true) 0 3).arg0L.toNat + (running aabTable (.encode true) 0 3).arg1L.toNat ≤ 4096 ∧
      aabTable.text 0 3 = some [97#8, 97#8, 98#8] ∧
      (∀ b ∈ ([97#8, 97#8, 98#8] : List Byte), (aabTable.ctAt b.toNat).valid = true) ∧
      0 + (aabTable.codesOf [97#8, 97#8, 98#8]).length ≤ 8 * 4096 ∧
      ({ aabTable with outBits := 32765#32 }).outBits.toNat + (aabTable.codesOf [97#8, 97#8, 98#8]).length = 8 * 4096 := by
  refine ⟨by decide, by decide +kernel, by decide +kernel, by decide +kernel, fun b hb => ?_, by decide +kernel,
    by decide +kernel⟩
  simp only [List.mem_cons, List.not_mem_nil, or_false] at hb
  rcases hb with rfl | rfl | rfl <;> decide +kernel

/-- Both errors, each at the first symbol (`m` = 0) and at the second. -/
theorem witness_EncodeStopsPrecisely :
    (0 < 3 ∧ 1 < 3 ∧ 0 + 3 ≤ 4096) ∧
      (let e := { aabTable with inMem := [(0, 97#8), (1, 99#8)] };
        e.text 0 0 = some [] ∧ e.text 0 1 = some [97#8] ∧ (e.ctAt 97).valid = true ∧ e.inMem.read (0 + 1) = some 99#8 ∧
          (e.ctAt 99).valid = false ∧ e.inMem.read (1 + 0) = some 99#8) ∧
      (let e := { aabTable with outBits := 32767#32 };
        e.text 0 1 = some [97#8] ∧ e.outBits.toNat + (e.codesOf [97#8]).length ≤ 8 * 4096 ∧
          e.inMem.read (0 + 1) = some 97#8 ∧ (e.ctAt 97).valid = true ∧
          8 * 4096 < e.outBits.toNat + (e.codesOf [97#8]).length + (e.ctAt 97).len.toNat) ∧
      (let e := { aabTable with outBits := 32768#32 };
        e.text 0 0 = some [] ∧ e.outBits.toNat + (e.codesOf []).length ≤ 8 * 4096 ∧ e.inMem.read (0 + 0) = some 97#8 ∧
          8 * 4096 < e.outBits.toNat + (e.codesOf []).length + (e.ctAt 97).len.toNat) := by
  refine ⟨by decide, ?_, ?_, ?_⟩
  · exact ⟨by decide +kernel, by decide +kernel, by decide +kernel, by decide +kernel, by decide +kernel, by decide +kernel⟩
  · exact ⟨by decide +kernel, by decide +kernel, by decide +kernel, by decide +kernel, by decide +kernel⟩
  · exact ⟨by decide +kernel, by decide +kernel, by decide +kernel, by decide +kernel⟩

/-- The first byte of reset memory, and the byte after "aab". -/
theorem witness_EncodeFaultsOnUnwrittenInput :
    (Engine.reset.text 0 0 = some [] ∧ Engine.reset.inMem.read (0 + 0) = none) ∧
      (aabTable.text 0 3 = some [97#8, 97#8, 98#8] ∧ aabTable.inMem.read (0 + 3) = none ∧ 3 < 4 ∧ 0 + 4 ≤ 4096) ∧
      faultOf (exec (.encode false) (running aabTable (.encode false) 0 4)) = some (.unwrittenInput 3) :=
  ⟨⟨by decide +kernel, by decide +kernel⟩, ⟨by decide +kernel, by decide +kernel, by decide, by decide⟩,
    by decide +kernel⟩

/-- Every command the frames speak of completes without error in some state. -/
theorem witness_CommandFrames :
    (([(Instr.nop, abraHeap, 0, 0), (.clear, abraHeap, 0, 0), (.heapBuild, aab, 0, 0), (.pqInsert, aabLoose, 1, 0),
        (.pqExtract, abraHeap, 0, 0), (.pqPeek, abraHeap, 0, 0), (.nodeMerge, aabLoose, 1, 0),
        (.mergeStep, abraHeap, 0, 0), (.setRoot, aabLoose, 1, 0), (.buildTree, aab, 0, 0), (.genCodes, aabTree, 0, 0),
        (.ctClear, aabTable, 0, 0), (.encode false, aabTable, 0, 3), (.encode true, aabTable, 0, 3)] :
        List (Instr × Engine × Nat × Nat)).all
      fun c => (nextOf (exec c.1 (running c.2.1 c.1 c.2.2.1 c.2.2.2))).any fun t => decide (t.err = 0#4)) = true := by
  decide +kernel

theorem witness_EncodeStoreFrame :
    State.reset.params.wf = true ∧ ({ aabTable with outMem := [(0, 0xC0#8)], outBits := 3#32 }).outBits.toNat ≤ 8 * 4096 ∧
      (∃ t, exec (.encode true)
        (running { aabTable with outMem := [(0, 0xC0#8)], outBits := 3#32 } (.encode true) 0 3) = .next t) ∧
      2 < 3 ∧ ({ aabTable with outMem := [(0, 0xC0#8)], outBits := 3#32 }).streamBit 2 = some false :=
  ⟨by decide, by decide +kernel, (next_of_any (p := fun _ => true) (by decide +kernel)).imp fun _ h => h.1, by decide,
    by decide +kernel⟩

/-- Equal weights in index order, then a larger weight. -/
theorem witness_HeapOrderIsStrictTotal :
    abraHeap.less 2#9 3#9 = true ∧ abraHeap.less 3#9 1#9 = true ∧ (2#9 : NodeIdx) ≠ 3#9 := by decide +kernel

theorem witness_SiftLoops : 0 < 256 ∧ 255 < 256 := by decide

/-- A code of the greatest length, another symbol, and a bit below the length. -/
theorem witness_StoreCodeReadsBack :
    (List.replicate 255 true).length ≤ 255 ∧ (0 < 256 ∧ 255 < 256) ∧ (98#8 : Byte) ≠ 97#8 ∧
      254 < (⟨true, 255#8, Vector.replicate 8 0#32⟩ : CtEntry).len.toNat := by decide +kernel

/-- The first bit of a byte and its fourth; and the last bit of a byte after three emitted bits. -/
theorem witness_EmitBitPlacesBit :
    (Engine.reset.outBits.toNat + 1 < 2 ^ 32 ∧ Engine.reset.outBits.toNat % 8 = 0 ∧ 6 < 8 ∧ 6 ≠ 7 - 0) ∧
      (let e := { Engine.reset with outMem := [(0, 0xC0#8)], outBits := 3#32 };
        e.outBits.toNat % 8 ≠ 0 ∧ e.outMem.read (e.outBits.toNat / 8) = some 0xC0#8) ∧
      (Engine.reset.outBits.toNat + [true, true, false].length ≤ 7 ∧
        7 / 8 = (Engine.reset.outBits.toNat + [true, true, false].length) / 8 ∧
        (Engine.reset.outBits.toNat + [true, true, false].length) % 8 ≠ 0) :=
  ⟨by decide, ⟨by decide, by decide⟩, by decide⟩

theorem witness_HeapMinimumFirst :
    StructInv aabHeap ∧ (0 < 1 ∧ 1 < aabHeap.heapSize.toNat) ∧
      (aabHeap.heapAt 1 ∈ aabHeap.queue ∧ aabHeap.heapAt 1 ≠ aabHeap.heapAt 0) ∧
      ∃ t, exec .pqPeek (running aabHeap .pqPeek 0 0) = .next t ∧ 1 < t.eng.heapSize.toNat := by
  obtain ⟨t, ht, h⟩ := next_of_any (o := exec .pqPeek (running aabHeap .pqPeek 0 0))
    (p := fun t => decide (1 < t.eng.heapSize.toNat)) (by decide +kernel)
  exact ⟨aabHeap_struct, by rw [aabHeap_size]; decide, by decide +kernel, t, ht, of_decide_eq_true h⟩

/-- Two states of R44 with the same nodes queued: the second has another OUT_BITS. -/
theorem witness_ExtractionOrder :
    StructInv (running aabHeap .pqExtract 0 0).eng ∧ StructInv (idle aabHeap).eng ∧
      (idle aabHeap).eng.queue.Perm (running aabHeap .pqExtract 0 0).eng.queue ∧
      ∀ n ∈ (running aabHeap .pqExtract 0 0).eng.queue,
        (idle aabHeap).eng.weightAt n.toNat = (running aabHeap .pqExtract 0 0).eng.weightAt n.toNat :=
  ⟨aabHeap_struct, aabHeap_struct, .refl _, fun _ _ => rfl⟩

theorem witness_UnreachableChecks :
    StructInv aabHeap ∧ (∃ t, exec .pqInsert (running aabHeap .pqInsert 0 0) = .next t) ∧
      (∃ t, exec .mergeStep (running aabHeap .mergeStep 0 0) = .next t) ∧
      StructInv aabPair ∧
      ∃ t, exec .nodeMerge (running aabPair .nodeMerge 0 1) = .next t :=
  ⟨aabHeap_struct, ⟨_, rfl⟩, ⟨_, rfl⟩, aabPair_struct, ⟨_, rfl⟩⟩

/-- "aab" has more than one leaf, "aaaa" has one; the other state differs in all but FREQ. -/
theorem witness_BuildTreeConsequences :
    (∃ t, exec .buildTree (running aab .buildTree 0 0) = .next t ∧ t.err = 0#4) ∧
      (∃ t, exec .buildTree (running (freqs [(97, 4)]) .buildTree 0 0) = .next t ∧ t.err = 0#4) ∧
      (idle { abraHeap with freq := aab.freq }).eng.freq = (running aab .buildTree 0 0).eng.freq := by
  obtain ⟨t, ht, h⟩ := next_of_any (o := exec .buildTree (running aab .buildTree 0 0))
    (p := fun t => decide (t.err = 0#4)) (by decide +kernel)
  obtain ⟨u, hu, h'⟩ := next_of_any (o := exec .buildTree (running (freqs [(97, 4)]) .buildTree 0 0))
    (p := fun t => decide (t.err = 0#4)) (by decide +kernel)
  exact ⟨⟨t, ht, of_decide_eq_true h⟩, ⟨u, hu, of_decide_eq_true h'⟩, rfl⟩

/-- A tree of two leaves, and one that is a single leaf. -/
theorem witness_CodeTableIsPrefixFreeAndFull :
    (StructInv aabTree ∧ (∃ t, exec .genCodes (running aabTree .genCodes 0 0) = .next t ∧ t.err = 0#4) ∧
        aabTree.Holds aabHTree ∧ aabHTree.idx = aabTree.rootIdx.toNat ∧ 2 ≤ aabHTree.leaves) ∧
      StructInv aaaaTree ∧
        (∃ t, exec .genCodes (running aaaaTree .genCodes 0 0) = .next t ∧ t.err = 0#4) ∧
        aaaaTree.Holds (.leaf 0) ∧ (HTree.leaf 0).idx = aaaaTree.rootIdx.toNat ∧
        (HTree.leaf 0).leaves = 1 := by
  obtain ⟨t, ht, h⟩ := next_of_any (o := exec .genCodes (running aabTree .genCodes 0 0))
    (p := fun t => decide (t.err = 0#4)) (by decide +kernel)
  obtain ⟨u, hu, h'⟩ := next_of_any (o := exec .genCodes (running aaaaTree .genCodes 0 0))
    (p := fun t => decide (t.err = 0#4)) (by decide +kernel)
  exact ⟨⟨aabTree_struct, ⟨t, ht, of_decide_eq_true h⟩, aabTree_holds.1, aabTree_holds.2, by decide⟩, aaaaTree_struct,
    ⟨u, hu, of_decide_eq_true h'⟩, aaaaTree_holds.1, aaaaTree_holds.2, rfl⟩

theorem params_of (e : Engine) (i : Instr) (a0 a1 : Nat) : (running e i a0 a1).params.wf = true := by
  show Params.wf ⟨4096, 4096⟩ = true; decide

/-- GEN_CODES on the tree of "aab", then the text loaded and encoded. -/
theorem witness_EncodedTextDecodesBack :
    ∃ s1 s3 : State, StructInv aabTree ∧
      exec .genCodes (running aabTree .genCodes 0 0) = .next s1 ∧ s1.err = 0#4 ∧
      (running { s1.eng with inMem := aabText } (.encode false) 0 3).params.wf = true ∧
      exec (.encode false) (running { s1.eng with inMem := aabText } (.encode false) 0 3) = .next s3 ∧ s3.err = 0#4 := by
  obtain ⟨s1, h1, h⟩ := next_of_any (o := exec .genCodes (running aabTree .genCodes 0 0))
    (p := fun s1 => decide (s1.err = 0#4) &&
      (nextOf (exec (.encode false) (running { s1.eng with inMem := aabText } (.encode false) 0 3))).any
        fun s3 => decide (s3.err = 0#4)) (by decide +kernel)
  obtain ⟨ha, hb⟩ := Bool.and_eq_true_iff.1 h
  obtain ⟨s3, h3, hc⟩ := next_of_any hb
  exact ⟨s1, s3, aabTree_struct, h1, of_decide_eq_true ha, params_of _ _ _ _, h3, of_decide_eq_true hc⟩

theorem witness_InvAtReset : Params.wf ⟨4, 4⟩ = true ∧ Params.wf ⟨4096, 4096⟩ = true := by decide

/-- The initialisation step, and a write of the host. -/
theorem witness_StepKeepsInv :
    (Inv State.reset ∧ ∃ t, step State.reset = .next t) ∧
      Inv { idle Engine.reset with host := [.write 0x1000#16 5#32] } ∧
      ∃ t, step { idle Engine.reset with host := [.write 0x1000#16 5#32] } = .next t :=
  ⟨⟨reset_inv, _, rfl⟩, ⟨reset_inv.params, reset_inv.buffers, reset_inv.struct⟩, _, rfl⟩

theorem witness_EveryCommandCompletes : Inv State.reset ∧ Inv (idle Engine.reset) := ⟨reset_inv, idle_reset_inv⟩

/-- An error of each class. -/
theorem witness_ErrorsCommitPrecisely :
    (∃ t, exec .pqExtract (running Engine.reset .pqExtract 0 0) = .next t ∧ t.err ≠ 0#4 ∧ t.err ≠ 0x2#4 ∧ t.err ≠ 0xB#4) ∧
      (∃ t, exec (.encode false) (running { aabTable with inMem := [(0, 97#8), (1, 99#8)] } (.encode false) 0 2) = .next t ∧
        t.err = 0x2#4) ∧
      ∃ t, exec (.encode true) (running { aabTable with outBits := 32767#32 } (.encode true) 0 3) = .next t ∧
        t.err = 0xB#4 := by
  obtain ⟨t, ht, h⟩ := next_of_any
    (o := exec (.encode false) (running { aabTable with inMem := [(0, 97#8), (1, 99#8)] } (.encode false) 0 2))
    (p := fun t => decide (t.err = 0x2#4)) (by decide +kernel)
  obtain ⟨u, hu, h'⟩ := next_of_any
    (o := exec (.encode true) (running { aabTable with outBits := 32767#32 } (.encode true) 0 3))
    (p := fun t => decide (t.err = 0xB#4)) (by decide +kernel)
  exact ⟨⟨_, rfl, by decide +kernel⟩, ⟨t, ht, of_decide_eq_true h⟩, u, hu, of_decide_eq_true h'⟩

theorem witness_ErrorCodesRaised :
    ∃ t, exec .genCodes (running Engine.reset .genCodes 0 0) = .next t ∧ t.err = 8#4 :=
  ⟨_, rfl, by decide +kernel⟩

/-- The state of `s` before and of `t` after satisfies every hypothesis, and OWN[j] changes. -/
def ownChanges (i : Instr) (e : Engine) (a0 a1 j : Nat) : Bool :=
  decide (j < e.nodeCount.toNat) &&
    (nextOf (exec i (running e i a0 a1))).any fun t => decide (t.eng.ownAt j ≠ e.ownAt j)

/-- Each of the transitions of the statement, from states of R44. -/
theorem witness_OwnershipTransitions :
    StructInv aabHeap ∧ StructInv aabPair ∧
      StructInv (aabPair.releaseRoot.selectRoot 0#9) ∧
      (ownChanges .pqExtract aabHeap 0 0 1 && ownChanges .mergeStep aabHeap 0 0 0 &&
        ownChanges .pqInsert aabPair 0 0 0 &&
        ownChanges .nodeMerge aabPair 0 1 1 &&
        ownChanges .setRoot aabPair 1 0 1 &&
        ownChanges .setRoot (aabPair.releaseRoot.selectRoot 0#9) 1 0 0) = true :=
  ⟨aabHeap_struct, aabPair_struct,
    (setRoot_parts ⟨aabPair_struct.arena, aabPair_struct.queueInv, aabPair_struct.root⟩ (by decide +kernel)
      (by decide +kernel)).struct, by decide +kernel⟩

end Sys2Proof.Tests
end

section
/-! PROOFS. 00_scope.md R10: every operation under way finishes. While it is the host's turn a move either
shortens the host's list or uses up one of the free latency's moves, so the engine's turn comes; its step ends
the operation or faults. -/

namespace Sys2Proof.Machine

/-- The run from `s` reaches PHASE = IDLE, or stops in a fault. -/
def State.Finishes (s : State) : Prop :=
  ∃ n, (∃ t, core.run n s = .next t ∧ State.phase t = .idle) ∨ ∃ f, core.run n s = .fault f

theorem finishes_of_idle {s : State} (h : s.phase = .idle) : s.Finishes := ⟨0, .inl ⟨s, rfl, h⟩⟩

theorem finishes_of_step {s t : State} (h : step s = .next t) (ht : t.Finishes) : s.Finishes := by
  obtain ⟨n, hn⟩ := ht
  exact ⟨n + 1, by rwa [run_succ n s t h]⟩

theorem finishes_of_fault {s : State} {f : Fault} (h : step s = .fault f) : s.Finishes := by
  have h : core.step s = .fault f := h
  exact ⟨1, .inr ⟨f, by simp only [Host.Core.run, h]⟩⟩

/-- The engine's step ends the operation: the initialisation step, or the completion of CMD_L's command. -/
theorem finishes_of_enginesTurn {s : State} (h : s.enginesTurn) : s.Finishes := by
  cases hp : s.phase with
  | idle => exact finishes_of_idle hp
  | init => exact finishes_of_step (step_init hp h) (finishes_of_idle s.initStep_phase)
  | busy =>
    cases hd : decode s.cmdL with
    | error x => exact finishes_of_step (step_illegal hp h hd) (finishes_of_idle s.completeIllegal_phase)
    | ok i =>
      have hs := step_busy hp h hd
      cases hx : exec i s with
      | next t =>
        obtain ⟨c, k, rfl, _⟩ := exec_completion hx
        exact finishes_of_step (hs.trans hx) (finishes_of_idle rfl)
      | fault f => exact finishes_of_fault (hs.trans hx)
      | refused r => exact absurd hx (exec_not_refused i s r)

/-- While an operation is under way and it is not the engine's turn, the host's step leaves it under way, and
makes the host's list shorter or, keeping it, leaves fewer moves to the free latency. -/
theorem hostStep_decreases {s : State} (hp : s.phase ≠ .idle) (he : ¬ s.enginesTurn) :
    s.hostStep.phase ≠ .idle ∧
      (s.hostStep.host.length < s.host.length ∨
        s.hostStep.host = s.host ∧
          Config.latency s.hostStep.starts - s.hostStep.busyMoves < Config.latency s.starts - s.busyMoves) := by
  obtain ⟨hne, hl⟩ := not_or.1 fun h => he ⟨hp, h⟩
  obtain ⟨m, rest, hh⟩ := List.exists_cons_of_ne_nil hne
  have hstep : s.hostStep = ({ s with busyMoves := s.busyMoves + 1 } : State).hostMove m rest := by
    rw [State.hostStep, hh]
  rw [hstep]
  obtain ⟨hp', hused | ⟨hkept, hstarts, hmoves⟩⟩ :=
    hostMove_progress { s with busyMoves := s.busyMoves + 1 } m rest hh hp
  · exact ⟨hp', .inl (by rw [hused, hh]; exact Nat.lt_succ_self _)⟩
  · refine ⟨hp', .inr ⟨hkept, ?_⟩⟩
    rw [hstarts, hmoves]
    exact Nat.sub_lt_sub_left (Nat.lt_of_not_le hl) (Nat.lt_succ_self _)

theorem finishes_of_not_idle (s : State) (hp : s.phase ≠ .idle) : s.Finishes := by
  by_cases he : s.enginesTurn
  · exact finishes_of_enginesTurn he
  · have hdec := hostStep_decreases hp he
    exact finishes_of_step (step_host he) (finishes_of_not_idle s.hostStep hdec.1)
termination_by (s.host.length, Config.latency s.starts - s.busyMoves)
decreasing_by
  rcases hdec.2 with hshort | ⟨hkept, hfewer⟩
  · exact Prod.Lex.left _ _ hshort
  · rw [hkept]
    exact Prod.Lex.right _ hfewer

/-- Settles O13, by well-founded induction on the host's remaining moves and then the free latency's. -/
theorem operationsFinish : Obligations.OperationsFinish := by
  unfold Obligations.OperationsFinish
  exact finishes_of_not_idle

end Sys2Proof.Machine
end

section
/-! PROOFS. 10_state.md R44, R46: the invariant of the machine holds at reset and every step keeps it. The
structure is kept by `exec_parts`; the buffers are kept by a command of the queue or the tree because it writes
nothing outside the arena, the heap, the counts and ROOT, and by the others as they clear, store codes or encode.
A host move reaches the engine-owned state only by a window write or a reset. -/

namespace Sys2Proof.Machine

/-! ## The invariant at reset -/

theorem resetOf_inv {p : Params} (hp : p.wf = true) : Inv (State.resetOf p) :=
  ⟨hp, reset_buffers p, reset_parts.struct⟩

/-- Settles O54: the arena and both buffers are empty at reset. -/
theorem invAtReset : Obligations.InvAtReset := by
  unfold Obligations.InvAtReset
  exact ⟨resetOf_inv (by decide), fun _ => resetOf_inv⟩

/-! ## The commands of the queue and of the tree keep the buffers -/

theorem SameOutside.refl (e : Engine) : SameOutside e e := ⟨rfl, rfl, rfl, rfl, rfl⟩

theorem SameOutside.buffers {p : Params} {e e' : Engine} (h : SameOutside e e') (b : BufferInv p e) :
    BufferInv p e' := b.congr h.inMem h.outMem h.outBits

theorem heapInsert_outside (e : Engine) (n : NodeIdx) : SameOutside e (e.heapInsert n) := ⟨rfl, rfl, rfl, rfl, rfl⟩

theorem heapExtract_outside (e : Engine) : SameOutside e e.heapExtract.2 := ⟨rfl, rfl, rfl, rfl, rfl⟩

theorem mergeNodes_outside (e : Engine) (a b : NodeIdx) : SameOutside e (e.mergeNodes a b) :=
  ⟨rfl, rfl, rfl, rfl, rfl⟩

theorem setRoot_outside (e : Engine) (n : NodeIdx) : SameOutside e (e.releaseRoot.selectRoot n) := by
  obtain ⟨-, -, -, -, -, hfreq, hct, hin, hout, hbits⟩ := e.releaseRoot_rest
  exact ⟨hfreq, hct, hin, hout, hbits⟩

theorem cmdHeapBuild_outside (e : Engine) : SameOutside e e.cmdHeapBuild.eng := by
  unfold Engine.cmdHeapBuild
  split
  · exact .refl e
  · next hbody => exact heapBuildBody_outside hbody

theorem cmdPqInsert_outside (e : Engine) (n : Word) : SameOutside e (e.cmdPqInsert n).eng := by
  unfold Engine.cmdPqInsert
  split_ifs
  · exact .refl e
  · exact .refl e
  · exact .refl e
  · exact heapInsert_outside e _

theorem cmdPqExtract_outside (e : Engine) : SameOutside e e.cmdPqExtract.eng := by
  unfold Engine.cmdPqExtract
  split_ifs
  · exact .refl e
  · exact heapExtract_outside e

theorem cmdPqPeek_outside (e : Engine) : SameOutside e e.cmdPqPeek.eng := by
  rw [cmdPqPeek_eng]
  exact .refl e

theorem cmdNodeMerge_outside (e : Engine) (a b : Word) : SameOutside e (e.cmdNodeMerge a b).eng := by
  unfold Engine.cmdNodeMerge
  split_ifs
  · exact .refl e
  · exact .refl e
  · exact .refl e
  · exact .refl e
  · exact mergeNodes_outside e _ _

theorem cmdMergeStep_outside (e : Engine) : SameOutside e e.cmdMergeStep.eng := by
  unfold Engine.cmdMergeStep
  split
  · exact .refl e
  · next hbody => exact (mergeStepBody_outside hbody).1

theorem cmdSetRoot_outside (e : Engine) (n : Word) : SameOutside e (e.cmdSetRoot n).eng := by
  unfold Engine.cmdSetRoot
  split_ifs
  · exact .refl e
  · exact .refl e
  · exact setRoot_outside e _

theorem cmdBuildTree_outside (e : Engine) : SameOutside e e.cmdBuildTree.eng := by
  unfold Engine.cmdBuildTree
  split
  · exact .refl e
  · next hbody => exact buildTreeBody_outside hbody

/-! ## Every command keeps the buffers -/

theorem ctCleared_buffers {p : Params} {e : Engine} (b : BufferInv p e) : BufferInv p e.ctCleared :=
  b.congr rfl rfl rfl

theorem storeCodes_buffers {p : Params} {e : Engine} (cs : List (Byte × List Bool)) (b : BufferInv p e) :
    BufferInv p (e.storeCodes cs) := by
  obtain ⟨-, -, -, -, -, -, -, -, -, hin, hout, hbits⟩ := e.storeCodes_rest cs
  exact b.congr hin hout hbits

/-- A GEN_CODES that completes leaves the engine-owned state, or clears CT and stores codes. -/
theorem execGenCodes_eng {s t : State} (h : execGenCodes s = .next t) :
    t.eng = s.eng ∨ ∃ cs, t.eng = s.eng.ctCleared.storeCodes cs := by
  unfold execGenCodes at h
  split at h
  · split at h
    · cases h
    · next cs _ =>
      obtain rfl := Host.Outcome.next.inj h
      exact .inr ⟨cs, rfl⟩
  · obtain rfl := Host.Outcome.next.inj h
    exact .inl rfl

theorem execGenCodes_buffers {p : Params} {s t : State} (b : BufferInv p s.eng) (h : execGenCodes s = .next t) :
    BufferInv p t.eng := by
  obtain heng | ⟨cs, heng⟩ := execGenCodes_eng h
  · rw [heng]; exact b
  · rw [heng]; exact storeCodes_buffers cs (ctCleared_buffers b)

theorem exec_buffers {i : Instr} {s t : State} (hp : s.params.wf = true) (b : BufferInv s.params s.eng)
    (h : exec i s = .next t) : BufferInv s.params t.eng := by
  cases i with
  | nop => obtain rfl := Host.Outcome.next.inj h; exact b
  | clear => obtain rfl := Host.Outcome.next.inj h; exact cleared_buffers b
  | heapBuild => obtain rfl := Host.Outcome.next.inj h; exact (cmdHeapBuild_outside _).buffers b
  | pqInsert => obtain rfl := Host.Outcome.next.inj h; exact (cmdPqInsert_outside _ _).buffers b
  | pqExtract => obtain rfl := Host.Outcome.next.inj h; exact (cmdPqExtract_outside _).buffers b
  | pqPeek => obtain rfl := Host.Outcome.next.inj h; exact (cmdPqPeek_outside _).buffers b
  | nodeMerge => obtain rfl := Host.Outcome.next.inj h; exact (cmdNodeMerge_outside _ _ _).buffers b
  | mergeStep => obtain rfl := Host.Outcome.next.inj h; exact (cmdMergeStep_outside _).buffers b
  | setRoot => obtain rfl := Host.Outcome.next.inj h; exact (cmdSetRoot_outside _ _).buffers b
  | buildTree => obtain rfl := Host.Outcome.next.inj h; exact (cmdBuildTree_outside _).buffers b
  | genCodes => exact execGenCodes_buffers b h
  | ctClear => obtain rfl := Host.Outcome.next.inj h; exact ctCleared_buffers b
  | encode A => exact execEncode_buffers hp b h

theorem exec_params {i : Instr} {s t : State} (h : exec i s = .next t) : t.params = s.params := by
  obtain ⟨c, k, rfl, -⟩ := exec_completion h
  rfl

/-! ## Every move keeps the invariant and the parameters -/

/-- The invariant reads the parameters and the engine-owned state only. -/
theorem Inv.congr {s t : State} (hs : Inv s) (hp : t.params = s.params) (he : t.eng = s.eng) : Inv t :=
  ⟨hp ▸ hs.params, by rw [hp, he]; exact hs.buffers, he ▸ hs.struct⟩

/-- A state of the same parameters whose buffers and parts are kept meets the invariant. -/
theorem Inv.of_parts {s t : State} (hs : Inv s) (hp : t.params = s.params) (b : BufferInv s.params t.eng)
    (p : Parts t.eng) : Inv t :=
  ⟨hp ▸ hs.params, hp ▸ b, p.struct⟩

theorem exec_keeps_inv {i : Instr} {s t : State} (hs : Inv s) (h : exec i s = .next t) : Inv t :=
  hs.of_parts (exec_params h) (exec_buffers hs.params hs.buffers h) (exec_parts h hs.struct.parts)

theorem initStep_keeps_inv {s : State} (hs : Inv s) : Inv s.initStep :=
  hs.of_parts rfl (cleared_buffers hs.buffers) (cleared_parts s.eng)

theorem hardReset_keeps_inv {s : State} (hs : Inv s) : Inv s.hardReset :=
  hs.of_parts rfl (reset_buffers s.params) reset_parts

/-- A write transfer changes the engine-owned state only by a write to a word that its window has. -/
theorem busWrite_keeps_inv {s : State} (hs : Inv s) (a : BusAddr) (d : Word) :
    Inv (s.busWrite a d) ∧ (s.busWrite a d).params = s.params := by
  obtain h | ⟨r, -, h⟩ | ⟨-, -, hbound, h⟩ := busWrite_cases s a d
  · rw [h]; exact ⟨hs.congr rfl rfl, rfl⟩
  · have hp := writeReg_params s d r
    rw [h]; exact ⟨hs.congr hp (writeReg_eng s d r), hp⟩
  · rw [h]
    exact ⟨hs.of_parts rfl (writeWindow_buffers hs.params d _ hbound hs.buffers)
      (writeWindow_parts d _ hs.struct.parts), rfl⟩

theorem hostMove_keeps_inv {s : State} (hs : Inv s) (m : HostMove) (rest : List HostMove) :
    Inv (s.hostMove m rest) ∧ (s.hostMove m rest).params = s.params := by
  have hrest : Inv { s with host := rest } := hs.congr rfl rfl
  obtain ⟨l, a, -, h⟩ | ⟨a, d, -, h⟩ | ⟨-, h | h⟩ | ⟨-, h⟩ := hostMove_cases s m rest
  · rw [h]; exact ⟨hs.congr rfl rfl, rfl⟩
  · rw [h]; exact busWrite_keeps_inv hrest a d
  · rw [h]; exact ⟨hrest, rfl⟩
  · rw [h]; exact ⟨hs, rfl⟩
  · rw [h]; exact ⟨hardReset_keeps_inv hrest, rfl⟩

/-- Settles O55, by what a step can be: the initialisation step, a command's completion, that of an ILLEGAL word,
a host move, or nothing. -/
theorem stepKeepsInv : Obligations.StepKeepsInv := by
  unfold Obligations.StepKeepsInv
  intro s t hs h
  obtain ⟨-, rfl⟩ | ⟨-, i, -, hx⟩ | ⟨-, rfl⟩ | ⟨m, rest, -, rfl⟩ | ⟨-, -, rfl⟩ := step_cases h
  · exact ⟨initStep_keeps_inv hs, rfl⟩
  · exact ⟨exec_keeps_inv hs hx, exec_params hx⟩
  · exact ⟨hs.congr rfl rfl, rfl⟩
  · have hcounted : Inv { s with busyMoves := s.busyMoves + 1 } := hs.congr rfl rfl
    exact hostMove_keeps_inv hcounted m rest
  · exact ⟨hs, rfl⟩

end Sys2Proof.Machine
end

section
/-! PROOFS. 10_state.md R23, R45, R46: the STATUS word bit by bit, DONE and irq through the events of R228, and
the values at reset and after the initialisation step. -/

namespace Sys2Proof.Machine

/-! ## The STATUS word -/

theorem statusWord_getLsbD_low (s : State) :
    s.statusWord.getLsbD 0 = s.busy ∧ s.statusWord.getLsbD 1 = s.done ∧ s.statusWord.getLsbD 2 = s.overrun ∧
      s.statusWord.getLsbD 3 = false := by
  simp only [State.statusWord, BitVec.getLsbD_append]
  simp

/-- From bit 4 on stand ERR and, past its width, zeros. -/
theorem statusWord_getLsbD_high (s : State) (j : Nat) : s.statusWord.getLsbD (4 + j) = s.err.getLsbD j := by
  have hpos : ¬ 4 + j < 1 := by omega
  simp only [State.statusWord, BitVec.getLsbD_append]
  by_cases hj : j < 4
  · simp [hj, hpos]
  · rw [BitVec.getLsbD_of_ge s.err j (by omega)]
    simp [hj, hpos]

theorem statusWord_err (s : State) : s.statusWord.extractLsb' 4 4 = s.err := by
  refine BitVec.eq_of_getLsbD_eq fun j hj => ?_
  rw [BitVec.getLsbD_extractLsb', statusWord_getLsbD_high, decide_eq_true hj, Bool.true_and]

theorem statusWord_zeros (s : State) {k : Nat} (h : k = 3 ∨ 8 ≤ k) : s.statusWord.getLsbD k = false := by
  obtain rfl | h := h
  · obtain ⟨-, -, -, hzero⟩ := statusWord_getLsbD_low s
    exact hzero
  · obtain ⟨j, rfl⟩ := Nat.exists_eq_add_of_le h
    rw [show 8 + j = 4 + (4 + j) by omega, statusWord_getLsbD_high]
    exact BitVec.getLsbD_of_ge _ _ (Nat.le_add_right 4 j)

/-! ## Register transfers, and irq -/

/-- A read of a register gives its value in every phase and changes nothing of HTB. -/
theorem busRead_reg (s : State) (r : Reg) :
    s.busRead (regAddr r) = { s with resp := some (.readDone (s.readReg r) false), draws := s.draws + 4 } := by
  simp [State.busRead, region_regAddr, State.busData, busError_reg]

theorem irq_of_done_false {s : State} (h : s.done = false) : s.irq = false := by simp [State.irq, h]

theorem exec_done {i : Instr} {s t : State} (h : exec i s = .next t) : t.done = true ∧ t.irq = s.ie := by
  obtain ⟨c, k, rfl, -⟩ := exec_completion h
  exact ⟨rfl, Bool.and_true _⟩

theorem busWrite_cmd_irq {s : State} (v : Word) (h : s.phase = .idle) : (s.busWrite (regAddr .cmd) v).irq = false := by
  rw [busWrite_reg]
  refine irq_of_done_false ?_
  simp [State.writeReg, State.writeCmd, h]

theorem busWrite_status_irq (s : State) {d : Word} (h : d.getLsbD 1 = true) :
    (s.busWrite (regAddr .status) d).irq = false := by
  rw [busWrite_reg]
  refine irq_of_done_false ?_
  simp [State.writeReg, h]

theorem busWrite_ctrl_irq (s : State) (d : Word) :
    (s.busWrite (regAddr .ctrl) d).irq = (d.getLsbD 0 && s.done) := by
  rw [busWrite_reg]
  rfl

/-- Settles O22, bit by bit of STATUS and event by event: DONE is known after each event, and irq follows. -/
theorem statusWordAndInterrupt : Obligations.StatusWordAndInterrupt := by
  unfold Obligations.StatusWordAndInterrupt
  intro s
  obtain ⟨hbusy, hdone, hoverrun, -⟩ := statusWord_getLsbD_low s
  have hbits : s.statusWord.getLsbD 0 = true ↔ s.phase ≠ .idle := by
    rw [hbusy]
    exact decide_eq_true_iff
  exact ⟨hbits, hdone, hoverrun, statusWord_err s, fun k => statusWord_zeros s, busRead_reg s .status, rfl,
    fun i t => exec_done, rfl, Bool.and_true _, fun v => busWrite_cmd_irq v, fun d => busWrite_status_irq s,
    busWrite_ctrl_irq s, rfl, rfl, rfl, fun _ => rfl⟩

/-! ## The values of R46 -/

theorem resetOf_statusWord (p : Params) : (State.resetOf p).statusWord = 1#32 := by
  simp [State.statusWord, State.busy, State.resetOf]

theorem resetOf_initStep_statusWord (p : Params) : (State.resetOf p).initStep.statusWord = 0#32 := by
  simp [State.statusWord, State.busy, State.resetOf]

theorem cleared_freqAt (e : Engine) (x : Nat) : e.cleared.freqAt x = 0#32 := tget_replicate _ _ _

theorem cleared_ctAt (e : Engine) (x : Nat) : e.cleared.ctAt x = CtEntry.blank := tget_replicate _ _ _

/-- Settles O23: every value but STATUS is a field of the reset state, and the initialisation step keeps it or
clears it. -/
theorem resetAndInitValues : Obligations.ResetAndInitValues := by
  unfold Obligations.ResetAndInitValues
  refine ⟨rfl, fun p => ⟨?_, ?_⟩⟩
  · exact ⟨rfl, rfl, rfl, rfl, resetOf_statusWord p, rfl, rfl, rfl, rfl, rfl, rfl, rfl, rfl, rfl, rfl, rfl, rfl,
      fun _ => ⟨rfl, rfl⟩, rfl⟩
  · exact ⟨rfl, rfl, rfl, rfl, rfl, rfl, resetOf_initStep_statusWord p, rfl, rfl, rfl, rfl, rfl, rfl, rfl, rfl, rfl,
      rfl, fun x => ⟨cleared_freqAt _ x.toNat, cleared_ctAt _ x.toNat⟩, fun _ => ⟨rfl, rfl⟩, rfl⟩

end Sys2Proof.Machine
end

section
/-! PROOFS. 20_memory.md R74-R77: the life of a command. Acceptance and overrun are the two cases of a CMD write;
while a command runs, no host move but a reset reaches what it reads; its completion depends on that alone and
writes nothing but results. -/

namespace Sys2Proof.Machine

/-! ## A write to CMD, and the step that runs it -/

theorem busWrite_cmd_idle {s : State} (v : Word) (h : s.phase = .idle) :
    s.busWrite (regAddr .cmd) v = { s.accept v with resp := some (.writeDone false) } := by
  rw [busWrite_reg, State.writeReg, State.writeCmd, if_pos h]

theorem busWrite_cmd_busy {s : State} (v : Word) (h : s.phase ≠ .idle) :
    s.busWrite (regAddr .cmd) v = { s.setOverrun with resp := some (.writeDone false) } := by
  rw [busWrite_reg, State.writeReg, State.writeCmd, if_neg h]

/-- The host has no move left after `withFetchWord`, so the engine moves next. -/
theorem withFetchWord_enginesTurn (s : State) (nbits w : Nat) : (s.withFetchWord nbits w).enginesTurn :=
  ⟨Phase.noConfusion, .inl rfl⟩

theorem decode_of_decodeTableWord {nbits w : Nat} {i : Instr} (h : decodeTableWord nbits w = some i) :
    decode (tableWord nbits w) = .ok i := by
  unfold decodeTableWord at h
  split at h
  · next hd => rw [hd, Option.some.inj h]
  · cases h

/-- Settles O5: the engine's step is `exec` where it is the engine's turn, and `withFetchWord` makes it so. -/
theorem stepRunsDecodedCommand : Obligations.StepRunsDecodedCommand := by
  unfold Obligations.StepRunsDecodedCommand
  exact ⟨fun s i => step_busy, fun s nbits w i hd =>
    step_busy rfl (withFetchWord_enginesTurn s nbits w) (decode_of_decodeTableWord hd)⟩

/-- Settles O6: the accepting case of a CMD write, and the completion of an ILLEGAL word. -/
theorem acceptanceLatchesOperands : Obligations.AcceptanceLatchesOperands := by
  unfold Obligations.AcceptanceLatchesOperands
  intro s v hidle
  refine ⟨busWrite_cmd_idle v hidle, fun t x hd hbusy hlatch hturn => ?_⟩
  rw [← hlatch] at hd
  exact ⟨t.completeIllegal, step_illegal hbusy hturn hd, rfl, rfl, rfl⟩

/-- Settles O7: the other case of a CMD write. -/
theorem overrunDropsCommand : Obligations.OverrunDropsCommand := by
  unfold Obligations.OverrunDropsCommand
  intro s v hbusy
  exact busWrite_cmd_busy v hbusy

/-- Settles O8, by the shape every completion has. -/
theorem completionWritesOnlyResults : Obligations.CompletionWritesOnlyResults := by
  unfold Obligations.CompletionWritesOnlyResults
  intro i s t h
  obtain ⟨c, k, rfl, hdraws⟩ := exec_completion h
  exact ⟨rfl, hdraws⟩

/-! ## The host's moves while a command runs -/

/-- Everything a running command reads, and the results of the one before it, are the same. -/
structure SameCommand (s t : State) : Prop where
  eng : t.eng = s.eng
  cmdL : t.cmdL = s.cmdL
  arg0L : t.arg0L = s.arg0L
  arg1L : t.arg1L = s.arg1L
  params : t.params = s.params
  phase : t.phase = s.phase
  res0 : t.res0 = s.res0
  res1 : t.res1 = s.res1

theorem writeReg_sameCommand {s : State} (hp : s.phase ≠ .idle) (d : Word) (r : Reg) :
    SameCommand s (s.writeReg d r) := by
  obtain ⟨hphase, hcmd, harg0, harg1, -, -⟩ := writeReg_busy d r hp
  obtain ⟨hres0, hres1⟩ := writeReg_res s d r
  exact ⟨writeReg_eng s d r, hcmd, harg0, harg1, writeReg_params s d r, hphase, hres0, hres1⟩

theorem busWrite_sameCommand {s : State} (hp : s.phase ≠ .idle) (a : BusAddr) (d : Word) :
    SameCommand s (s.busWrite a d) := by
  obtain h | ⟨r, -, h⟩ | ⟨hidle, -⟩ := busWrite_cases s a d
  · rw [h]; exact ⟨rfl, rfl, rfl, rfl, rfl, rfl, rfl, rfl⟩
  · obtain ⟨heng, hcmd, harg0, harg1, hparams, hphase, hres0, hres1⟩ := writeReg_sameCommand hp d r
    rw [h]; exact ⟨heng, hcmd, harg0, harg1, hparams, hphase, hres0, hres1⟩
  · exact absurd hidle hp

theorem hostMove_sameCommand {s : State} {m : HostMove} (hp : s.phase ≠ .idle) (hm : m ≠ .reset)
    (rest : List HostMove) : SameCommand s (s.hostMove m rest) := by
  obtain ⟨l, a, -, h⟩ | ⟨a, d, -, h⟩ | ⟨-, h | h⟩ | ⟨hreset, -⟩ := hostMove_cases s m rest
  · rw [h]; exact ⟨rfl, rfl, rfl, rfl, rfl, rfl, rfl, rfl⟩
  · obtain ⟨heng, hcmd, harg0, harg1, hparams, hphase, hres0, hres1⟩ :=
      busWrite_sameCommand (s := { s with host := rest }) hp a d
    rw [h]; exact ⟨heng, hcmd, harg0, harg1, hparams, hphase, hres0, hres1⟩
  · rw [h]; exact ⟨rfl, rfl, rfl, rfl, rfl, rfl, rfl, rfl⟩
  · rw [h]; exact ⟨rfl, rfl, rfl, rfl, rfl, rfl, rfl, rfl⟩
  · exact absurd hreset hm

/-! ## A command's result depends on what it reads alone -/

/-- Two outcomes of a command with the same `(S', err, r0, r1)`, or with the same fault. -/
inductive SameResult : Host.Outcome State Fault Refusal → Host.Outcome State Fault Refusal → Prop where
  | complete (s s' : State) {c c' : Completion} : c' = c → SameResult (.next (s.complete c)) (.next (s'.complete c'))
  | fault (f : Fault) : SameResult (.fault f) (.fault f)

theorem SameResult.next {o' : Host.Outcome State Fault Refusal} {t : State} (h : SameResult (.next t) o') :
    ∃ t', o' = .next t' ∧ t'.eng = t.eng ∧ t'.res0 = t.res0 ∧ t'.res1 = t.res1 ∧ t'.err = t.err := by
  cases h with
  | complete s s' hc => subst hc; exact ⟨_, rfl, rfl, rfl, rfl, rfl⟩

theorem SameResult.fault_eq {o' : Host.Outcome State Fault Refusal} {f : Fault} (h : SameResult (.fault f) o') :
    o' = .fault f := by
  cases h with
  | fault => rfl

section
variable {s s' : State} (he : s'.eng = s.eng)
include he

theorem execGenCodes_sameResult : SameResult (execGenCodes s) (execGenCodes s') := by
  unfold execGenCodes
  rw [he]
  cases s.eng.rootValid with
  | false => exact .complete s s' rfl
  | true =>
    cases s.eng.rootCodes with
    | none => exact .fault _
    | some cs => exact .complete s s' rfl

variable (hb : BufferInv s.params s.eng) (hp : s'.params = s.params) (h0 : s'.arg0L = s.arg0L)
  (h1 : s'.arg1L = s.arg1L)
include hb hp h0 h1

/-- ENCODE does not see the free byte: every byte that holds bits of the stream has been written. -/
theorem encodeRun_congr (A : Bool) : s'.encodeRun A = s.encodeRun A := by
  unfold State.encodeRun
  rw [he, hp, h0, h1]
  exact encodeLoop_junk _ _ _ _ _ _ (startOutput_buffers A hb).streamWritten

theorem execEncode_sameResult (A : Bool) : SameResult (execEncode A s) (execEncode A s') := by
  unfold execEncode
  rw [encodeRun_congr he hb hp h0 h1 A, he, hp, h0, h1]
  split_ifs
  · exact .complete s s' rfl
  · exact .complete s s' rfl
  · cases s.encodeRun A with
    | finished e k => exact .complete _ _ rfl
    | stopped x e off b => exact .complete _ _ rfl
    | unwritten off => exact .fault _

theorem exec_sameResult (i : Instr) : SameResult (exec i s) (exec i s') := by
  cases i with
  | nop => exact .complete s s' (by rw [he])
  | clear => exact .complete s s' (by rw [he])
  | heapBuild => exact .complete s s' (by rw [he])
  | pqInsert => exact .complete s s' (by rw [he, h0])
  | pqExtract => exact .complete s s' (by rw [he])
  | pqPeek => exact .complete s s' (by rw [he])
  | nodeMerge => exact .complete s s' (by rw [he, h0, h1])
  | mergeStep => exact .complete s s' (by rw [he])
  | setRoot => exact .complete s s' (by rw [he, h0])
  | buildTree => exact .complete s s' (by rw [he])
  | genCodes => exact execGenCodes_sameResult he
  | ctClear => exact .complete s s' (by rw [he])
  | encode A => exact execEncode_sameResult he hb hp h0 h1 A

end

/-- Settles O9: the host's moves keep what the command reads, and its result depends on that alone. -/
theorem runningCommandIsIsolated : Obligations.RunningCommandIsIsolated := by
  unfold Obligations.RunningCommandIsIsolated
  refine ⟨fun s m rest hp hm => ?_, fun i s s' hb hp he h0 h1 => ⟨fun t ht => ?_, fun f hf => ?_⟩⟩
  · obtain ⟨heng, hcmd, harg0, harg1, hparams, hphase, -, -⟩ := hostMove_sameCommand hp hm rest
    exact ⟨heng, hcmd, harg0, harg1, hparams, hphase⟩
  · exact SameResult.next (ht ▸ exec_sameResult he hb hp h0 h1 i)
  · exact SameResult.fault_eq (hf ▸ exec_sameResult he hb hp h0 h1 i)

/-- Settles O10: every register transfer by the register's own rule, which does not look at PHASE but for CMD. -/
theorem registerAccessWhileBusy : Obligations.RegisterAccessWhileBusy := by
  unfold Obligations.RegisterAccessWhileBusy
  intro s d hp
  refine ⟨fun a x hx => ?_, busWrite_reg .arg0 d, busWrite_reg .arg1 d, busWrite_reg .ctrl d, busWrite_reg .status d,
    fun m rest hm => ?_⟩
  · have hx : (a, x) ∈ allRegs.map fun r => (regAddr r, s.readReg r) := hx
    obtain ⟨r, -, hr⟩ := List.mem_map.1 hx
    obtain ⟨rfl, rfl⟩ := Prod.mk.inj hr
    exact busRead_reg s r
  · have hsame := hostMove_sameCommand hp hm rest
    exact ⟨hsame.res0, hsame.res1, hsame.eng⟩

end Sys2Proof.Machine
end

section
/-! PROOFS. 20_memory.md R73: the window lock. In IDLE a transfer to a window is a read or a write of the word its
address selects; while PHASE is not IDLE it fails, and only STATUS and CMD show PHASE to a register transfer. -/

namespace Sys2Proof.Machine

/-! ## A transfer to a window -/

theorem busRead_window {s : State} {a : BusAddr} {g : Region} (hi : s.phase = .idle) (hg : region s.params a = g)
    (hw : g.isWindow = true) : (s.busRead a).resp = some (.readDone (s.eng.readWindow s.draws g) false) := by
  obtain ⟨herr, hdata⟩ := busData_window hi hw
  rw [State.busRead_resp, hg, herr, hdata]

theorem busWrite_window_of_region {s : State} {a : BusAddr} {g : Region} (d : Word) (hi : s.phase = .idle)
    (hg : region s.params a = g) (hw : g.isWindow = true) :
    s.busWrite a d = { s with eng := s.eng.writeWindow d g, resp := some (.writeDone false) } := by
  subst hg
  exact busWrite_window d hi hw

theorem busRead_error {s : State} {a : BusAddr} (h : s.busError (region s.params a) = true) :
    s.busRead a = { s with resp := some (.readDone 0#32 true), draws := s.draws + 4 } := by
  rw [State.busRead, busData_error h, h]

/-- Everything a transfer can meet: it fails, or it goes to a register, or to a window while IDLE. -/
theorem transfer_cases (s : State) (a : BusAddr) :
    s.busError (region s.params a) = true ∨ (∃ r, a = regAddr r) ∨
      (s.phase = .idle ∧ (region s.params a).isWindow = true ∧ (region s.params a).inBounds s.params) := by
  obtain ⟨hbound, ⟨-, hg⟩ | ⟨-, -, r, -, ha⟩ | ⟨-, -, -, hw⟩ | ⟨-, -, hg, -⟩⟩ := region_cases s.params a
  · exact .inl (by rw [hg]; rfl)
  · exact .inr (.inl ⟨r, ha⟩)
  · by_cases hi : s.phase = .idle
    · exact .inr (.inr ⟨hi, hw, hbound⟩)
    · exact .inl (by rw [busError_window hw, busy_of_not_idle hi])
  · exact .inl (by rw [hg]; rfl)

/-! ## The lock -/

theorem regAddr_inRegisters (r : Reg) : inRegisters (regAddr r).toNat := by
  show (regAddr r).toNat < 0x003C
  cases r <;> decide

theorem not_inWindow_of_inRegisters {p : Params} {n : Nat} (h : inRegisters n) : ¬ inWindow p n := by
  unfold inRegisters at h
  unfold inWindow
  omega

theorem busError_of_inWindow {s : State} {a : BusAddr} (hp : s.phase ≠ .idle) (h : inWindow s.params a.toNat) :
    s.busError (region s.params a) = true := by
  obtain herr | ⟨r, rfl⟩ | ⟨hi, -⟩ := transfer_cases s a
  · exact herr
  · exact absurd h (not_inWindow_of_inRegisters (regAddr_inRegisters r))
  · exact absurd hi hp

theorem region_of_inRegisters (p : Params) {a : BusAddr} (h : inRegisters a.toNat) :
    region p a = .misaligned ∨ ∃ r, a = regAddr r := by
  obtain ⟨-, ⟨-, hg⟩ | ⟨-, -, r, -, ha⟩ | ⟨-, hn, -⟩ | ⟨-, hn, -⟩⟩ := region_cases p a
  · exact .inl hg
  · exact .inr ⟨r, ha⟩
  · exact absurd h hn
  · exact absurd h hn

/-- No register but STATUS reads PHASE. -/
theorem readReg_setPhase (s : State) (p : Phase) {r : Reg} (h : r ≠ .status) :
    { s with phase := p }.readReg r = s.readReg r := by
  cases r with
  | status => exact absurd rfl h
  | _ => rfl

/-- No register but CMD looks at PHASE when it is written. -/
theorem writeReg_setPhase (s : State) (p : Phase) (d : Word) {r : Reg} (h : r ≠ .cmd) :
    s.writeReg d r = { { s with phase := p }.writeReg d r with phase := s.phase } := by
  cases r with
  | cmd => exact absurd rfl h
  | _ => rfl

/-- Settles O11: a locked window fails like any other failing transfer; a register but STATUS and CMD does not
look at PHASE. -/
theorem windowsLockedWhileBusy : Obligations.WindowsLockedWhileBusy := by
  unfold Obligations.WindowsLockedWhileBusy
  intro s a d hp
  refine ⟨fun hwin => ?_, fun hreg => ?_⟩
  · have herr := busError_of_inWindow hp hwin
    exact ⟨busRead_error herr, busWrite_error d herr⟩
  · obtain hmis | ⟨r, rfl⟩ := region_of_inRegisters s.params hreg
    · have herr (p : Phase) : { s with phase := p }.busError (region s.params a) = true := by rw [hmis]; rfl
      refine ⟨fun _ => ?_, fun _ => ?_⟩
      · rw [busRead_error (herr s.phase), busRead_error (herr .idle)]
      · rw [busWrite_error d (herr s.phase), busWrite_error d (herr .idle)]
    · refine ⟨fun hne => ?_, fun hne => ?_⟩
      · have hr : r ≠ .status := by rintro rfl; exact hne rfl
        rw [busRead_reg, busRead_reg, readReg_setPhase s .idle hr]
      · have hr : r ≠ .cmd := by rintro rfl; exact hne rfl
        rw [busWrite_reg, busWrite_reg, writeReg_setPhase s .idle d hr]

end Sys2Proof.Machine
end

section
/-! PROOFS. 20_memory.md R67-R72: the windows in IDLE. The address map places each word, and the word's own read and
write rule says the rest. -/

namespace Sys2Proof.Machine

/-! ## The FREQ window -/

theorem freqAt_setFreq (e : Engine) (x : Byte) (w : Word) (y : Byte) :
    (e.setFreq x.toNat w).freqAt y.toNat = if y = x then w else e.freqAt y.toNat := by
  have hread := tget_tset e.freq x.toNat y.toNat w 0#32
  simp only [x.isLt, and_true, BitVec.toNat_inj] at hread
  exact hread

/-- Settles O16: a symbol of frequency 0 is not present. -/
theorem freqWindow : Obligations.FreqWindow := by
  unfold Obligations.FreqWindow
  intro s x d hi
  have hg := region_freq s.params x.isLt
  refine ⟨busRead_window hi hg rfl, s.eng.setFreq x.toNat d, busWrite_window_of_region d hi hg rfl, rfl,
    freqAt_setFreq s.eng x d, fun hd hmem => ?_⟩
  obtain ⟨-, hne⟩ := (Engine.mem_presentSyms _ _).1 hmem
  rw [freqAt_setFreq, if_pos rfl] at hne
  exact hne hd

/-! ## The IN and OUT windows -/

/-- Bit 0 of the stream is bit 7 of the first word of OUT_MEM. -/
theorem readWord_streamBit_zero (e : Engine) (k : Nat) {b : Bool} (h : e.streamBit 0 = some b) :
    (e.outMem.readWord 0 k).getLsbD 7 = b := by
  obtain ⟨x, hx, rfl⟩ := Option.map_eq_some_iff.1 h
  have hbyte := readWord_byte e.outMem 0 k 0 x (by decide) hx
  rw [← hbyte, BitVec.getLsbD_extractLsb']
  rfl

/-- Settles O17: the address map places word `j` of either buffer, and words are little-endian. -/
theorem bufferWindows : Obligations.BufferWindows := by
  unfold Obligations.BufferWindows
  intro s j d hp hi
  obtain ⟨⟨-, -, hin⟩, -, -, hout⟩ := (Params.wf_iff s.params).1 hp
  refine ⟨fun hj => ?_, fun hj => ?_⟩
  · have hg := region_input s.params hj hin
    exact ⟨⟨_, busRead_window hi hg rfl, fun k b => readWord_byte s.eng.inMem j s.draws k b⟩,
      _, busWrite_window_of_region d hi hg rfl, rfl, fun i => Memory.read_writeWord s.eng.inMem j i d⟩
  · have hg := region_output s.params hj hout
    refine ⟨⟨_, busRead_window hi hg rfl, fun k b => readWord_byte s.eng.outMem j s.draws k b, ?_⟩,
      _, busWrite_window_of_region d hi hg rfl, rfl, fun i => Memory.read_writeWord s.eng.outMem j i d⟩
    rintro b rfl hb
    exact readWord_streamBit_zero s.eng s.draws hb

/-! ## The CT window -/

theorem region_ctEntry (p : Params) (x : Byte) : region p (BitVec.ofNat 16 (0x4000 + 64 * x.toNat)) = .ct x.toNat 0 :=
  region_ct p x.isLt (w := 0) (by decide)

theorem region_ctCode (p : Params) (x : Byte) {w : Nat} (h : w < 8) :
    region p (BitVec.ofNat 16 (0x4000 + 64 * x.toNat + 4 + 4 * w)) = .ct x.toNat (w + 1) := by
  rw [show 0x4000 + 64 * x.toNat + 4 + 4 * w = 0x4000 + 64 * x.toNat + 4 * (w + 1) by omega]
  exact region_ct p x.isLt (by omega)

theorem ctEntry_readWord_entry (c : CtEntry) : c.readWord 0 = c.word := rfl

theorem ctEntry_readWord_code (c : CtEntry) {w : Nat} (h : w < 8) : c.readWord (w + 1) = tget c.cw w 0#32 := by
  rw [CtEntry.readWord, if_neg (Nat.succ_ne_zero w), if_pos (by omega), Nat.add_sub_cancel]

theorem ctEntry_readWord_reserved (c : CtEntry) {w : Nat} (h : 9 ≤ w) : c.readWord w = 0#32 := by
  rw [CtEntry.readWord, if_neg (by omega), if_neg (by omega)]

theorem ctEntry_writeWord_entry (c : CtEntry) (d : Word) :
    c.writeWord 0 d = ⟨d.getLsbD 31, d.extractLsb' 0 8, c.cw⟩ := rfl

theorem ctEntry_writeWord_code (c : CtEntry) (d : Word) {w : Nat} (h : w < 8) :
    c.writeWord (w + 1) d = { c with cw := tset c.cw w d } := by
  rw [CtEntry.writeWord, if_neg (Nat.succ_ne_zero w), if_pos (by omega), Nat.add_sub_cancel]

theorem ctEntry_writeWord_reserved (c : CtEntry) (d : Word) {w : Nat} (h : 9 ≤ w) : c.writeWord w d = c := by
  rw [CtEntry.writeWord, if_neg (by omega), if_neg (by omega)]

/-- An entry written back as it is read is no change. -/
theorem setCt_ctAt (e : Engine) (x : Nat) : e.setCt x (e.ctAt x) = e := by
  have hct : tset e.ct x (e.ctAt x) = e.ct := by
    refine tget_ext _ _ CtEntry.blank fun i _ => ?_
    rw [tget_tset]
    split
    · next h => rw [h.1]; rfl
    · rfl
  rw [Engine.setCt, hct]

/-- A reserved word of a CT entry reads 0 and ignores writes. -/
theorem ctWindow_reserved {s : State} (x : Byte) {w : Nat} (d : Word) (hi : s.phase = .idle) (h9 : 9 ≤ w)
    (h15 : w ≤ 15) :
    (s.busRead (BitVec.ofNat 16 (0x4000 + 64 * x.toNat + 4 * w))).resp = some (.readDone 0#32 false) ∧
      s.busWrite (BitVec.ofNat 16 (0x4000 + 64 * x.toNat + 4 * w)) d = { s with resp := some (.writeDone false) } := by
  have hg := region_ct s.params x.isLt (w := w) (by omega)
  rw [busRead_window hi hg rfl, busWrite_window_of_region d hi hg rfl]
  simp only [Engine.readWindow, Engine.writeWindow, ctEntry_readWord_reserved _ h9, ctEntry_writeWord_reserved _ d h9,
    setCt_ctAt, and_self]

/-- Settles O18: entry word, code words and reserved words, each by its rule of one entry. -/
theorem codeTableWindow : Obligations.CodeTableWindow := by
  unfold Obligations.CodeTableWindow
  intro s x d hi
  refine ⟨⟨?_, ?_⟩, fun w hw => ⟨?_, ?_⟩, fun w => ctWindow_reserved x d hi⟩
  · exact busRead_window hi (region_ctEntry s.params x) rfl
  · exact ⟨_, busWrite_window_of_region d hi (region_ctEntry s.params x) rfl, rfl, ctAt_setCt s.eng x _⟩
  · rw [busRead_window hi (region_ctCode s.params x hw) rfl, Engine.readWindow, ctEntry_readWord_code _ hw]
  · refine ⟨_, busWrite_window_of_region d hi (region_ctCode s.params x hw) rfl, rfl, fun y hy => ?_, ?_⟩
    · exact (ctAt_setCt s.eng x _ y).trans (if_neg hy)
    · rw [Engine.writeWindow, ctAt_setCt, if_pos rfl, ctEntry_writeWord_code _ d hw]
      refine ⟨rfl, rfl, fun v hv => ?_⟩
      rw [tget_tset]
      simp only [hw, and_true]

/-! ## The NODE and HEAP windows -/

/-- The fields of the first word of a NODE entry. -/
theorem nodeWord_fields (n : Node) (o : Own) :
    (nodeWord n o).getLsbD 31 = n.tag ∧ (nodeWord n o).getLsbD 30 = false ∧
      (nodeWord n o).extractLsb' 28 2 = ownCode o ∧ (nodeWord n o).extractLsb' 8 20 = 0#20 ∧
      (nodeWord n o).extractLsb' 0 8 = n.sym := by
  refine ⟨?_, ?_, BitVec.eq_of_getLsbD_eq fun k hk => ?_, BitVec.eq_of_getLsbD_eq fun k hk => ?_,
    BitVec.eq_of_getLsbD_eq fun k hk => ?_⟩ <;>
    simp only [nodeWord, BitVec.getLsbD_extractLsb', BitVec.getLsbD_append]
  · simp
  · simp
  · rw [if_neg (by omega), if_neg (by omega), if_pos (by omega), decide_eq_true hk, Bool.true_and]
    congr 1
    omega
  · rw [if_neg (by omega), if_pos (by omega), BitVec.getLsbD_zero, BitVec.getLsbD_zero, Bool.and_false]
  · rw [if_pos (by omega), decide_eq_true hk, Bool.true_and, Nat.zero_add]

theorem readNode_unallocated {e : Engine} {i : Nat} (w : Nat) (h : e.nodeCount.toNat ≤ i) : e.readNode i w = 0#32 :=
  if_neg (Nat.not_lt.2 h)

theorem readNode_allocated {e : Engine} {i : Nat} (h : i < e.nodeCount.toNat) :
    e.readNode i 0 = nodeWord (e.nodeAt i) (e.ownAt i) ∧ e.readNode i 1 = (e.nodeAt i).weight ∧
      e.readNode i 2 = (e.nodeAt i).left.zeroExtend 32 ∧ e.readNode i 3 = (e.nodeAt i).right.zeroExtend 32 :=
  ⟨if_pos h, if_pos h, if_pos h, if_pos h⟩

theorem busRead_node {s : State} {i w : Nat} (hi : s.phase = .idle) (h : i < 512) (hw : w < 4) :
    (s.busRead (BitVec.ofNat 16 (0x8000 + 16 * i + 4 * w))).resp = some (.readDone (s.eng.readNode i w) false) :=
  busRead_window hi (region_node s.params h hw) rfl

/-- Settles O19: an allocated entry reads its four words, any other reads 0. -/
theorem nodeWindow : Obligations.NodeWindow := by
  unfold Obligations.NodeWindow
  intro s i hi h512
  refine ⟨fun halloc => ?_, fun hfree w hw => ?_⟩
  · obtain ⟨hword, hweight, hleft, hright⟩ := readNode_allocated halloc
    obtain ⟨htag, hzero, hown, hzeros, hsym⟩ := nodeWord_fields (s.eng.nodeAt i) (s.eng.ownAt i)
    refine ⟨⟨_, busRead_node (w := 0) hi h512 (by decide), ?_⟩, ?_, ?_, ?_⟩
    · rw [hword]
      refine ⟨htag, hzero, hown.trans ?_, hzeros, hsym⟩
      cases s.eng.ownAt i <;> rfl
    · rw [← hweight]; exact busRead_node (w := 1) hi h512 (by decide)
    · rw [← hleft]; exact busRead_node (w := 2) hi h512 (by decide)
    · rw [← hright]; exact busRead_node (w := 3) hi h512 (by decide)
  · have hcount : s.eng.nodeCount.toNat ≤ i := by omega
    rw [busRead_node hi h512 hw, readNode_unallocated w hcount]

/-- Settles O20. -/
theorem heapWindow : Obligations.HeapWindow := by
  unfold Obligations.HeapWindow
  intro s i hi h256
  exact busRead_window hi (region_heap s.params h256) rfl

end Sys2Proof.Machine
end

section
/-! PROOFS. 20_memory.md R66, R80: what ignores writes, what reads 0, and that a second write of the same value finds
every place but CMD as it leaves it. -/

namespace Sys2Proof.Machine

/-! ## What ignores writes, and what reads 0 -/

/-- The registers that a write leaves (20_memory.md R64, R66). -/
def readOnlyRegs : List Reg :=
  [.id, .res0, .res1, .heapSize, .nodeCount, .leafCount, .root, .outBits, .inSize, .outSize]

theorem writeReg_readOnly (s : State) (d : Word) {r : Reg} (h : r ∈ readOnlyRegs) : s.writeReg d r = s := by
  cases r with
  | ctrl | status | cmd | arg0 | arg1 => exact absurd h (by decide)
  | _ => rfl

theorem region_readOnlyWindow (p : Params) {a : BusAddr} (hlo : 0x8000 ≤ a.toNat) (hhi : a.toNat < 0xA400)
    (h4 : a.toNat % 4 = 0) : (∃ i w, region p a = .node i w) ∨ ∃ i, region p a = .heap i := by
  obtain ⟨-, -, -, -, hnode, hheap⟩ := region_rows p h4 a.isLt
  rw [BitVec.ofNat_toNat, BitVec.setWidth_eq] at hnode hheap
  by_cases hn : a.toNat < 0xA000
  · exact .inl ⟨_, _, hnode hlo hn⟩
  · exact .inr ⟨_, hheap (Nat.le_of_not_lt hn) hhi⟩

theorem busWrite_readOnlyWindow {s : State} {a : BusAddr} (d : Word) (hi : s.phase = .idle) (hlo : 0x8000 ≤ a.toNat)
    (hhi : a.toNat < 0xA400) (h4 : a.toNat % 4 = 0) : s.busWrite a d = { s with resp := some (.writeDone false) } := by
  obtain ⟨i, w, hg⟩ | ⟨i, hg⟩ := region_readOnlyWindow s.params hlo hhi h4
  · exact busWrite_window_of_region d hi hg rfl
  · exact busWrite_window_of_region d hi hg rfl

/-- A flag at the top of a word, zeros, and a field at the bottom: the zeros read 0. -/
theorem getLsbD_flag_zeros_field {z m k : Nat} (b : Bool) (v : BitVec m) (hlo : m ≤ k) (hhi : k < m + z) :
    (BitVec.ofBool b ++ 0#z ++ v).getLsbD k = false := by
  rw [BitVec.getLsbD_append, if_neg (Nat.not_lt.2 hlo), BitVec.getLsbD_append, if_pos (by omega), BitVec.getLsbD_zero]

theorem getLsbD_zeroExtend_of_le {m k : Nat} (v : BitVec m) (h : m ≤ k) : (v.zeroExtend 32).getLsbD k = false := by
  rw [BitVec.zeroExtend, BitVec.getLsbD_setWidth, BitVec.getLsbD_of_ge v k h, Bool.and_false]

theorem busRead_reg_reserved (s : State) (r : Reg) {k : Nat} (h : (s.readReg r).getLsbD k = false) :
    ∃ x, (s.busRead (regAddr r)).resp = some (.readDone x false) ∧ x.getLsbD k = false :=
  ⟨_, by rw [busRead_reg], h⟩

/-- Settles O15: each place by the rule of its register or window. -/
theorem readOnlyIgnoresWrites : Obligations.ReadOnlyIgnoresWrites := by
  unfold Obligations.ReadOnlyIgnoresWrites
  intro s d
  refine ⟨fun a ha => ?registers, busWrite_reg .status d, busWrite_reg .ctrl d,
    fun a hi => busWrite_readOnlyWindow d hi, ?cmd, fun x w hi => ctWindow_reserved x d hi,
    fun x d' hi hvalid hlen => ?ctEntryWrite, fun x k hi hlo hhi => ?ctEntryRead, fun a k h => ?reservedBits⟩
  case registers =>
    have ha : a ∈ readOnlyRegs.map regAddr := ha
    obtain ⟨r, hr, rfl⟩ := List.mem_map.1 ha
    rw [busWrite_reg, writeReg_readOnly s d hr]
  case cmd => exact congrArg State.resp (busRead_reg s .cmd)
  case ctEntryWrite =>
    have hg := region_ctEntry s.params x
    rw [busWrite_window_of_region d hi hg rfl, busWrite_window_of_region d' hi hg rfl]
    simp only [Engine.writeWindow, ctEntry_writeWord_entry, hvalid, hlen]
  case ctEntryRead =>
    exact ⟨_, busRead_window hi (region_ctEntry s.params x) rfl, getLsbD_flag_zeros_field _ _ hlo (by omega)⟩
  case reservedBits =>
    obtain ⟨rfl, hk⟩ | ⟨rfl, hk⟩ | ⟨rfl, hk⟩ | ⟨rfl, hk⟩ | ⟨rfl, hk⟩ | ⟨rfl, hlo, hhi⟩ := h
    · exact busRead_reg_reserved s .ctrl (getLsbD_zeroExtend_of_le _ hk)
    · exact busRead_reg_reserved s .status (statusWord_zeros s hk)
    · exact busRead_reg_reserved s .heapSize (getLsbD_zeroExtend_of_le _ hk)
    · exact busRead_reg_reserved s .nodeCount (getLsbD_zeroExtend_of_le _ hk)
    · exact busRead_reg_reserved s .leafCount (getLsbD_zeroExtend_of_le _ hk)
    · exact busRead_reg_reserved s .root (getLsbD_flag_zeros_field _ _ hlo (by omega))

/-! ## A second write of the same value -/

theorem tset_tset_self {α : Type} {n : Nat} (v : Vector α n) (i : Nat) (x : α) : tset (tset v i x) i x = tset v i x :=
  Vector.setIfInBounds_setIfInBounds ..

theorem ctEntry_writeWord_idem (c : CtEntry) (w : Nat) (d : Word) :
    (c.writeWord w d).writeWord w d = c.writeWord w d := by
  unfold CtEntry.writeWord
  split_ifs
  · rfl
  · simp only [tset_tset_self]
  · rfl

theorem Memory.writeWord_idem {m : Memory} (j : Nat) (d : Word) (h : m.wf = true) :
    (m.writeWord j d).writeWord j d = m.writeWord j d := by
  have hwf := Memory.wf_writeWord j d h
  refine Memory.ext_read (Memory.wf_writeWord j d hwf) hwf fun a => ?_
  rw [Memory.read_writeWord, Memory.read_writeWord]
  split <;> rfl

theorem writeWindow_idem {p : Params} {e : Engine} (b : BufferInv p e) (d : Word) {g : Region} (hg : g.inBounds p) :
    (e.writeWindow d g).writeWindow d g = e.writeWindow d g := by
  cases g with
  | freq x => simp only [Engine.writeWindow, Engine.setFreq, tset_tset_self]
  | input j => simp only [Engine.writeWindow, Memory.writeWord_idem j d b.inWf]
  | output j => simp only [Engine.writeWindow, Memory.writeWord_idem j d b.outWf]
  | ct x w =>
    have hread (c : CtEntry) : (e.setCt x c).ctAt x = c := tget_tset_self e.ct x c CtEntry.blank hg.1
    simp only [Engine.writeWindow, hread, ctEntry_writeWord_idem]
    simp only [Engine.setCt, tset_tset_self]
  | _ => rfl

theorem writeReg_idem (s : State) (d : Word) {r : Reg} (h : r ≠ .cmd) (x : Option BusResponse) :
    { s.writeReg d r with resp := x }.writeReg d r = { s.writeReg d r with resp := x } := by
  cases r with
  | status => simp [State.writeReg, State.writeStatus]
  | cmd => exact absurd rfl h
  | _ => rfl

/-- Settles O21: what fails changes nothing, a register but CMD and a word of a window take the value; a CMD write
starts a command, which the second write finds running. -/
theorem plainStoresAreIdempotent : Obligations.PlainStoresAreIdempotent := by
  unfold Obligations.PlainStoresAreIdempotent
  refine ⟨fun s a d hs hne => ?_, fun s d hi => ?_⟩
  · obtain herr | ⟨r, rfl⟩ | ⟨hi, hw, hbound⟩ := transfer_cases s a
    · rw [busWrite_error d herr]
      exact busWrite_error (s := { s with resp := _ }) d herr
    · have hr : r ≠ .cmd := by rintro rfl; exact hne rfl
      rw [busWrite_reg, busWrite_reg, writeReg_idem s d hr]
    · have hagain (e : Engine) (x : Option BusResponse) : { s with eng := e, resp := x }.busWrite a d =
          { s with eng := e.writeWindow d (region s.params a), resp := some (.writeDone false) } :=
        busWrite_window d hi hw
      rw [busWrite_window d hi hw, hagain, writeWindow_idem hs.buffers d hbound]
  · have hfirst : s.busWrite 0x000C#16 d = { s.accept d with resp := some (.writeDone false) } :=
      busWrite_cmd_idle d hi
    rw [hfirst]
    refine ⟨rfl, rfl, fun hoverrun hsame => ?_⟩
    have hsecond := busWrite_cmd_busy (s := { s.accept d with resp := some (.writeDone false) }) d Phase.noConfusion
    have hset := congrArg State.overrun (hsecond.symm.trans hsame)
    rw [State.accept_overrun, hoverrun] at hset
    cases hset

end Sys2Proof.Machine
end

section
/-! PROOFS. 20_memory.md R84: the frame of each command, read off its body. The bodies shared with MERGE_STEP and
BUILD_TREE write nothing outside the arena, the heap, the counts and ROOT; ENCODE writes nothing but its output. -/

namespace Sys2Proof.Machine

/-! ## The queue and the tree -/

theorem cmdPqInsert_frame (e : Engine) (n : Word) :
    (e.cmdPqInsert n).eng =
      { e with
        own := (e.cmdPqInsert n).eng.own
        heap := (e.cmdPqInsert n).eng.heap
        heapSize := (e.cmdPqInsert n).eng.heapSize } := by
  unfold Engine.cmdPqInsert
  split_ifs <;> rfl

theorem cmdPqExtract_frame (e : Engine) :
    e.cmdPqExtract.eng =
      { e with
        own := e.cmdPqExtract.eng.own
        heap := e.cmdPqExtract.eng.heap
        heapSize := e.cmdPqExtract.eng.heapSize } := by
  unfold Engine.cmdPqExtract
  split_ifs <;> rfl

theorem cmdNodeMerge_frame (e : Engine) (a b : Word) :
    (e.cmdNodeMerge a b).eng =
      { e with
        node := (e.cmdNodeMerge a b).eng.node
        own := (e.cmdNodeMerge a b).eng.own
        nodeCount := (e.cmdNodeMerge a b).eng.nodeCount } := by
  unfold Engine.cmdNodeMerge
  split_ifs <;> rfl

theorem cmdMergeStep_frame (e : Engine) :
    e.cmdMergeStep.eng =
      { e with
        node := e.cmdMergeStep.eng.node
        own := e.cmdMergeStep.eng.own
        heap := e.cmdMergeStep.eng.heap
        heapSize := e.cmdMergeStep.eng.heapSize
        nodeCount := e.cmdMergeStep.eng.nodeCount } := by
  unfold Engine.cmdMergeStep
  cases hbody : e.mergeStepBody with
  | error x => rfl
  | ok r =>
    obtain ⟨houtside, hleaf, hvalid, hidx⟩ := mergeStepBody_outside hbody
    have heng := houtside.eng_eq
    rwa [hleaf, hvalid, hidx] at heng

theorem releaseRoot_frame (e : Engine) : e.releaseRoot = { e with own := e.releaseRoot.own } := by
  unfold Engine.releaseRoot
  split_ifs <;> rfl

theorem cmdSetRoot_frame (e : Engine) (n : Word) :
    (e.cmdSetRoot n).eng =
      { e with
        own := (e.cmdSetRoot n).eng.own
        rootValid := (e.cmdSetRoot n).eng.rootValid
        rootIdx := (e.cmdSetRoot n).eng.rootIdx } := by
  unfold Engine.cmdSetRoot
  split_ifs
  · rfl
  · rfl
  · rw [releaseRoot_frame]; rfl

/-! ## The code table -/

theorem storeCodes_frame (e : Engine) (cs : List (Byte × List Bool)) :
    e.storeCodes cs = { e with ct := (e.storeCodes cs).ct } := by
  induction cs generalizing e with
  | nil => rfl
  | cons c cs ih => exact ih (e.storeCode c.1 c.2)

theorem execGenCodes_frame {s t : State} (h : execGenCodes s = .next t) : t.eng = { s.eng with ct := t.eng.ct } := by
  obtain heng | ⟨cs, heng⟩ := execGenCodes_eng h
  · rw [heng]
  · rw [heng]; exact storeCodes_frame s.eng.ctCleared cs

/-! ## The buffers -/

/-- No command writes IN_MEM, and none but ENCODE writes OUT_MEM. -/
theorem exec_memories {i : Instr} {s t : State} (h : exec i s = .next t) :
    t.eng.inMem = s.eng.inMem ∧ ((∀ A, i ≠ .encode A) → t.eng.outMem = s.eng.outMem) := by
  have outside {c : Completion} (hc : SameOutside s.eng c.eng) :
      c.eng.inMem = s.eng.inMem ∧ ((∀ A, i ≠ .encode A) → c.eng.outMem = s.eng.outMem) :=
    ⟨hc.inMem, fun _ => hc.outMem⟩
  cases i with
  | nop => obtain rfl := Host.Outcome.next.inj h; exact ⟨rfl, fun _ => rfl⟩
  | clear => obtain rfl := Host.Outcome.next.inj h; exact ⟨rfl, fun _ => rfl⟩
  | heapBuild => obtain rfl := Host.Outcome.next.inj h; exact outside (cmdHeapBuild_outside _)
  | pqInsert => obtain rfl := Host.Outcome.next.inj h; exact outside (cmdPqInsert_outside _ _)
  | pqExtract => obtain rfl := Host.Outcome.next.inj h; exact outside (cmdPqExtract_outside _)
  | pqPeek => obtain rfl := Host.Outcome.next.inj h; exact outside (cmdPqPeek_outside _)
  | nodeMerge => obtain rfl := Host.Outcome.next.inj h; exact outside (cmdNodeMerge_outside _ _ _)
  | mergeStep => obtain rfl := Host.Outcome.next.inj h; exact outside (cmdMergeStep_outside _)
  | setRoot => obtain rfl := Host.Outcome.next.inj h; exact outside (cmdSetRoot_outside _ _)
  | buildTree => obtain rfl := Host.Outcome.next.inj h; exact outside (cmdBuildTree_outside _)
  | genCodes => rw [execGenCodes_frame h]; exact ⟨rfl, fun _ => rfl⟩
  | ctClear => obtain rfl := Host.Outcome.next.inj h; exact ⟨rfl, fun _ => rfl⟩
  | encode A => exact ⟨(execEncode_same h).inMem, fun hne => absurd rfl (hne A)⟩

/-- Settles O42, command by command. -/
theorem commandFrames : Obligations.CommandFrames := by
  unfold Obligations.CommandFrames
  intro s t
  refine ⟨?nopPeek, ?clear, ?heapBuildTree, ?insertExtract, ?nodeMerge, ?mergeStep, ?setRoot, ?codeTable, ?encode,
    ?buffers⟩
  case nopPeek =>
    rintro (h | h)
    · obtain rfl := Host.Outcome.next.inj h; rfl
    · obtain rfl := Host.Outcome.next.inj h; exact cmdPqPeek_eng s.eng
  case clear => intro h; obtain rfl := Host.Outcome.next.inj h; rfl
  case heapBuildTree =>
    rintro (h | h)
    · obtain rfl := Host.Outcome.next.inj h; exact (cmdHeapBuild_outside s.eng).eng_eq
    · obtain rfl := Host.Outcome.next.inj h; exact (cmdBuildTree_outside s.eng).eng_eq
  case insertExtract =>
    rintro (h | h)
    · obtain rfl := Host.Outcome.next.inj h; exact cmdPqInsert_frame s.eng s.arg0L
    · obtain rfl := Host.Outcome.next.inj h; exact cmdPqExtract_frame s.eng
  case nodeMerge => intro h; obtain rfl := Host.Outcome.next.inj h; exact cmdNodeMerge_frame s.eng s.arg0L s.arg1L
  case mergeStep => intro h; obtain rfl := Host.Outcome.next.inj h; exact cmdMergeStep_frame s.eng
  case setRoot => intro h; obtain rfl := Host.Outcome.next.inj h; exact cmdSetRoot_frame s.eng s.arg0L
  case codeTable =>
    rintro (h | h)
    · exact execGenCodes_frame h
    · obtain rfl := Host.Outcome.next.inj h; rfl
  case encode => intro A h; exact (execEncode_same h).eng_eq
  case buffers =>
    intro i h a
    obtain ⟨hin, hout⟩ := exec_memories h
    exact ⟨by rw [hin], fun hne => by rw [hout hne]⟩

end Sys2Proof.Machine
end

section
/-! PROOFS. 30_encoding.md R90-R92, R95, R96: the command word and its decoder. A word is its three fields, the opcode
map is the inverse of the encoder on the opcode field, and so a word decodes to a command exactly when it is that
command's word. ILLEGAL is what is left over. -/

namespace Sys2Proof

/-! ## The fields of a command word -/

theorem opcodeField_toNat (v : Word) : (opcodeField v).toNat = v.toNat % 256 := by
  rw [opcodeField, BitVec.extractLsb'_toNat, Nat.shiftRight_zero]

theorem appendField_eq_decide (v : Word) : appendField v = decide (v.toNat / 256 % 2 = 1) :=
  Nat.testBit_eq_decide_div_mod_eq

theorem reservedField_toNat (v : Word) : (reservedField v).toNat = v.toNat / 512 := by
  have hv : v.toNat < 2 ^ 32 := v.isLt
  rw [reservedField, BitVec.extractLsb'_toNat, Nat.shiftRight_eq_div_pow]
  omega

/-- 30_encoding.md R90: OPCODE, A and RSV cover all 32 bits. -/
theorem word_ext_fields {v w : Word} (hop : opcodeField v = opcodeField w) (ha : appendField v = appendField w)
    (hrsv : reservedField v = reservedField w) : v = w := by
  have hop := congrArg BitVec.toNat hop
  have hrsv := congrArg BitVec.toNat hrsv
  rw [opcodeField_toNat, opcodeField_toNat] at hop
  rw [reservedField_toNat, reservedField_toNat] at hrsv
  rw [appendField_eq_decide, appendField_eq_decide, decide_eq_decide] at ha
  apply BitVec.eq_of_toNat_eq
  omega

theorem reservedField_encode (i : Instr) : reservedField (encode i) = 0#23 := by
  cases i with
  | encode A => cases A <;> rfl
  | _ => rfl

theorem opcodeField_encode_encode (A : Bool) : opcodeField (encode (.encode A)) = encodeOpcode := by
  cases A <;> rfl

theorem appendField_encode_encode (A : Bool) : appendField (encode (.encode A)) = A := by
  cases A <;> rfl

/-- Every command but ENCODE has its APPEND bit clear. -/
theorem appendField_encode {i : Instr} (h : opcodeField (encode i) ≠ encodeOpcode) :
    appendField (encode i) = false := by
  cases i with
  | encode A => exact absurd (opcodeField_encode_encode A) h
  | _ => rfl

/-! ## The opcode map -/

/-- Each row of the opcode map names the opcode of its command's word, and has no APPEND bit. -/
theorem opcodeMap_row : ∀ p ∈ opcodeMap, opcodeField (encode p.2) = p.1 ∧ appendField (encode p.2) = false := by
  decide

theorem encode_of_ofOpcode {op : BitVec 8} {i : Instr} (h : ofOpcode op = some i) :
    opcodeField (encode i) = op ∧ appendField (encode i) = false := by
  obtain ⟨before, after, hmap, -⟩ := List.lookup_eq_some_iff.1 h
  have hrow : (op, i) ∈ opcodeMap := by rw [hmap]; exact List.mem_append_right _ List.mem_cons_self
  exact opcodeMap_row (op, i) hrow

/-- The opcodes with no row in the map: the reserved ranges of 30_encoding.md R96, and ENCODE's own. -/
theorem ofOpcode_eq_none_iff {op : BitVec 8} :
    ofOpcode op = none ↔
      (0x02 ≤ op.toNat ∧ op.toNat ≤ 0x0F) ∨ (0x18 ≤ op.toNat ∧ op.toNat ≤ 0x1F) ∨ 0x22 ≤ op.toNat := by
  have hrows : ofOpcode op = none ↔ ∀ p ∈ opcodeMap, op.toNat ≠ p.1.toNat := by
    simp [ofOpcode, List.lookup_eq_none_iff, ← BitVec.toNat_inj]
  rw [hrows]
  simp only [opcodeMap, List.forall_mem_cons, List.not_mem_nil, false_imp_iff, implies_true, and_true,
    BitVec.toNat_ofNat, Nat.reducePow, Nat.reduceMod]
  omega

/-! ## The cases of the decoder -/

theorem decode_reservedBits {v : Word} (h : reservedField v ≠ 0#23) : decode v = .error .reservedBits := by
  rw [decode, if_pos h]

section
variable {v : Word} (hrsv : reservedField v = 0#23)
include hrsv

theorem decode_encodeOpcode (hop : opcodeField v = encodeOpcode) : decode v = .ok (.encode (appendField v)) := by
  rw [decode, if_neg (not_not_intro hrsv), if_pos hop]

theorem decode_appendOnOther (hop : opcodeField v ≠ encodeOpcode) (ha : appendField v = true) :
    decode v = .error .appendOnOther := by
  rw [decode, if_neg (not_not_intro hrsv), if_neg hop, if_pos ha]

variable (hop : opcodeField v ≠ encodeOpcode) (ha : appendField v = false)
include hop ha

theorem decode_of_ofOpcode {i : Instr} (hi : ofOpcode (opcodeField v) = some i) : decode v = .ok i := by
  rw [decode, if_neg (not_not_intro hrsv), if_neg hop, if_neg (by rw [ha]; exact Bool.false_ne_true), hi]

theorem decode_reservedOpcode (hi : ofOpcode (opcodeField v) = none) : decode v = .error .reservedOpcode := by
  rw [decode, if_neg (not_not_intro hrsv), if_neg hop, if_neg (by rw [ha]; exact Bool.false_ne_true), hi]

end

/-- 30_encoding.md R91: every word falls under one of the five cases. -/
theorem decode_cases (v : Word) :
    (reservedField v ≠ 0#23 ∧ decode v = .error .reservedBits) ∨
      (reservedField v = 0#23 ∧ opcodeField v = encodeOpcode ∧ decode v = .ok (.encode (appendField v))) ∨
      (reservedField v = 0#23 ∧ opcodeField v ≠ encodeOpcode ∧ appendField v = true ∧
        decode v = .error .appendOnOther) ∨
      (reservedField v = 0#23 ∧ opcodeField v ≠ encodeOpcode ∧ appendField v = false ∧
        ∃ i, ofOpcode (opcodeField v) = some i ∧ decode v = .ok i) ∨
      (reservedField v = 0#23 ∧ opcodeField v ≠ encodeOpcode ∧ appendField v = false ∧
        ofOpcode (opcodeField v) = none ∧ decode v = .error .reservedOpcode) := by
  by_cases hrsv : reservedField v = 0#23
  · by_cases hop : opcodeField v = encodeOpcode
    · exact .inr (.inl ⟨hrsv, hop, decode_encodeOpcode hrsv hop⟩)
    · cases ha : appendField v with
      | true => exact .inr (.inr (.inl ⟨hrsv, hop, rfl, decode_appendOnOther hrsv hop ha⟩))
      | false =>
        cases hi : ofOpcode (opcodeField v) with
        | some i => exact .inr (.inr (.inr (.inl ⟨hrsv, hop, rfl, i, rfl, decode_of_ofOpcode hrsv hop ha hi⟩)))
        | none => exact .inr (.inr (.inr (.inr ⟨hrsv, hop, rfl, rfl, decode_reservedOpcode hrsv hop ha hi⟩)))
  · exact .inl ⟨hrsv, decode_reservedBits hrsv⟩

/-! ## Decoding and encoding -/

theorem decode_encode (i : Instr) : decode (encode i) = .ok i := by
  cases i with
  | nop => exact Laws.RoundTrip.nop rfl
  | clear => exact Laws.RoundTrip.clear rfl
  | heapBuild => exact Laws.RoundTrip.heapBuild rfl
  | pqInsert => exact Laws.RoundTrip.pqInsert rfl
  | pqExtract => exact Laws.RoundTrip.pqExtract rfl
  | pqPeek => exact Laws.RoundTrip.pqPeek rfl
  | nodeMerge => exact Laws.RoundTrip.nodeMerge rfl
  | mergeStep => exact Laws.RoundTrip.mergeStep rfl
  | setRoot => exact Laws.RoundTrip.setRoot rfl
  | buildTree => exact Laws.RoundTrip.buildTree rfl
  | genCodes => exact Laws.RoundTrip.genCodes rfl
  | ctClear => exact Laws.RoundTrip.ctClear rfl
  | encode A => exact Laws.RoundTrip.encode A rfl

theorem eq_encode_of_decode {v : Word} {i : Instr} (h : decode v = .ok i) : v = encode i := by
  obtain ⟨-, hd⟩ | ⟨hrsv, hop, hd⟩ | ⟨-, -, -, hd⟩ | ⟨hrsv, -, ha, j, hj, hd⟩ | ⟨-, -, -, -, hd⟩ := decode_cases v
  · cases hd.symm.trans h
  · obtain rfl := Except.ok.inj (hd.symm.trans h)
    exact word_ext_fields (hop.trans (opcodeField_encode_encode _).symm) (appendField_encode_encode _).symm
      (hrsv.trans (reservedField_encode _).symm)
  · cases hd.symm.trans h
  · obtain rfl := Except.ok.inj (hd.symm.trans h)
    obtain ⟨hop, happend⟩ := encode_of_ofOpcode hj
    exact word_ext_fields hop.symm (ha.trans happend.symm) (hrsv.trans (reservedField_encode _).symm)
  · cases hd.symm.trans h

theorem decode_eq_ok_iff {v : Word} {i : Instr} : decode v = .ok i ↔ v = encode i :=
  ⟨eq_encode_of_decode, fun h => h ▸ decode_encode i⟩

/-- A word with bits 31:8 clear and the opcode of a command other than ENCODE is that command's word. -/
theorem decode_of_opcodeField_encode {v : Word} {i : Instr} (hrsv : reservedField v = 0#23)
    (hop : opcodeField v ≠ encodeOpcode) (ha : appendField v = false)
    (hi : opcodeField (encode i) = opcodeField v) : decode v = .ok i := by
  have happend : appendField (encode i) = false := appendField_encode (hi ▸ hop)
  exact decode_eq_ok_iff.2
    (word_ext_fields hi.symm (ha.trans happend.symm) (hrsv.trans (reservedField_encode i).symm))

/-- A word that decodes to a command has that command's opcode, so an opcode no command has is ILLEGAL. -/
theorem decode_error_of_no_opcode {v : Word} (h : ∀ i, opcodeField (encode i) ≠ opcodeField v) :
    ∃ x, decode v = .error x := by
  cases hd : decode v with
  | error x => exact ⟨x, rfl⟩
  | ok i => exact absurd (congrArg opcodeField (decode_eq_ok_iff.1 hd)).symm (h i)

/-! ## The ILLEGAL words -/

theorem decode_error_iff_fields {v : Word} :
    (∃ x, decode v = .error x) ↔
      reservedField v ≠ 0#23 ∨
        (opcodeField v ≠ encodeOpcode ∧ (appendField v = true ∨ ofOpcode (opcodeField v) = none)) := by
  obtain ⟨hrsv, hd⟩ | ⟨hrsv, hop, hd⟩ | ⟨hrsv, hop, ha, hd⟩ | ⟨hrsv, hop, ha, i, hi, hd⟩ | ⟨hrsv, hop, ha, hi, hd⟩ :=
    decode_cases v
  · simp [hd, hrsv]
  · simp [hd, hrsv, hop]
  · simp [hd, hop, ha]
  · simp [hd, hrsv, ha, hi]
  · simp [hd, hop, hi]

/-- 30_encoding.md R96: the ILLEGAL words, by number. -/
theorem decode_error_iff_ranges {v : Word} :
    (∃ x, decode v = .error x) ↔
      512 ≤ v.toNat ∨ (v.toNat / 256 % 2 = 1 ∧ v.toNat % 256 ≠ 0x30) ∨
        (0x02 ≤ v.toNat % 256 ∧ v.toNat % 256 ≤ 0x0F) ∨ (0x18 ≤ v.toNat % 256 ∧ v.toNat % 256 ≤ 0x1F) ∨
        (0x22 ≤ v.toNat % 256 ∧ v.toNat % 256 ≤ 0x2F) ∨ 0x31 ≤ v.toNat % 256 := by
  have hrsv : reservedField v = 0#23 ↔ v.toNat / 512 = 0 := by
    rw [← BitVec.toNat_inj, reservedField_toNat, BitVec.toNat_ofNat, Nat.zero_mod]
  have hop : opcodeField v = encodeOpcode ↔ v.toNat % 256 = 0x30 := by
    rw [← BitVec.toNat_inj, opcodeField_toNat]; rfl
  rw [decode_error_iff_fields, Ne, hrsv, Ne, hop, appendField_eq_decide, decide_eq_true_iff, ofOpcode_eq_none_iff,
    opcodeField_toNat]
  omega

end Sys2Proof

namespace Sys2Proof.Machine

/-- 40_control.md R112: the whole state after the completion of an ILLEGAL word. -/
theorem completeIllegal_eq (s : State) :
    s.completeIllegal = { s with res0 := 0#32, res1 := 0#32, err := 4#4, done := true, phase := .idle } := rfl

/-! ## The obligations -/

/-- Settles O3: the fields of a word determine it, and the opcode map inverts the encoder. -/
theorem decodeInvertsEncode : Obligations.DecodeInvertsEncode := by
  unfold Obligations.DecodeInvertsEncode
  exact fun _ _ => decode_eq_ok_iff

/-- Settles O2, a case of the decoder for each clause. -/
theorem decodeCaseByCase : Obligations.DecodeCaseByCase := by
  unfold Obligations.DecodeCaseByCase
  intro v
  refine ⟨?reservedBits, decode_encodeOpcode, ?appendOnOther, ?map, ?illegal⟩
  case reservedBits => exact fun hrsv => ⟨_, decode_reservedBits hrsv⟩
  case appendOnOther => exact fun hrsv hop ha => ⟨_, decode_appendOnOther hrsv hop ha⟩
  case map =>
    exact fun hrsv hop ha => ⟨fun i => decode_of_opcodeField_encode hrsv hop ha, decode_error_of_no_opcode⟩
  case illegal =>
    intro s x hbusy hturn hlatch hd
    rw [← hlatch] at hd
    exact ⟨step_illegal hbusy hturn hd, congrArg State.err (completeIllegal_eq s)⟩

/-- Settles O4: the decoder's error cases by number, the completion of an ILLEGAL word, and acceptance, which does
not look at the word. -/
theorem illegalWordsComplete : Obligations.IllegalWordsComplete := by
  unfold Obligations.IllegalWordsComplete
  intro v
  refine ⟨decode_error_iff_ranges, ?completes, ?accepted⟩
  case completes =>
    rintro s hbusy hturn hlatch ⟨x, hd⟩
    rw [← hlatch] at hd
    rw [step_illegal hbusy hturn hd, completeIllegal_eq]
  case accepted =>
    intro s hidle
    have hw : s.busWrite 0x000C#16 v = { s.accept v with resp := some (.writeDone false) } := busWrite_cmd_idle v hidle
    rw [hw]
    exact ⟨rfl, rfl, rfl⟩

/-- Settles O1: each word is the encoder's word of its command. -/
theorem opcodeMapWords : Obligations.OpcodeMapWords := by
  unfold Obligations.OpcodeMapWords
  exact ⟨decode_encode .nop, decode_encode .clear, decode_encode .heapBuild, decode_encode .pqInsert,
    decode_encode .pqExtract, decode_encode .pqPeek, decode_encode .nodeMerge, decode_encode .mergeStep,
    decode_encode .setRoot, decode_encode .buildTree, decode_encode .genCodes, decode_encode .ctClear,
    decode_encode (.encode false), decode_encode (.encode true)⟩

end Sys2Proof.Machine
end

section
/-! PROOFS. 40_control.md R110, R111: NOP and CLEAR. Each completes from every state; its whole next state is given
once, and the obligations read their clauses off it. -/

namespace Sys2Proof.Machine

/-! ## The state after NOP and after CLEAR -/

/-- The whole state after NOP: no field but the results, DONE and PHASE is written. -/
theorem exec_nop_eq (s : State) :
    exec .nop s = .next { s with res0 := 0#32, res1 := 0#32, err := 0#4, done := true, phase := .idle } := rfl

/-- The whole state after CLEAR: the state after NOP, with the engine cleared by the body that it shares with the
initialisation step. -/
theorem exec_clear_eq (s : State) :
    exec .clear s = .next { s with eng := s.eng.cleared, res0 := 0#32, res1 := 0#32, err := 0#4, done := true,
                                   phase := .idle } := rfl

/-- 10_state.md R23: STATUS in IDLE after a command that ended with OK and no overrun. -/
theorem statusWord_of_completed_ok {s : State} (hphase : s.phase = .idle) (hdone : s.done = true)
    (hoverrun : s.overrun = false) (herr : s.err = 0#4) : s.statusWord = 2#32 := by
  have hbusy : s.busy = false := by simp [State.busy, hphase]
  rw [State.statusWord, hbusy, hdone, hoverrun, herr]
  rfl

/-- What CLEAR clears does not depend on the state: the initialisation step leaves the same values from any state. -/
theorem initStep_clears_as_cleared (u : State) (e : Engine) :
    u.initStep.eng.freq = e.cleared.freq ∧ u.initStep.eng.ct = e.cleared.ct ∧
      u.initStep.eng.nodeCount = e.cleared.nodeCount ∧ u.initStep.eng.leafCount = e.cleared.leafCount ∧
      u.initStep.eng.heapSize = e.cleared.heapSize ∧ u.initStep.eng.rootValid = e.cleared.rootValid ∧
      u.initStep.eng.rootIdx = e.cleared.rootIdx ∧ u.initStep.eng.outBits = e.cleared.outBits := by
  rw [State.initStep_eng]
  exact ⟨rfl, rfl, rfl, rfl, rfl, rfl, rfl, rfl⟩

/-! ## The obligations -/

/-- Settles O26: the state after NOP, and its STATUS word. -/
theorem nopResult : Obligations.NopResult := by
  unfold Obligations.NopResult
  exact ⟨decode_encode .nop, fun s => ⟨exec_nop_eq s, fun hoverrun => statusWord_of_completed_ok rfl rfl hoverrun rfl⟩⟩

/-- Settles O27, with the cleared engine as the one that CLEAR answers. -/
theorem clearResult : Obligations.ClearResult := by
  unfold Obligations.ClearResult
  refine ⟨decode_encode .clear, fun s => ⟨s.eng.cleared, exec_clear_eq s, ?tables, ?registersAndBuffers⟩⟩
  case tables => exact fun x => ⟨cleared_freqAt s.eng x.toNat, cleared_ctAt s.eng x.toNat⟩
  case registersAndBuffers =>
    exact ⟨rfl, rfl, rfl, rfl, rfl, rfl, rfl, rfl, fun u => initStep_clears_as_cleared u s.eng⟩

end Sys2Proof.Machine
end

section
/-! PROOFS. 41_priority_queue.md R120-R130: the priority queue. The order and the sift loops are those of the rules;
each command's result is read off its body; under the structural invariants every command keeps the heap property,
and a drain of the queue is its one sorted list. -/

namespace Sys2Proof.Machine

/-! ## The order and the sift loops -/

/-- Settles O44, by the strict order of the keys. -/
theorem heapOrderIsStrictTotal : Obligations.HeapOrderIsStrictTotal := by
  unfold Obligations.HeapOrderIsStrictTotal
  intro e x y z
  have so := e.less_strictOrder
  exact ⟨e.less_iff x y, so.irrefl x, so.trans x y z, so.total x y⟩

/-- One turn of `sift_down`: a turn less is still enough below, since the node moves down. -/
theorem siftDown_turn (lt : NodeIdx → NodeIdx → Bool) (h : Vector NodeIdx 256) (i n : Nat) :
    siftDown lt n i n h =
      if minChild lt h n i = i then h
      else siftDown lt n (minChild lt h n i) n (hswap h i (minChild lt h n i)) := by
  have hmove := minChild_cases lt h n i
  cases n with
  | zero =>
    have hstay : minChild lt h 0 i = i := by omega
    rw [if_pos hstay, siftDown]
  | succ k =>
    rw [siftDown]
    split
    · rfl
    · exact siftDown_fuel lt _ _ _ _ _ (by omega) (by omega)

/-- One turn of `sift_up`: as many turns as the parent's position are enough from there. -/
theorem siftUp_turn (lt : NodeIdx → NodeIdx → Bool) (h : Vector NodeIdx 256) (i : Nat) :
    siftUp lt i i h =
      if 0 < i ∧ lt (hget h i) (hget h ((i - 1) / 2)) then
        siftUp lt ((i - 1) / 2) ((i - 1) / 2) (hswap h i ((i - 1) / 2))
      else h := by
  cases i with
  | zero => rw [siftUp, if_neg (fun hpos => absurd hpos.1 (lt_irrefl 0))]
  | succ k =>
    rw [siftUp]
    split
    · exact siftUp_fuel lt _ _ _ _ (by omega) le_rfl
    · rfl

/-- A swap, entry by entry. -/
theorem hget_hswap_cases (h : Vector NodeIdx 256) {i j : Nat} (hi : i < 256) (hj : j < 256) (k : Nat) :
    hget (hswap h i j) k = if k = j then hget h i else if k = i then hget h j else hget h k := by
  rw [hget_hswap h hi hj, Equiv.swap_comm, Equiv.swap_apply_def]
  split_ifs <;> rfl

/-- Settles O45, by one turn of each loop. -/
theorem siftLoops : Obligations.SiftLoops := by
  unfold Obligations.SiftLoops
  intro lt h i n
  exact ⟨siftDown_turn lt h i n, siftUp_turn lt h i, rfl, fun _ => rfl, fun j k hi hj => hget_hswap_cases h hi hj k⟩

/-! ## HEAP_BUILD -/

theorem exec_heapBuild_noSymbol {s : State} (h : s.eng.presentSyms = []) :
    exec .heapBuild s = .next (s.complete (raised s.eng .invalidInput)) := by
  have hlen : s.eng.presentSyms.length = 0 := by rw [h, List.length_nil]
  simp only [exec, execHeapBuild, Engine.cmdHeapBuild, Engine.heapBuildBody, if_pos hlen]

theorem exec_heapBuild_overflow {s : State} (h : s.eng.presentSyms ≠ []) (hT : 0xFFFFFFFF < s.eng.totalFreq) :
    exec .heapBuild s = .next (s.complete (raised s.eng .weightOverflow)) := by
  have hlen : s.eng.presentSyms.length ≠ 0 := fun h0 => h (List.eq_nil_of_length_eq_zero h0)
  simp only [exec, execHeapBuild, Engine.cmdHeapBuild, Engine.heapBuildBody, if_neg hlen, if_pos hT]

/-- The array that HEAP_BUILD's leaf loop leaves to be heapified: entry `i` is node `i`. -/
theorem createLeaves_present_heap (e : Engine) {i : Nat} (h : i < e.presentSyms.length) :
    hget (e.createLeaves e.presentSyms 0).heap i = BitVec.ofNat 9 i := by
  have hlen := e.presentSyms_length
  rw [Engine.createLeaves_heap e _ 0 i (by omega), if_pos (by omega)]

/-- Settles O28: the success is `heapBuilt`, whose heap array is that of the leaf loop, heapified. -/
theorem heapBuildResult : Obligations.HeapBuildResult := by
  unfold Obligations.HeapBuildResult
  refine ⟨decode_encode .heapBuild, fun s => ⟨exec_heapBuild_noSymbol, exec_heapBuild_overflow, fun h0 hT => ?_⟩⟩
  obtain ⟨hnode, hleaf, hsize⟩ := s.eng.heapBuilt_counts
  refine ⟨s.eng.heapBuilt, (s.eng.createLeaves s.eng.presentSyms 0).heap, execHeapBuild_ok h0 hT, fun i hi => ?_,
    hnode, hleaf, hsize, s.eng.heapBuilt_rootValid, s.eng.heapBuilt_rootIdx, rfl, s.eng.heapBuilt_freq,
    s.eng.heapBuilt_ct, s.eng.heapBuilt_inMem, s.eng.heapBuilt_outMem, s.eng.heapBuilt_outBits⟩
  exact ⟨s.eng.heapBuilt_nodeAt i hi, s.eng.heapBuilt_ownAt i hi, createLeaves_present_heap s.eng hi⟩

/-! ## PQ_INSERT -/

theorem idxWord_nodeOperand {v : Word} (h : v.toNat < 512) : idxWord (nodeOperand v) = v :=
  BitVec.eq_of_toNat_eq (by rw [idxWord_toNat, nodeOperand_toNat h])

theorem exec_pqInsert_badNode {s : State} (h : s.eng.nodeCount.toNat ≤ s.arg0L.toNat) :
    exec .pqInsert s = .next (s.complete (raised s.eng .badNode)) := by
  have halloc : s.eng.allocated s.arg0L = false := by
    rw [← Bool.not_eq_true, Engine.allocated_iff]; omega
  simp [exec, execPqInsert, Engine.cmdPqInsert, halloc]

section
variable {s : State} (hn : s.arg0L.toNat < s.eng.nodeCount.toNat)
include hn

theorem exec_pqInsert_notLoose (hown : s.eng.ownAt s.arg0L.toNat ≠ .loose) :
    exec .pqInsert s = .next (s.complete (raised s.eng .nodeNotLoose)) := by
  have halloc := (s.eng.allocated_iff s.arg0L).2 hn
  have hloose : s.eng.isLoose s.arg0L = false := by rwa [← Bool.not_eq_true, Engine.isLoose_iff]
  simp [exec, execPqInsert, Engine.cmdPqInsert, halloc, hloose]

theorem exec_pqInsert_full (hown : s.eng.ownAt s.arg0L.toNat = .loose) (hsize : s.eng.heapSize.toNat = 256) :
    exec .pqInsert s = .next (s.complete (raised s.eng .queueFull)) := by
  have halloc := (s.eng.allocated_iff s.arg0L).2 hn
  have hloose := (s.eng.isLoose_iff s.arg0L).2 hown
  simp [exec, execPqInsert, Engine.cmdPqInsert, halloc, hloose, hsize]

/-- PQ_INSERT of a LOOSE node, in terms of the operand itself. -/
theorem exec_pqInsert_ok (hown : s.eng.ownAt s.arg0L.toNat = .loose) (hsize : s.eng.heapSize.toNat < 256)
    (hcount : s.eng.nodeCount.toNat ≤ 511) :
    exec .pqInsert s =
      .next (s.complete (success (s.eng.heapInsert (nodeOperand s.arg0L)) s.arg0L
        (s.eng.nodeAt s.arg0L.toNat).weight)) := by
  have hidx : s.arg0L = idxWord (nodeOperand s.arg0L) := (idxWord_nodeOperand (by omega)).symm
  have hop : (nodeOperand s.arg0L).toNat = s.arg0L.toNat := nodeOperand_toNat (by omega)
  have hexec := execPqInsert_ok _ hidx (by rwa [hop]) (by rwa [hop]) hsize
  rwa [← hidx, hop] at hexec

end

/-- Settles O29: three checks in order, then heap_insert of the operand. -/
theorem pqInsertResult : Obligations.PqInsertResult := by
  unfold Obligations.PqInsertResult
  refine ⟨decode_encode .pqInsert, fun s => ⟨exec_pqInsert_badNode, exec_pqInsert_notLoose, exec_pqInsert_full,
    fun hn hown hsize hcount => ?_⟩⟩
  have hop : (nodeOperand s.arg0L).toNat = s.arg0L.toNat := nodeOperand_toNat (by omega)
  refine ⟨s.eng.heapInsert (nodeOperand s.arg0L), exec_pqInsert_ok hn hown hsize hcount, rfl,
    s.eng.heapInsert_heapSize _ hsize, rfl, fun j => ?_⟩
  have h511 : s.arg0L.toNat < 511 := by omega
  simp only [Engine.heapInsert_ownAt, hop, h511, and_true]

/-! ## PQ_EXTRACT and PQ_PEEK -/

theorem exec_pqExtract_empty {s : State} (h : s.eng.heapSize.toNat = 0) :
    exec .pqExtract s = .next (s.complete (raised s.eng .queueEmpty)) := by
  simp only [exec, execPqExtract, Engine.cmdPqExtract, if_pos h]

theorem exec_pqPeek_empty {s : State} (h : s.eng.heapSize.toNat = 0) :
    exec .pqPeek s = .next (s.complete (raised s.eng .queueEmpty)) := by
  simp only [exec, execPqPeek, Engine.cmdPqPeek, if_pos h]

theorem exec_pqPeek_ok {s : State} (h : 0 < s.eng.heapSize.toNat) :
    exec .pqPeek s =
      .next (s.complete (success s.eng (idxWord (s.eng.heapAt 0)) (s.eng.nodeAt (s.eng.heapAt 0).toNat).weight)) := by
  simp only [exec, execPqPeek, Engine.cmdPqPeek, if_neg h.ne']

/-- The extracted node is LOOSE afterwards. Index 511 is no entry, and reads as LOOSE in any state (log 8). -/
theorem heapExtract_ownAt_any (e : Engine) (j : Nat) :
    e.heapExtract.2.ownAt j = if j = (e.heapAt 0).toNat then .loose else e.ownAt j := by
  rw [Engine.heapExtract_ownAt]
  by_cases hbound : (e.heapAt 0).toNat < 511
  · simp only [hbound, and_true]
  · rw [if_neg fun hj => hbound hj.2]
    split
    · exact tget_out _ _ _ (by omega)
    · rfl

/-- Settles O30: one check, then heap_extract. -/
theorem pqExtractResult : Obligations.PqExtractResult := by
  unfold Obligations.PqExtractResult
  refine ⟨decode_encode .pqExtract, fun s => ⟨exec_pqExtract_empty, fun hsize => ?_⟩⟩
  exact ⟨s.eng.heapExtract.2, execPqExtract_ok hsize, rfl, s.eng.heapExtract_heapSize, rfl,
    heapExtract_ownAt_any s.eng⟩

/-- Settles O31: PQ_PEEK and PQ_EXTRACT check and answer alike, on an empty heap and on any other. -/
theorem pqPeekResult : Obligations.PqPeekResult := by
  unfold Obligations.PqPeekResult
  refine ⟨decode_encode .pqPeek, fun s => ⟨exec_pqPeek_empty, exec_pqPeek_ok, ?_⟩⟩
  obtain hsize | hsize := Nat.eq_zero_or_pos s.eng.heapSize.toNat
  · exact ⟨_, _, exec_pqPeek_empty hsize, exec_pqExtract_empty hsize, rfl, rfl, rfl⟩
  · exact ⟨_, _, exec_pqPeek_ok hsize, execPqExtract_ok hsize, rfl, rfl, rfl⟩

/-! ## The minimum first -/

/-- `H[0]` is strictly below every other queued node. -/
theorem QueueInv.heapAt_zero_lt {e : Engine} (q : QueueInv e) {x : NodeIdx} (hx : x ∈ e.queue) (hne : x ≠ e.heapAt 0) :
    e.less (e.heapAt 0) x = true :=
  e.less_strictOrder.lt_of_le_of_ne (e.heapAt_zero_least q.ordered x hx) hne.symm

/-- Settles O48: the heap property is part of the structural invariants, which every command keeps. -/
theorem heapMinimumFirst : Obligations.HeapMinimumFirst := by
  unfold Obligations.HeapMinimumFirst
  intro s hs
  refine ⟨hs.queueInv.ordered, fun x => hs.queueInv.heapAt_zero_lt, fun i t hexec => ?_⟩
  exact (exec_parts hexec hs.parts).queue.ordered

/-! ## Draining the queue -/

/-- heap_extract's node stands strictly below what it leaves queued. -/
theorem QueueInv.heapAt_zero_lt_rest {e : Engine} (q : QueueInv e) (hpos : 0 < e.heapSize.toNat)
    (hle : e.heapSize.toNat ≤ 256) {x : NodeIdx} (hx : x ∈ e.heapExtract.2.queue) : e.less (e.heapAt 0) x = true := by
  have hperm := e.heapExtract_queue hpos hle
  obtain ⟨hnot, -⟩ := List.nodup_cons.1 (hperm.nodup_iff.1 q.nodup)
  exact q.heapAt_zero_lt (hperm.mem_iff.2 (List.mem_cons_of_mem _ hx)) fun heq => hnot (heq ▸ hx)

/-- HEAP_SIZE PQ_EXTRACTs in a row complete and return the queued nodes in strictly ascending order. -/
theorem extractedBy_sorted (k : Nat) {s : State} (p : Parts s.eng) (hk : s.eng.heapSize.toNat = k) :
    ∃ l : List NodeIdx, extractedBy k s = some (l.map idxWord) ∧ l.Perm s.eng.queue ∧
      l.Pairwise fun x y => s.eng.less x y = true := by
  induction k generalizing s with
  | zero =>
    have hempty : s.eng.queue = [] := by rw [Engine.queue, hk]; rfl
    exact ⟨[], rfl, by rw [hempty], List.Pairwise.nil⟩
  | succ k ih =>
    have hpos : 0 < s.eng.heapSize.toNat := by omega
    have hle := heapSize_le_256 p.arena p.queue
    have hexec := execPqExtract_ok hpos
    obtain ⟨l, hrun, hperm, hsorted⟩ := ih (exec_parts hexec p) (by
      rw [State.complete_eng]
      exact s.eng.heapExtract_heapSize.trans (by omega))
    refine ⟨s.eng.heapAt 0 :: l, ?run, ?perm, List.pairwise_cons.2 ⟨fun x hx => ?least, hsorted⟩⟩
    case run => rw [extractedBy, hexec]; simp only [hrun]; rfl
    case perm => exact (hperm.cons _).trans (s.eng.heapExtract_queue hpos hle).symm
    case least => exact p.queue.heapAt_zero_lt_rest hpos hle (hperm.mem_iff.1 hx)

/-- A list of nodes has one strictly ascending arrangement. -/
theorem StrictOrder.sorted_unique {lt : NodeIdx → NodeIdx → Bool} (so : StrictOrder lt) {l l' : List NodeIdx}
    (h : l.Pairwise fun x y => lt x y = true) (h' : l'.Pairwise fun x y => lt x y = true) (hperm : l.Perm l') :
    l = l' :=
  hperm.eq_of_pairwise (fun x y _ _ hxy hyx => absurd hyx (by simp [so.asymm hxy])) h h'

theorem Engine.less_eq_of_weightAt {e e' : Engine} {x y : NodeIdx} (hx : e'.weightAt x.toNat = e.weightAt x.toNat)
    (hy : e'.weightAt y.toNat = e.weightAt y.toNat) : e'.less x y = e.less x y := by
  rw [Bool.eq_iff_iff, Engine.less_iff, Engine.less_iff, hx, hy]

/-- Settles O49: a drain is the sorted list of the queued nodes, and there is but one. -/
theorem extractionOrder : Obligations.ExtractionOrder := by
  unfold Obligations.ExtractionOrder
  intro s hs
  obtain ⟨l, hrun, hperm, hsorted⟩ := extractedBy_sorted _ hs.parts rfl
  refine ⟨⟨l, hrun, hperm, hsorted⟩, fun s' hs' hqueue hweight => ?_⟩
  have hsize : s'.eng.heapSize.toNat = s.eng.heapSize.toNat := by
    simpa only [Engine.queue_eq, length_hlist] using hqueue.length_eq
  obtain ⟨l', hrun', hperm', hsorted'⟩ := extractedBy_sorted _ hs'.parts hsize
  have hmem : ∀ x ∈ l', s'.eng.weightAt x.toNat = s.eng.weightAt x.toNat := fun x hx =>
    hweight x (hqueue.mem_iff.1 (hperm'.mem_iff.1 hx))
  have hsorted'' : l'.Pairwise fun x y => s.eng.less x y = true :=
    hsorted'.imp_of_mem fun hx hy hlt => by rwa [← Engine.less_eq_of_weightAt (hmem _ hx) (hmem _ hy)]
  obtain rfl : l' = l :=
    s.eng.less_strictOrder.sorted_unique hsorted'' hsorted (hperm'.trans (hqueue.trans hperm.symm))
  rw [hrun, hrun']

end Sys2Proof.Machine
end

section
/-! PROOFS. 42_tree_builder.md R150-R157: the tree builder. Each command is answered case by case; MERGE_STEP and
BUILD_TREE are the single commands in a row, since under the structural invariants none of those can fail; and a
command moves the ownership of an allocated node only along R150's table. -/

namespace Sys2Proof.Machine

/-! ## NODE_MERGE -/

theorem mergedWeight_nodeOperand (e : Engine) {a b : Word} (ha : a.toNat < 512) (hb : b.toNat < 512) :
    e.mergedWeight (nodeOperand a) (nodeOperand b) = e.weightAt a.toNat + e.weightAt b.toNat := by
  rw [Engine.mergedWeight_eq, nodeOperand_toNat ha, nodeOperand_toNat hb]

theorem nodeOperand_ne {a b : Word} (ha : a.toNat < 512) (hb : b.toNat < 512) (hne : a.toNat ≠ b.toNat) :
    nodeOperand a ≠ nodeOperand b := fun heq =>
  hne (by rw [← nodeOperand_toNat ha, ← nodeOperand_toNat hb, heq])

theorem exec_nodeMerge_badNode {s : State}
    (h : s.eng.nodeCount.toNat ≤ s.arg0L.toNat ∨ s.eng.nodeCount.toNat ≤ s.arg1L.toNat) :
    exec .nodeMerge s = .next (s.complete (raised s.eng .badNode)) := by
  have halloc : (!s.eng.allocated s.arg0L || !s.eng.allocated s.arg1L) = true := by simpa [Engine.allocated] using h
  simp only [exec, execNodeMerge, Engine.cmdNodeMerge, if_pos halloc]

section
variable {s : State} (ha : s.arg0L.toNat < s.eng.nodeCount.toNat) (hb : s.arg1L.toNat < s.eng.nodeCount.toNat)
include ha hb

theorem exec_nodeMerge_notLoose
    (h : s.arg0L.toNat = s.arg1L.toNat ∨ s.eng.ownAt s.arg0L.toNat ≠ .loose ∨ s.eng.ownAt s.arg1L.toNat ≠ .loose) :
    exec .nodeMerge s = .next (s.complete (raised s.eng .nodeNotLoose)) := by
  have hcheck : (decide (s.arg0L = s.arg1L) || !s.eng.isLoose s.arg0L || !s.eng.isLoose s.arg1L) = true := by
    simpa [Engine.isLoose, BitVec.toNat_inj, or_assoc] using h
  simp [exec, execNodeMerge, Engine.cmdNodeMerge, (s.eng.allocated_iff _).2 ha, (s.eng.allocated_iff _).2 hb,
    -Bool.or_eq_true, hcheck]

variable (hne : s.arg0L.toNat ≠ s.arg1L.toNat) (hla : s.eng.ownAt s.arg0L.toNat = .loose)
  (hlb : s.eng.ownAt s.arg1L.toNat = .loose)
include hne hla hlb

theorem exec_nodeMerge_arenaFull (hN : s.eng.nodeCount.toNat = 511) :
    exec .nodeMerge s = .next (s.complete (raised s.eng .arenaFull)) := by
  have hne' : s.arg0L ≠ s.arg1L := fun heq => hne (congrArg BitVec.toNat heq)
  simp [exec, execNodeMerge, Engine.cmdNodeMerge, (s.eng.allocated_iff _).2 ha, (s.eng.allocated_iff _).2 hb,
    (s.eng.isLoose_iff _).2 hla, (s.eng.isLoose_iff _).2 hlb, hne', hN]

variable (hN : s.eng.nodeCount.toNat < 511)
include hN

theorem exec_nodeMerge_overflow (hw : 0xFFFFFFFF < s.eng.weightAt s.arg0L.toNat + s.eng.weightAt s.arg1L.toNat) :
    exec .nodeMerge s = .next (s.complete (raised s.eng .weightOverflow)) := by
  have hne' : s.arg0L ≠ s.arg1L := fun heq => hne (congrArg BitVec.toNat heq)
  have hsum := mergedWeight_nodeOperand s.eng (a := s.arg0L) (b := s.arg1L) (by omega) (by omega)
  rw [← hsum] at hw
  simp [exec, execNodeMerge, Engine.cmdNodeMerge, (s.eng.allocated_iff _).2 ha, (s.eng.allocated_iff _).2 hb,
    (s.eng.isLoose_iff _).2 hla, (s.eng.isLoose_iff _).2 hlb, hne', hN.ne, hw]

/-- NODE_MERGE of two LOOSE nodes, in terms of the operands themselves. -/
theorem exec_nodeMerge_ok (hw : s.eng.weightAt s.arg0L.toNat + s.eng.weightAt s.arg1L.toNat ≤ 0xFFFFFFFF) :
    exec .nodeMerge s =
      .next (s.complete (success (s.eng.mergeNodes (nodeOperand s.arg0L) (nodeOperand s.arg1L)) (idxWord s.eng.nextIdx)
        (natWord (s.eng.weightAt s.arg0L.toNat + s.eng.weightAt s.arg1L.toNat)))) := by
  have ha512 : s.arg0L.toNat < 512 := by omega
  have hb512 : s.arg1L.toNat < 512 := by omega
  have hsum := mergedWeight_nodeOperand s.eng ha512 hb512
  have hopa := nodeOperand_toNat ha512
  have hopb := nodeOperand_toNat hb512
  rw [← hsum] at hw ⊢
  exact execNodeMerge_ok _ _ (idxWord_nodeOperand ha512).symm (idxWord_nodeOperand hb512).symm (by rwa [hopa])
    (by rwa [hopb]) (nodeOperand_ne ha512 hb512 hne) (by rwa [hopa]) (by rwa [hopb]) hN hw

end

theorem idxWord_nextIdx (e : Engine) (h : e.nodeCount.toNat ≤ 511) :
    idxWord e.nextIdx = BitVec.ofNat 32 e.nodeCount.toNat := by
  apply BitVec.eq_of_toNat_eq
  rw [idxWord_toNat, e.nextIdx_toNat h, BitVec.toNat_ofNat]
  omega

/-- Settles O32: four checks in order, then merge_nodes of the operands. -/
theorem nodeMergeResult : Obligations.NodeMergeResult := by
  unfold Obligations.NodeMergeResult
  refine ⟨decode_encode .nodeMerge, fun s => ⟨exec_nodeMerge_badNode, exec_nodeMerge_notLoose,
    exec_nodeMerge_arenaFull, exec_nodeMerge_overflow, fun ha hb hne hla hlb hN hw => ?_⟩⟩
  have ha512 : s.arg0L.toNat < 512 := by omega
  have hb512 : s.arg1L.toNat < 512 := by omega
  have hopa := nodeOperand_toNat ha512
  have hopb := nodeOperand_toNat hb512
  refine ⟨s.eng.mergeNodes (nodeOperand s.arg0L) (nodeOperand s.arg1L), ?answer, rfl,
    s.eng.mergeNodes_nodeCount _ _ hN, fun j => ?node, fun j => ?own⟩
  case answer => rw [← idxWord_nextIdx s.eng hN.le]; exact exec_nodeMerge_ok ha hb hne hla hlb hN hw
  case node => rw [s.eng.mergeNodes_nodeAt _ _ hN, mergedWeight_nodeOperand s.eng ha512 hb512]; rfl
  case own => rw [s.eng.mergeNodes_ownAt _ _ hN (by rwa [hopa]) (by rwa [hopb]), hopa, hopb]

/-! ## SET_ROOT -/

theorem exec_setRoot_badNode {s : State} (h : s.eng.nodeCount.toNat ≤ s.arg0L.toNat) :
    exec .setRoot s = .next (s.complete (raised s.eng .badNode)) := by
  have halloc : s.eng.allocated s.arg0L = false := by
    rw [← Bool.not_eq_true, Engine.allocated_iff]; omega
  simp [exec, execSetRoot, Engine.cmdSetRoot, halloc]

section
variable {s : State} (hn : s.arg0L.toNat < s.eng.nodeCount.toNat)
include hn

theorem exec_setRoot_notLoose (hown : s.eng.ownAt s.arg0L.toNat ≠ .loose) :
    exec .setRoot s = .next (s.complete (raised s.eng .nodeNotLoose)) := by
  have hloose : s.eng.isLoose s.arg0L = false := by rwa [← Bool.not_eq_true, Engine.isLoose_iff]
  simp [exec, execSetRoot, Engine.cmdSetRoot, (s.eng.allocated_iff _).2 hn, hloose]

/-- SET_ROOT of a LOOSE node, in terms of the operand itself. -/
theorem exec_setRoot_ok (hown : s.eng.ownAt s.arg0L.toNat = .loose) (hcount : s.eng.nodeCount.toNat ≤ 511) :
    exec .setRoot s =
      .next (s.complete (success (s.eng.releaseRoot.selectRoot (nodeOperand s.arg0L)) s.arg0L
        (s.eng.nodeAt s.arg0L.toNat).weight)) := by
  have hidx : s.arg0L = idxWord (nodeOperand s.arg0L) := (idxWord_nodeOperand (by omega)).symm
  have hop : (nodeOperand s.arg0L).toNat = s.arg0L.toNat := nodeOperand_toNat (by omega)
  have hexec := execSetRoot_ok _ hidx (by rwa [hop]) (by rwa [hop])
  rwa [← hidx, hop] at hexec

end

theorem releaseRoot_of_noRoot {e : Engine} (h : e.rootValid = false) : e.releaseRoot = e := by
  simp [Engine.releaseRoot, h]

/-- The old root is LOOSE afterwards. Index 511 is no entry, and reads as LOOSE in any state (log 8). -/
theorem releaseRoot_ownAt_any (e : Engine) (j : Nat) :
    e.releaseRoot.ownAt j = if e.rootValid = true ∧ j = e.rootIdx.toNat then .loose else e.ownAt j := by
  by_cases hbound : e.rootIdx.toNat < 511
  · exact e.releaseRoot_ownAt hbound j
  · unfold Engine.releaseRoot
    split
    · next hvalid =>
      show tget (tset e.own e.rootIdx.toNat .loose) j .loose = _
      rw [tget_tset, if_neg fun hj => hbound hj.2]
      split
      · next hj => exact tget_out _ _ _ (by omega)
      · rfl
    · next hvalid => rw [if_neg fun hj => hvalid hj.1]

/-- The ownership SET_ROOT leaves: the new root ROOTED, the old one LOOSE. -/
theorem setRoot_ownAt (e : Engine) {n : NodeIdx} (h : n.toNat < 511) (j : Nat) :
    (e.releaseRoot.selectRoot n).ownAt j =
      if j = n.toNat then .rooted
      else if e.rootValid = true ∧ j = e.rootIdx.toNat then .loose else e.ownAt j := by
  rw [Engine.selectRoot_ownAt _ n h, releaseRoot_ownAt_any]

/-- Settles O34: two checks in order, then the old root is released and the operand selected. -/
theorem setRootResult : Obligations.SetRootResult := by
  unfold Obligations.SetRootResult
  refine ⟨decode_encode .setRoot, fun s => ⟨exec_setRoot_badNode, exec_setRoot_notLoose, fun hn hown hcount => ?_⟩⟩
  have hop : (nodeOperand s.arg0L).toNat = s.arg0L.toNat := nodeOperand_toNat (by omega)
  refine ⟨s.eng.releaseRoot.selectRoot (nodeOperand s.arg0L), exec_setRoot_ok hn hown hcount, ?frame, fun j => ?own⟩
  case frame => rw [releaseRoot_frame]; rfl
  case own => rw [setRoot_ownAt _ (by omega), hop]

/-! ## MERGE_STEP -/

theorem exec_mergeStep_error {s : State} {x : ErrCode} (h : s.eng.mergeStepBody = .error x) :
    exec .mergeStep s = .next (s.complete (raised s.eng x)) := by
  simp only [exec, execMergeStep, Engine.cmdMergeStep, h]

theorem mergeStepBody_queueEmpty {e : Engine} (h : e.heapSize.toNat < 2) : e.mergeStepBody = .error .queueEmpty := by
  rw [Engine.mergeStepBody, if_pos h]

section
variable {e : Engine} (h2 : 2 ≤ e.heapSize.toNat)
include h2

theorem mergeStepBody_arenaFull (hN : e.nodeCount.toNat = 511) : e.mergeStepBody = .error .arenaFull := by
  rw [Engine.mergeStepBody, if_neg h2.not_gt, if_pos hN]

variable (hN : e.nodeCount.toNat ≠ 511)
include hN

theorem mergeStepBody_overflow
    (hw : 0xFFFFFFFF < e.weightAt (e.heapAt 0).toNat + e.weightAt (e.heapExtract.2.heapAt 0).toNat) :
    e.mergeStepBody = .error .weightOverflow := by
  rw [Engine.mergeStepBody, if_neg h2.not_gt, if_neg hN]
  exact if_pos hw

theorem mergeStepBody_merges
    (hw : e.weightAt (e.heapAt 0).toNat + e.weightAt (e.heapExtract.2.heapAt 0).toNat ≤ 0xFFFFFFFF) :
    e.mergeStepBody =
      .ok (e.nextIdx,
        (e.heapExtract.2.heapExtract.2.mergeNodes (e.heapAt 0) (e.heapExtract.2.heapAt 0)).heapInsert e.nextIdx) := by
  rw [Engine.mergeStepBody, if_neg h2.not_gt, if_neg hN]
  exact if_neg hw.not_gt

end

theorem Parts.heapExtract {e : Engine} (p : Parts e) (h : 0 < e.heapSize.toNat) : Parts e.heapExtract.2 := by
  obtain ⟨harena, hqueue, hroot⟩ := heapExtract_keeps p.arena p.queue p.root h
  exact ⟨harena, hqueue, hroot⟩

/-- The two nodes that MERGE_STEP extracts from `e`, `a` and then `b`, stand in `e2`, the state between its
extractions and its merge, as the operands NODE_MERGE asks for. -/
structure MergeOperands (e e2 : Engine) (a b : NodeIdx) : Prop where
  parts : Parts e2
  left : a.toNat < e2.nodeCount.toNat
  right : b.toNat < e2.nodeCount.toNat
  distinct : a ≠ b
  leftLoose : e2.ownAt a.toNat = .loose
  rightLoose : e2.ownAt b.toNat = .loose
  lighterFirst : e.weightAt a.toNat ≤ e.weightAt b.toNat

theorem Parts.mergeOperands {e : Engine} (p : Parts e) (h2 : 2 ≤ e.heapSize.toNat) :
    MergeOperands e e.heapExtract.2.heapExtract.2 (e.heapAt 0) (e.heapExtract.2.heapAt 0) := by
  have hsize := e.heapExtract_heapSize
  have p1 := p.heapExtract (by omega)
  have hb : e.heapExtract.2.heapAt 0 ∈ e.heapExtract.2.queue := by
    rw [Engine.queue_eq]; exact hget_mem (by omega)
  have hless : e.less (e.heapAt 0) (e.heapExtract.2.heapAt 0) = true :=
    p.queue.heapAt_zero_lt_rest (by omega) (heapSize_le_256 p.arena p.queue) hb
  have hne : e.heapAt 0 ≠ e.heapExtract.2.heapAt 0 := fun heq => by
    rw [← heq, e.less_strictOrder.irrefl] at hless
    cases hless
  obtain ⟨hleft, -⟩ := p.queue.first (by omega)
  obtain ⟨hright, -⟩ := p1.queue.first (by omega)
  refine ⟨p1.heapExtract (by omega), hleft, hright, hne, ?leftLoose, ?rightLoose, ?lighter⟩
  case leftLoose =>
    rw [heapExtract_ownAt_any, if_neg fun heq => hne (BitVec.eq_of_toNat_eq heq), heapExtract_ownAt_any, if_pos rfl]
  case rightLoose => rw [heapExtract_ownAt_any, if_pos rfl]
  case lighter => rw [Engine.less_iff] at hless; omega

/-- MERGE_STEP under the structural invariants is four single commands in a row, none of which fails. -/
theorem mergeStep_four_commands {s : State} (p : Parts s.eng) (h2 : 2 ≤ s.eng.heapSize.toNat) :
    ∃ s1 s2 s3 s4,
      exec .pqExtract s = .next s1 ∧ exec .pqExtract s1 = .next s2 ∧
        exec .nodeMerge { s2 with arg0L := s1.res0, arg1L := s2.res0 } = .next s3 ∧ s3.err = 0#4 ∧
        exec .pqInsert { s3 with arg0L := s3.res0 } = .next s4 ∧ s4.err = 0#4 ∧
        exec .mergeStep s = .next (s.complete ⟨s4.eng, .ok, s3.res0, s3.res1⟩) ∧ s1.res1.toNat ≤ s2.res1.toNat := by
  have hsize := s.eng.heapExtract_heapSize
  have hsize2 := s.eng.heapExtract.2.heapExtract_heapSize
  have h256 := heapSize_le_256 p.arena p.queue
  obtain ⟨p2, hleft, hright, hne, hleftLoose, hrightLoose, hlighter⟩ := p.mergeOperands h2
  obtain ⟨hN, hw, -⟩ := mergeNodes_keeps p2.arena p2.queue p2.root hleft hright hne hleftLoose hrightLoose
  have hidx := s.eng.heapExtract.2.heapExtract.2.nextIdx_toNat hN.le
  have hcount := Engine.mergeNodes_nodeCount _ (s.eng.heapAt 0) (s.eng.heapExtract.2.heapAt 0) hN
  have hnode := Engine.mergeNodes_nodeAt _ (s.eng.heapAt 0) (s.eng.heapExtract.2.heapAt 0) hN
  have hown := Engine.mergeNodes_ownAt _ (s.eng.heapAt 0) (s.eng.heapExtract.2.heapAt 0) hN hleft hright
  refine ⟨_, _, _, _, execPqExtract_ok (by omega), execPqExtract_ok (hsize.symm ▸ by omega),
    execNodeMerge_ok _ _ rfl rfl hleft hright hne hleftLoose hrightLoose hN hw, rfl,
    execPqInsert_ok _ rfl ?allocated ?loose ?room, rfl, ?answer, hlighter⟩
  case allocated => exact hidx.trans_lt (hcount.symm ▸ Nat.lt_succ_self _)
  case loose => exact (congrArg _ hidx).trans ((hown _).trans (if_pos rfl))
  case room => exact (show s.eng.heapExtract.2.heapExtract.2.heapSize.toNat < 256 by omega)
  case answer =>
    rw [execMergeStep_ok (mergeStepBody_merges h2 hN.ne hw), Engine.heapInsert_nodeAt]
    have hnew := (hnode _).trans (if_pos hidx)
    rw [show s.eng.nextIdx = s.eng.heapExtract.2.heapExtract.2.nextIdx from rfl, hnew]
    rfl

/-- Settles O33: three checks in order; under the invariants the four single commands. -/
theorem mergeStepIsItsParts : Obligations.MergeStepIsItsParts := by
  unfold Obligations.MergeStepIsItsParts
  refine ⟨decode_encode .mergeStep, fun s => ⟨?queueEmpty, ?arenaFull, ?overflow, ?commands⟩⟩
  case queueEmpty => exact fun h => exec_mergeStep_error (mergeStepBody_queueEmpty h)
  case arenaFull => exact fun h2 hN => exec_mergeStep_error (mergeStepBody_arenaFull h2 hN)
  case overflow =>
    intro s1 s2 h2 hN hfirst hsecond hw
    have hsize := s.eng.heapExtract_heapSize
    obtain rfl := Host.Outcome.next.inj ((execPqExtract_ok (by omega)).symm.trans hfirst)
    obtain rfl := Host.Outcome.next.inj ((execPqExtract_ok (hsize.symm ▸ by omega)).symm.trans hsecond)
    exact exec_mergeStep_error (mergeStepBody_overflow h2 hN hw)
  case commands => exact fun hs h2 => mergeStep_four_commands hs.parts h2

/-! ## BUILD_TREE -/

theorem exec_buildTree_error {s : State} {x : ErrCode} (h : s.eng.buildTreeBody = .error x) :
    exec .buildTree s = .next (s.complete (raised s.eng x)) := by
  simp only [exec, execBuildTree, Engine.cmdBuildTree, h]

theorem exec_buildTree_ok {s : State} {e : Engine} (h : s.eng.buildTreeBody = .ok e) :
    exec .buildTree s = .next (s.complete (success e (idxWord e.rootIdx) (e.nodeAt e.rootIdx.toNat).weight)) := by
  simp only [exec, execBuildTree, Engine.cmdBuildTree, h]

theorem exec_buildTree_noSymbol {s : State} (h : s.eng.presentSyms = []) :
    exec .buildTree s = .next (s.complete (raised s.eng .invalidInput)) := by
  have hlen : s.eng.presentSyms.length = 0 := by rw [h, List.length_nil]
  exact exec_buildTree_error (by simp only [Engine.buildTreeBody, Engine.heapBuildBody, if_pos hlen])

theorem exec_buildTree_overflow {s : State} (h : s.eng.presentSyms ≠ []) (hT : 0xFFFFFFFF < s.eng.totalFreq) :
    exec .buildTree s = .next (s.complete (raised s.eng .weightOverflow)) := by
  have hlen : s.eng.presentSyms.length ≠ 0 := fun h0 => h (List.eq_nil_of_length_eq_zero h0)
  exact exec_buildTree_error (by simp only [Engine.buildTreeBody, Engine.heapBuildBody, if_neg hlen, if_pos hT])

/-- BUILD_TREE's loop is a run of MERGE_STEPs without error, which ends with one node queued. -/
theorem buildLoop_mergeRun (fuel : Nat) {s : State} (b : Building s.eng) (hfuel : s.eng.heapSize.toNat ≤ fuel) :
    ∃ t, MergeRun s t ∧ buildLoop fuel s.eng = .ok t.eng ∧ Building t.eng ∧ t.eng.heapSize.toNat = 1 := by
  induction fuel generalizing s with
  | zero => have := b.nonempty; omega
  | succ n ih =>
    unfold buildLoop
    by_cases h1 : 1 < s.eng.heapSize.toNat
    · obtain ⟨_, e, hbody, -⟩ := mergeStepBody_ok b.parts h1
      obtain ⟨b1, hsize⟩ := b.next h1 hbody
      obtain ⟨t, hrun, hloop, bt, ht⟩ := ih (s := s.complete (success e _ _)) b1 (show e.heapSize.toNat ≤ n by omega)
      rw [if_pos h1, hbody]
      exact ⟨t, .turn h1 (execMergeStep_ok hbody) rfl hrun, hloop, bt, ht⟩
    · rw [if_neg h1]
      have := b.nonempty
      exact ⟨s, .stop (by omega), rfl, b, by omega⟩

theorem buildTreeBody_of_loop {e f : Engine} (h0 : e.presentSyms.length ≠ 0) (hT : e.totalFreq ≤ 0xFFFFFFFF)
    (h : buildLoop e.heapBuilt.heapSize.toNat e.heapBuilt = .ok f) :
    e.buildTreeBody = .ok (f.heapExtract.2.selectRoot f.heapExtract.1) := by
  simp only [Engine.buildTreeBody, Engine.heapBuildBody, if_neg h0, if_neg hT.not_gt, h]

/-- BUILD_TREE is HEAP_BUILD, a run of MERGE_STEPs, PQ_EXTRACT and SET_ROOT, none of which fails. The loop leaves no
root selected, so SET_ROOT releases none. -/
theorem buildTree_run {s : State} (h0 : s.eng.presentSyms ≠ []) (hT : s.eng.totalFreq ≤ 0xFFFFFFFF) :
    ∃ s1 s2 s3 s4,
      exec .heapBuild s = .next s1 ∧ MergeRun s1 s2 ∧ exec .pqExtract s2 = .next s3 ∧ s3.err = 0#4 ∧
        exec .setRoot { s3 with arg0L := s3.res0 } = .next s4 ∧ s4.err = 0#4 ∧
        s.eng.buildTreeBody = .ok s4.eng ∧ s3.res0 = idxWord s4.eng.rootIdx ∧
        s3.res1 = (s4.eng.nodeAt s4.eng.rootIdx.toNat).weight := by
  have hlen : s.eng.presentSyms.length ≠ 0 := fun h => h0 (List.eq_nil_of_length_eq_zero h)
  obtain ⟨s2, hrun, hloop, b2, hone⟩ := buildLoop_mergeRun s.eng.heapBuilt.heapSize.toNat
    (s := s.complete (success s.eng.heapBuilt _ _)) (heapBuilt_building s.eng hlen hT) le_rfl
  obtain ⟨hfirst, -⟩ := b2.parts.queue.first (by omega)
  have hloose : s2.eng.heapExtract.2.ownAt (s2.eng.heapAt 0).toNat = .loose := by
    rw [heapExtract_ownAt_any, if_pos rfl]
  have hrel : s2.eng.heapExtract.2.releaseRoot = s2.eng.heapExtract.2 := releaseRoot_of_noRoot b2.noRoot
  have hnode : ∀ i, s2.eng.heapExtract.2.releaseRoot.nodeAt i = s2.eng.nodeAt i := fun i => by
    rw [hrel, Engine.heapExtract_nodeAt]
  refine ⟨_, s2, _, _, execHeapBuild_ok h0 hT, hrun, execPqExtract_ok (by omega), rfl,
    execSetRoot_ok _ rfl hfirst hloose, rfl, ?body, rfl, ?weight⟩
  case body =>
    exact (buildTreeBody_of_loop hlen hT hloop).trans
      (congrArg (fun e : Engine => Except.ok (e.selectRoot (s2.eng.heapAt 0))) hrel.symm)
  case weight => exact congrArg Node.weight (hnode _).symm

/-- Settles O35: two checks in order, then the run of single commands. -/
theorem buildTreeIsItsParts : Obligations.BuildTreeIsItsParts := by
  unfold Obligations.BuildTreeIsItsParts
  refine ⟨decode_encode .buildTree, fun s => ⟨exec_buildTree_noSymbol, exec_buildTree_overflow, fun h0 hT => ?_⟩⟩
  obtain ⟨s1, s2, s3, s4, hheap, hrun, hextract, herr3, hroot, herr4, hbody, hres0, hres1⟩ := buildTree_run h0 hT
  obtain ⟨e, he, -, -, -, -, -, -, hweight, -, -, -, hct, -⟩ := buildTreeBody_ok s.eng (by simpa using h0) hT
  obtain rfl : e = s4.eng := Except.ok.inj (he.symm.trans hbody)
  refine ⟨s1, s2, s3, s4, hheap, hrun, hextract, herr3, hroot, herr4, ?answer, ?weight, hct⟩
  case answer => rw [hres0, hres1]; exact exec_buildTree_ok hbody
  case weight => rw [hres1]; exact hweight

/-! ## What BUILD_TREE leaves -/

/-- A BUILD_TREE without error found symbols and a total weight that fits. -/
theorem exec_buildTree_checks {s t : State} (h : exec .buildTree s = .next t) (herr : t.err = 0#4) :
    s.eng.presentSyms ≠ [] ∧ s.eng.totalFreq ≤ 0xFFFFFFFF := by
  obtain ⟨-, hbody⟩ | ⟨-, -, hbody⟩ | hok := buildTreeBody_cases s.eng
  · obtain rfl := Host.Outcome.next.inj ((exec_buildTree_error hbody).symm.trans h)
    cases herr
  · obtain rfl := Host.Outcome.next.inj ((exec_buildTree_error hbody).symm.trans h)
    cases herr
  · exact hok

/-- The weights of HEAP_BUILD's leaves, wherever these stand unchanged, add up to the total of FREQ. -/
theorem weightSum_leaves {e f : Engine} (hleaf : ∀ i, i < e.presentSyms.length →
    f.nodeAt i = e.leafOf (e.presentSyms.getD i 0)) :
    f.weightSum e.presentSyms.length (fun _ => true) = e.totalFreq := by
  rw [← heapBuilt_weight e, e.heapBuilt_counts.2.1, Engine.weightSum_eq, Engine.weightSum_eq]
  refine Finset.sum_congr rfl fun i hi => ?_
  have hi := Finset.mem_range.1 hi
  rw [Engine.weightAt, Engine.weightAt, hleaf i hi, e.heapBuilt_nodeAt i hi]

/-- Settles O51: the state that BUILD_TREE's body leaves, and that two bodies with the same FREQ agree on it. -/
theorem buildTreeConsequences : Obligations.BuildTreeConsequences := by
  unfold Obligations.BuildTreeConsequences
  intro s t hexec herr
  obtain ⟨h0, hT⟩ := exec_buildTree_checks hexec herr
  have hlen : s.eng.presentSyms.length ≠ 0 := fun h => h0 (List.eq_nil_of_length_eq_zero h)
  obtain ⟨e, hbody, -, hcount, hleafCount, hsize, hvalid, hidx, hweight, hown, hleaf, -⟩ :=
    buildTreeBody_ok s.eng hlen hT
  obtain rfl := Host.Outcome.next.inj ((exec_buildTree_ok hbody).symm.trans hexec)
  refine ⟨⟨hcount, hleafCount, hsize, hvalid, ?root, hown, hweight, ?leaves⟩, fun s' hfreq => ?sameFreq⟩
  case root =>
    refine hidx.trans ?_
    split <;> omega
  case leaves => exact (congrArg (e.weightSum · _) hleafCount).trans (weightSum_leaves hleaf)
  case sameFreq =>
    obtain ⟨f, f', hf, hf', hrootIdx, hrootValid, hagree, hsize'⟩ := buildTree_agree hfreq hlen hT
    obtain rfl : f = e := Except.ok.inj (hf.symm.trans hbody)
    have hroot : f.rootIdx.toNat < f.nodeCount.toNat := by omega
    have hnode : f'.nodeAt f'.rootIdx.toNat = f.nodeAt f.rootIdx.toNat := by rw [hrootIdx, hagree.node _ hroot]
    exact ⟨_, exec_buildTree_ok hf', congrArg idxWord hrootIdx, congrArg Node.weight hnode, rfl, hagree.count,
      hagree.leaf, hsize', hrootValid, hrootIdx, fun i hi => ⟨hagree.node i hi, hagree.own i hi⟩⟩

/-! ## What the commands can end with under the structural invariants -/

theorem filter_length_lt {n a : Nat} {p q : Nat → Bool} (ha : a < n) (hle : ∀ i, i < n → p i = true → q i = true)
    (hp : p a = false) (hq : q a = true) :
    ((List.range n).filter p).length < ((List.range n).filter q).length := by
  rw [filter_length_eq_sum, filter_length_eq_sum]
  refine Finset.sum_lt_sum (fun i hi => ?_) ⟨a, Finset.mem_range.2 ha, by simp [hp, hq]⟩
  have hi := hle i (Finset.mem_range.1 hi)
  cases hpi : p i with
  | false => simp
  | true => simp [hi hpi]

/-- A LOOSE node is top-level and not queued, so there is room in the queue (42_tree_builder.md R157). -/
theorem Parts.heapSize_lt_of_loose {e : Engine} (p : Parts e) {n : Nat} (hn : n < e.nodeCount.toNat)
    (hloose : e.ownAt n = .loose) : e.heapSize.toNat < 256 := by
  have hlt := filter_length_lt hn (p := fun i => decide (e.ownAt i = .queued)) (q := e.topLevel)
    (fun i _ hi => by simp [Engine.topLevel, of_decide_eq_true hi]) (by simp [hloose])
    (by simp [Engine.topLevel, hloose])
  rw [← p.queue.count p.arena.nodeBound] at hlt
  have htop := p.arena.topCount
  have hleaf := p.arena.leafLe
  have hbound := p.arena.leafBound
  omega

section
variable {s t : State} (p : Parts s.eng)
include p

/-- PQ_INSERT under the structural invariants: a rejected operand, or heap_insert of a LOOSE one. -/
theorem exec_pqInsert_next (h : exec .pqInsert s = .next t) :
    (∃ x, t = s.complete (raised s.eng x) ∧ (x = .badNode ∨ x = .nodeNotLoose)) ∨
      s.arg0L.toNat < s.eng.nodeCount.toNat ∧ s.eng.ownAt s.arg0L.toNat = .loose ∧
        t = s.complete (success (s.eng.heapInsert (nodeOperand s.arg0L)) s.arg0L
          (s.eng.nodeAt s.arg0L.toNat).weight) := by
  by_cases hn : s.arg0L.toNat < s.eng.nodeCount.toNat
  · by_cases hown : s.eng.ownAt s.arg0L.toNat = .loose
    · have hok := exec_pqInsert_ok hn hown (p.heapSize_lt_of_loose hn hown) p.arena.nodeBound
      exact .inr ⟨hn, hown, Host.Outcome.next.inj (h.symm.trans hok)⟩
    · exact .inl ⟨_, Host.Outcome.next.inj (h.symm.trans (exec_pqInsert_notLoose hn hown)), .inr rfl⟩
  · exact .inl ⟨_, Host.Outcome.next.inj (h.symm.trans (exec_pqInsert_badNode (Nat.le_of_not_lt hn))), .inl rfl⟩

/-- NODE_MERGE under the structural invariants: rejected operands, or merge_nodes of two LOOSE ones. -/
theorem exec_nodeMerge_next (h : exec .nodeMerge s = .next t) :
    (∃ x, t = s.complete (raised s.eng x) ∧ (x = .badNode ∨ x = .nodeNotLoose)) ∨
      (s.arg0L.toNat < s.eng.nodeCount.toNat ∧ s.arg1L.toNat < s.eng.nodeCount.toNat ∧
        s.eng.nodeCount.toNat < 511 ∧ s.eng.ownAt s.arg0L.toNat = .loose ∧ s.eng.ownAt s.arg1L.toNat = .loose ∧
        t = s.complete (success (s.eng.mergeNodes (nodeOperand s.arg0L) (nodeOperand s.arg1L)) (idxWord s.eng.nextIdx)
          (natWord (s.eng.weightAt s.arg0L.toNat + s.eng.weightAt s.arg1L.toNat)))) := by
  by_cases halloc : s.eng.nodeCount.toNat ≤ s.arg0L.toNat ∨ s.eng.nodeCount.toNat ≤ s.arg1L.toNat
  · exact .inl ⟨_, Host.Outcome.next.inj (h.symm.trans (exec_nodeMerge_badNode halloc)), .inl rfl⟩
  obtain ⟨ha, hb⟩ : s.arg0L.toNat < s.eng.nodeCount.toNat ∧ s.arg1L.toNat < s.eng.nodeCount.toNat := by omega
  by_cases hcheck :
      s.arg0L.toNat = s.arg1L.toNat ∨ s.eng.ownAt s.arg0L.toNat ≠ .loose ∨ s.eng.ownAt s.arg1L.toNat ≠ .loose
  · exact .inl ⟨_, Host.Outcome.next.inj (h.symm.trans (exec_nodeMerge_notLoose ha hb hcheck)), .inr rfl⟩
  obtain ⟨hne, hla, hlb⟩ : s.arg0L.toNat ≠ s.arg1L.toNat ∧ s.eng.ownAt s.arg0L.toNat = .loose ∧
      s.eng.ownAt s.arg1L.toNat = .loose := by
    simpa only [not_or, not_not] using hcheck
  have h511 := p.arena.nodeBound
  have hopa : (nodeOperand s.arg0L).toNat = s.arg0L.toNat := nodeOperand_toNat (by omega)
  have hopb : (nodeOperand s.arg1L).toNat = s.arg1L.toNat := nodeOperand_toNat (by omega)
  obtain ⟨hN, hw, -⟩ := mergeNodes_keeps p.arena p.queue p.root (a := nodeOperand s.arg0L) (b := nodeOperand s.arg1L)
    (by rwa [hopa]) (by rwa [hopb]) (nodeOperand_ne (by omega) (by omega) hne) (by rwa [hopa]) (by rwa [hopb])
  rw [mergedWeight_nodeOperand s.eng (by omega) (by omega)] at hw
  exact .inr ⟨ha, hb, hN, hla, hlb, Host.Outcome.next.inj (h.symm.trans (exec_nodeMerge_ok ha hb hne hla hlb hN hw))⟩

/-- MERGE_STEP under the structural invariants: too few queued nodes, or its body. -/
theorem exec_mergeStep_next (h : exec .mergeStep s = .next t) :
    t = s.complete (raised s.eng .queueEmpty) ∨
      (2 ≤ s.eng.heapSize.toNat ∧ ∃ n e, s.eng.mergeStepBody = .ok (n, e) ∧
        t = s.complete (success e (idxWord n) (e.nodeAt n.toNat).weight)) := by
  obtain h2 | h2 := Nat.lt_or_ge s.eng.heapSize.toNat 2
  · exact .inl (Host.Outcome.next.inj (h.symm.trans (exec_mergeStep_error (mergeStepBody_queueEmpty h2))))
  · obtain ⟨b, e, hbody, -⟩ := mergeStepBody_ok p h2
    exact .inr ⟨h2, _, e, hbody, Host.Outcome.next.inj (h.symm.trans (execMergeStep_ok hbody))⟩

end

/-- Settles O50, by what each of the three commands can end with. -/
theorem unreachableChecks : Obligations.UnreachableChecks := by
  unfold Obligations.UnreachableChecks
  intro s t hs
  refine ⟨fun h => ?insert, ?merge⟩
  case insert =>
    obtain ⟨x, rfl, rfl | rfl⟩ | ⟨-, -, rfl⟩ := exec_pqInsert_next hs.parts h
    · simp [raised, errNumber]
    · simp [raised, errNumber]
    · simp [success, errNumber]
  case merge =>
    rintro (h | h)
    · obtain ⟨x, rfl, rfl | rfl⟩ | ⟨-, -, -, -, -, rfl⟩ := exec_nodeMerge_next hs.parts h
      · simp [raised, errNumber]
      · simp [raised, errNumber]
      · simp [success, errNumber]
    · obtain rfl | ⟨-, n, e, -, rfl⟩ := exec_mergeStep_next hs.parts h
      · simp [raised, errNumber]
      · simp [success, errNumber]

/-! ## The table of ownership transitions -/

/-- R150's transitions of an allocated node `j`, command by command: the ownership before, and after. -/
inductive OwnMove (s : State) (j : Nat) : Instr → Own → Own → Prop where
  | inserted : j = s.arg0L.toNat → OwnMove s j .pqInsert .loose .queued
  | extracted : j = (s.eng.heapAt 0).toNat → OwnMove s j .pqExtract .queued .loose
  | merged : j = s.arg0L.toNat ∨ j = s.arg1L.toNat → OwnMove s j .nodeMerge .loose .child
  | mergedFromQueue : OwnMove s j .mergeStep .queued .child
  | selected : j = s.arg0L.toNat → OwnMove s j .setRoot .loose .rooted
  | released : j = s.eng.rootIdx.toNat → OwnMove s j .setRoot .rooted .loose

theorem OwnMove.not_from_child {s : State} {j : Nat} {i : Instr} {o o' : Own} (h : OwnMove s j i o o') :
    o ≠ .child := by
  cases h <;> simp

/-- The table as the list of its rows. -/
theorem OwnMove.row {s : State} {j : Nat} {i : Instr} {o o' : Own} (h : OwnMove s j i o o') :
    (i = .pqInsert ∧ j = s.arg0L.toNat ∧ o = .loose ∧ o' = .queued) ∨
      (i = .pqExtract ∧ j = (s.eng.heapAt 0).toNat ∧ o = .queued ∧ o' = .loose) ∨
      (i = .nodeMerge ∧ (j = s.arg0L.toNat ∨ j = s.arg1L.toNat) ∧ o = .loose ∧ o' = .child) ∨
      (i = .mergeStep ∧ o = .queued ∧ o' = .child) ∨
      (i = .setRoot ∧ j = s.arg0L.toNat ∧ o = .loose ∧ o' = .rooted) ∨
      (i = .setRoot ∧ j = s.eng.rootIdx.toNat ∧ o = .rooted ∧ o' = .loose) := by
  cases h <;> simp_all

/-- The nodes allocated in `s` stand in `e` with their contents, and their ownership as before or moved along
R150's table by the command `i`. -/
structure KeepsNodes (i : Instr) (s : State) (e : Engine) : Prop where
  allocated : s.eng.nodeCount.toNat ≤ e.nodeCount.toNat
  contents : ∀ j, j < s.eng.nodeCount.toNat → e.nodeAt j = s.eng.nodeAt j
  ownership : ∀ j, j < s.eng.nodeCount.toNat → e.ownAt j = s.eng.ownAt j ∨ OwnMove s j i (s.eng.ownAt j) (e.ownAt j)

theorem KeepsNodes.of_same {i : Instr} {s : State} {e : Engine} (hcount : e.nodeCount = s.eng.nodeCount)
    (hnode : e.node = s.eng.node) (hown : e.own = s.eng.own) : KeepsNodes i s e :=
  ⟨by rw [hcount], fun _ _ => by rw [Engine.nodeAt, hnode]; rfl, fun _ _ => .inl (by rw [Engine.ownAt, hown]; rfl)⟩

section
variable {s t : State} (p : Parts s.eng)
include p

theorem exec_pqInsert_keepsNodes (h : exec .pqInsert s = .next t) : KeepsNodes .pqInsert s t.eng := by
  obtain ⟨x, rfl, -⟩ | ⟨hn, hloose, rfl⟩ := exec_pqInsert_next p h
  · exact .of_same rfl rfl rfl
  · have h511 := p.arena.nodeBound
    have hop : (nodeOperand s.arg0L).toNat = s.arg0L.toNat := nodeOperand_toNat (by omega)
    refine ⟨le_rfl, fun _ _ => rfl, fun j hj => ?_⟩
    rw [State.complete_eng, success, Engine.heapInsert_ownAt, hop]
    split
    · next hj => rw [hj.1, hloose]; exact .inr (.inserted rfl)
    · exact .inl rfl

theorem exec_pqExtract_keepsNodes (h : exec .pqExtract s = .next t) : KeepsNodes .pqExtract s t.eng := by
  obtain h0 | h0 := Nat.eq_zero_or_pos s.eng.heapSize.toNat
  · obtain rfl := Host.Outcome.next.inj ((exec_pqExtract_empty h0).symm.trans h)
    exact .of_same rfl rfl rfl
  · obtain rfl := Host.Outcome.next.inj ((execPqExtract_ok h0).symm.trans h)
    obtain ⟨-, hqueued⟩ := p.queue.first h0
    refine ⟨le_rfl, fun _ _ => rfl, fun j hj => ?_⟩
    rw [State.complete_eng, success, heapExtract_ownAt_any]
    split
    · next hj => rw [hj, hqueued]; exact .inr (.extracted rfl)
    · exact .inl rfl

theorem exec_nodeMerge_keepsNodes (h : exec .nodeMerge s = .next t) : KeepsNodes .nodeMerge s t.eng := by
  obtain ⟨x, rfl, -⟩ | ⟨ha, hb, hN, hla, hlb, rfl⟩ := exec_nodeMerge_next p h
  · exact .of_same rfl rfl rfl
  · have hopa : (nodeOperand s.arg0L).toNat = s.arg0L.toNat := nodeOperand_toNat (by omega)
    have hopb : (nodeOperand s.arg1L).toNat = s.arg1L.toNat := nodeOperand_toNat (by omega)
    refine ⟨?count, fun j hj => ?node, fun j hj => ?own⟩
    case count => rw [State.complete_eng, success, Engine.mergeNodes_nodeCount _ _ _ hN]; exact Nat.le_succ _
    case node => rw [State.complete_eng, success, Engine.mergeNodes_nodeAt _ _ _ hN, if_neg hj.ne]
    case own =>
      rw [State.complete_eng, success, Engine.mergeNodes_ownAt _ _ _ hN (by rwa [hopa]) (by rwa [hopb]), if_neg hj.ne,
        hopa, hopb]
      split
      · next hab =>
        have hloose : s.eng.ownAt j = .loose := by
          obtain rfl | rfl := hab
          · exact hla
          · exact hlb
        rw [hloose]
        exact .inr (.merged hab)
      · exact .inl rfl

theorem exec_mergeStep_keepsNodes (h : exec .mergeStep s = .next t) : KeepsNodes .mergeStep s t.eng := by
  obtain rfl | ⟨h2, n, e, hbody, rfl⟩ := exec_mergeStep_next p h
  · exact .of_same rfl rfl rfl
  · obtain ⟨b, e', hbody', -, hb, -, -, -, -, hcount, -, -, -, hnode, -, -, hown, -⟩ := mergeStepBody_ok p h2
    obtain ⟨-, rfl⟩ := Prod.mk.inj (Except.ok.inj (hbody'.symm.trans hbody))
    obtain ⟨-, hfirst⟩ := p.queue.first (by omega)
    obtain ⟨-, hsecond⟩ := (p.queue.mem b).1 hb
    refine ⟨hcount.symm ▸ Nat.le_succ _, hnode, fun j hj => ?_⟩
    rw [State.complete_eng, success, hown j (by omega), if_neg hj.ne]
    split
    · next hab =>
      have hqueued : s.eng.ownAt j = .queued := by
        obtain rfl | rfl := hab
        · exact hfirst
        · exact hsecond
      rw [hqueued]
      exact .inr .mergedFromQueue
    · exact .inl rfl

theorem exec_setRoot_keepsNodes (h : exec .setRoot s = .next t) : KeepsNodes .setRoot s t.eng := by
  by_cases hn : s.arg0L.toNat < s.eng.nodeCount.toNat
  · by_cases hloose : s.eng.ownAt s.arg0L.toNat = .loose
    · obtain rfl := Host.Outcome.next.inj ((exec_setRoot_ok hn hloose p.arena.nodeBound).symm.trans h)
      have h511 := p.arena.nodeBound
      have hop : (nodeOperand s.arg0L).toNat = s.arg0L.toNat := nodeOperand_toNat (by omega)
      obtain ⟨hnode, hcount, -⟩ := s.eng.releaseRoot_rest
      refine ⟨?count, fun j hj => ?node, fun j hj => ?own⟩
      case count => exact (congrArg BitVec.toNat hcount).ge
      case node => exact congrArg (tget · j Node.blank) hnode
      case own =>
        rw [State.complete_eng, success, setRoot_ownAt _ (by omega), hop]
        split
        · next hj => rw [hj, hloose]; exact .inr (.selected rfl)
        · split
          · next hj => rw [hj.2, (p.root.valid hj.1).2]; exact .inr (.released rfl)
          · exact .inl rfl
    · obtain rfl := Host.Outcome.next.inj ((exec_setRoot_notLoose hn hloose).symm.trans h)
      exact .of_same rfl rfl rfl
  · obtain rfl := Host.Outcome.next.inj ((exec_setRoot_badNode (Nat.le_of_not_lt hn)).symm.trans h)
    exact .of_same rfl rfl rfl

/-- Every command but CLEAR, HEAP_BUILD and BUILD_TREE keeps the allocated nodes. -/
theorem exec_keepsNodes {i : Instr} (h : exec i s = .next t) (hclear : i ≠ .clear) (hheap : i ≠ .heapBuild)
    (hbuild : i ≠ .buildTree) : KeepsNodes i s t.eng := by
  cases i with
  | nop => obtain rfl := Host.Outcome.next.inj h; exact .of_same rfl rfl rfl
  | clear => exact absurd rfl hclear
  | heapBuild => exact absurd rfl hheap
  | pqInsert => exact exec_pqInsert_keepsNodes p h
  | pqExtract => exact exec_pqExtract_keepsNodes p h
  | pqPeek =>
    obtain rfl := Host.Outcome.next.inj h
    rw [State.complete_eng, cmdPqPeek_eng]
    exact .of_same rfl rfl rfl
  | nodeMerge => exact exec_nodeMerge_keepsNodes p h
  | mergeStep => exact exec_mergeStep_keepsNodes p h
  | setRoot => exact exec_setRoot_keepsNodes p h
  | buildTree => exact absurd rfl hbuild
  | genCodes => rw [execGenCodes_frame h]; exact .of_same rfl rfl rfl
  | ctClear => obtain rfl := Host.Outcome.next.inj h; exact .of_same rfl rfl rfl
  | encode A =>
    have hsame := execEncode_same h
    exact .of_same hsame.nodeCount hsame.node hsame.own

end

/-- Settles O59: a CHILD stays CHILD since no row of the table starts there. -/
theorem ownershipTransitions : Obligations.OwnershipTransitions := by
  unfold Obligations.OwnershipTransitions
  intro i s t j hs hexec hclear hheap hbuild hj
  obtain ⟨hcount, hnode, hown⟩ := exec_keepsNodes hs.parts hexec hclear hheap hbuild
  refine ⟨hj.trans_le hcount, hnode j hj, fun hchild => ?child, fun hmoved => ?moved⟩
  case child =>
    obtain hsame | hmove := hown j hj
    · exact hsame.trans hchild
    · exact absurd hchild hmove.not_from_child
  case moved => exact ((hown j hj).resolve_left hmoved).row

end Sys2Proof.Machine
end

section
/-! PROOFS. 43_code_table.md R180-R185: the code table. `store_code` is read back bit by bit; GEN_CODES leaves a table
of exactly the codes of the tree at ROOT (`TableOf`), from which R185's consequences and the decoder's round trip are
read off the tree. -/

namespace Sys2Proof.Machine

/-! ## One entry -/

theorem codeEntry_valid (c : List Bool) : (codeEntry c).valid = true := rfl

theorem ctEntry_code_getD (t : CtEntry) {j : Nat} (h : j < t.len.toNat) : t.code.getD j false = t.codebit j := by
  rw [List.getD_eq_getElem _ _ (by rwa [CtEntry.length_code])]
  simp [CtEntry.code]

/-- Settles O46: the entry is `codeEntry`, whose bits are the code's, with zeros above. -/
theorem storeCodeReadsBack : Obligations.StoreCodeReadsBack := by
  unfold Obligations.StoreCodeReadsBack
  intro e x c hc
  have hentry : (e.storeCode x c).ctAt x.toNat = codeEntry c := by rw [Engine.storeCode_ctAt, if_pos rfl]
  rw [hentry]
  refine ⟨codeEntry_valid c, codeEntry_len hc, codeEntry_code c hc, ?bits, ?others, ?anyEntry⟩
  case bits => exact fun j _ => codeEntry_codebit c hc j
  case others =>
    intro y hy
    rw [Engine.storeCode_ctAt, if_neg hy]
  case anyEntry => exact fun t j => ctEntry_code_getD t

/-! ## CT_CLEAR -/

theorem ctCleared_ctAt (e : Engine) (x : Nat) : e.ctCleared.ctAt x = CtEntry.blank := tget_replicate _ _ _

/-- Settles O37, with the engine whose CT is cleared as the one that CT_CLEAR answers. -/
theorem ctClearResult : Obligations.CtClearResult := by
  unfold Obligations.CtClearResult
  exact ⟨decode_encode .ctClear, fun s => ⟨s.eng.ctCleared, rfl, rfl, fun x => ctCleared_ctAt s.eng x.toNat⟩⟩

/-! ## A table of given codes -/

/-- The code table of `e` holds exactly the codes `cs`, of distinct symbols and each short enough for an entry. -/
structure TableOf (e : Engine) (cs : List (Byte × List Bool)) : Prop where
  distinct : (cs.map Prod.fst).Nodup
  fits : ∀ c ∈ cs, c.2.length ≤ 255
  entry : ∀ c ∈ cs, e.ctAt c.1.toNat = codeEntry c.2
  others : ∀ x : Byte, x ∉ cs.map Prod.fst → e.ctAt x.toNat = CtEntry.blank

/-- The symbols with a code, in order. -/
def Engine.validSyms (e : Engine) : List Nat := (List.range 256).filter fun x => (e.ctAt x).valid

theorem Engine.mem_validSyms {e : Engine} {x : Nat} : x ∈ e.validSyms ↔ x < 256 ∧ (e.ctAt x).valid = true := by
  rw [Engine.validSyms, List.mem_filter, List.mem_range]

theorem Engine.nodup_validSyms (e : Engine) : e.validSyms.Nodup := List.nodup_range.filter _

section
variable {e : Engine} {cs : List (Byte × List Bool)}

theorem TableOf.valid (h : TableOf e cs) {x : Byte} {c : List Bool} (hc : (x, c) ∈ cs) :
    (e.ctAt x.toNat).valid = true := by
  rw [h.entry _ hc]; exact codeEntry_valid c

theorem TableOf.code (h : TableOf e cs) {x : Byte} {c : List Bool} (hc : (x, c) ∈ cs) : (e.ctAt x.toNat).code = c := by
  rw [h.entry _ hc, codeEntry_code c (h.fits _ hc)]

theorem TableOf.len (h : TableOf e cs) {x : Byte} {c : List Bool} (hc : (x, c) ∈ cs) :
    (e.ctAt x.toNat).len.toNat = c.length := by
  rw [h.entry _ hc, codeEntry_len (h.fits _ hc)]

theorem TableOf.codebit (h : TableOf e cs) {x : Byte} {c : List Bool} (hc : (x, c) ∈ cs) (j : Nat) :
    (e.ctAt x.toNat).codebit j = c.getD j false := by
  rw [h.entry _ hc, codeEntry_codebit c (h.fits _ hc)]

/-- A symbol with an entry is one of the table's. -/
theorem TableOf.mem_of_valid (h : TableOf e cs) {x : Byte} (hx : (e.ctAt x.toNat).valid = true) :
    (x, (e.ctAt x.toNat).code) ∈ cs := by
  have hmem : x ∈ cs.map Prod.fst := by
    by_contra hne
    rw [h.others x hne] at hx
    cases hx
  obtain ⟨c, hc, rfl⟩ := List.mem_map.1 hmem
  rwa [h.code hc]

/-- Each code of the table has one valid entry, and there is no other. -/
theorem TableOf.validSyms_perm (h : TableOf e cs) : e.validSyms.Perm (cs.map fun c => c.1.toNat) := by
  have hdistinct : (cs.map fun c => c.1.toNat).Nodup := by
    have := h.distinct.map (f := BitVec.toNat) fun _ _ => BitVec.eq_of_toNat_eq
    rwa [List.map_map] at this
  refine (List.perm_ext_iff_of_nodup e.nodup_validSyms hdistinct).2 fun x => ?_
  rw [Engine.mem_validSyms, List.mem_map]
  constructor
  · rintro ⟨hx, hvalid⟩
    have hnum : (BitVec.ofNat 8 x).toNat = x := (BitVec.toNat_ofNat x 8).trans (Nat.mod_eq_of_lt hx)
    rw [← hnum] at hvalid
    exact ⟨_, h.mem_of_valid hvalid, hnum⟩
  · rintro ⟨c, hc, rfl⟩
    exact ⟨c.1.isLt, h.valid hc⟩

/-- A sum over the valid entries' lengths is the sum over the codes' lengths. -/
theorem TableOf.sum_validSyms (h : TableOf e cs) (f : Nat → Nat) :
    (e.validSyms.map fun x => f (e.ctAt x).len.toNat).sum = (cs.map fun c => f c.2.length).sum := by
  rw [(h.validSyms_perm.map _).sum_eq, List.map_map]
  congr 1
  exact List.map_congr_left fun c hc => congrArg f (h.len hc)

end

/-! ## GEN_CODES -/

theorem exec_genCodes_noTree {s : State} (h : s.eng.rootValid = false) :
    exec .genCodes s = .next (s.complete (raised s.eng .noTree)) := by
  simp [exec, execGenCodes, h]

theorem Engine.mem_symCodes {e : Engine} {tr : HTree} {c : Byte × List Bool} :
    c ∈ e.symCodes tr ↔ ∃ d ∈ tr.codes, ((e.nodeAt d.1).sym, d.2) = c := List.mem_map

theorem Engine.length_symCodes (e : Engine) (tr : HTree) : (e.symCodes tr).length = tr.leaves := by
  rw [Engine.symCodes, List.length_map, HTree.length_codes]

/-- GEN_CODES without an error leaves the table of the codes of the tree at ROOT. -/
theorem genCodes_tableOf {s t : State} {tr : HTree} (hs : StructInv s.eng) (h : exec .genCodes s = .next t)
    (herr : t.err = 0#4) (hholds : s.eng.Holds tr) (hidx : tr.idx = s.eng.rootIdx.toNat) :
    TableOf t.eng (s.eng.symCodes tr) := by
  obtain ⟨-, -, hdistinct, hentry, hothers, -, -⟩ := genCodes_table hs h herr hholds hidx
  exact ⟨hdistinct, fun c hc => (hentry c hc).2, fun c hc => (hentry c hc).1, hothers⟩

/-- A GEN_CODES without an error had a root, at which a tree stands. -/
theorem genCodes_tree {s t : State} (hs : StructInv s.eng) (h : exec .genCodes s = .next t) (herr : t.err = 0#4) :
    ∃ tr : HTree, tr.idx = s.eng.rootIdx.toNat ∧ s.eng.Holds tr := by
  cases hroot : s.eng.rootValid with
  | false =>
    rw [exec_genCodes_noTree hroot] at h
    obtain rfl := Host.Outcome.next.inj h
    cases herr
  | true =>
    obtain ⟨tr, hidx, hholds, -⟩ := hs.parts.rootCodes hroot
    exact ⟨tr, hidx, hholds⟩

/-- Every tree has a leaf, so the greatest length of its codes is one code's. -/
theorem symCodes_maxLen (e : Engine) (tr : HTree) :
    (∀ c ∈ tr.codes, c.2.length ≤ maxLen (e.symCodes tr)) ∧ ∃ c ∈ tr.codes, c.2.length = maxLen (e.symCodes tr) := by
  constructor
  · exact fun c hc => le_maxLen (Engine.mem_symCodes.2 ⟨c, hc, rfl⟩)
  · have hne : e.symCodes tr ≠ [] :=
      List.ne_nil_of_length_pos (by rw [Engine.length_symCodes]; exact tr.leaves_pos)
    obtain ⟨c, hc, hlen⟩ := maxLen_attained hne
    obtain ⟨d, hd, rfl⟩ := Engine.mem_symCodes.1 hc
    exact ⟨d, hd, hlen⟩

/-- Settles O36: one check, then the table of the codes that the walk finds. -/
theorem genCodesResult : Obligations.GenCodesResult := by
  unfold Obligations.GenCodesResult
  refine ⟨decode_encode .genCodes, fun s => ⟨exec_genCodes_noTree, fun hs hroot => ?_⟩⟩
  obtain ⟨tr, hidx, hholds, -, hcodes, -⟩ := hs.parts.rootCodes hroot
  have hrun := execGenCodes_ok hroot hcodes
  have table : TableOf (s.eng.ctCleared.storeCodes (s.eng.symCodes tr)) (s.eng.symCodes tr) :=
    genCodes_tableOf hs hrun rfl hholds hidx
  rw [Engine.length_symCodes] at hrun
  obtain ⟨hle, hattained⟩ := symCodes_maxLen s.eng tr
  refine ⟨tr, s.eng.ctCleared.storeCodes (s.eng.symCodes tr), maxLen (s.eng.symCodes tr), hidx, hholds, hrun, hle,
    hattained, storeCodes_frame _ _, fun c hc => ?leaf, fun x hx => ?other⟩
  case leaf =>
    have hmem : ((s.eng.nodeAt c.1).sym, c.2) ∈ s.eng.symCodes tr := Engine.mem_symCodes.2 ⟨c, hc, rfl⟩
    refine ⟨table.valid hmem, table.code hmem, fun j hj => ?_⟩
    rw [← List.getD_eq_default c.2 false hj]
    exact table.codebit hmem j
  case other =>
    refine table.others x fun hmem => ?_
    obtain ⟨c, hc, rfl⟩ := List.mem_map.1 hmem
    obtain ⟨d, hd, rfl⟩ := Engine.mem_symCodes.1 hc
    exact hx d hd rfl

/-! ## The table's consequences -/

theorem HTree.codes_kraft (tr : HTree) (h : tr.leaves ≤ 256) :
    (2 ≤ tr.leaves → (tr.codes.map fun c => 2 ^ (255 - c.2.length)).sum = 2 ^ 255) ∧
      (tr.leaves = 1 → (tr.codes.map fun c => 2 ^ (255 - c.2.length)).sum = 2 ^ 254) := by
  cases tr with
  | leaf i => exact ⟨fun h2 => absurd h2 (by simp [HTree.leaves]), fun _ => by simp [HTree.codes]⟩
  | node i l r =>
    have hdepth := HTree.depth_le (.node i l r)
    have hl := l.leaves_pos
    have hr := r.leaves_pos
    refine ⟨fun _ => HTree.kraft (.node i l r) 255 (by omega), fun h1 => ?_⟩
    simp only [HTree.leaves] at h1
    omega

theorem HTree.codes_length_bounds (tr : HTree) {c : Nat × List Bool} (hc : c ∈ tr.codes) :
    1 ≤ c.2.length ∧ (2 ≤ tr.leaves → c.2.length ≤ tr.leaves - 1) ∧ (tr.leaves = 1 → c.2.length = 1) := by
  refine ⟨tr.code_length_pos c hc, ?_⟩
  cases tr with
  | leaf i =>
    obtain rfl : c = (i, [false]) := List.mem_singleton.1 hc
    exact ⟨fun h2 => absurd h2 (by simp [HTree.leaves]), fun _ => rfl⟩
  | node i l r =>
    have hlen := HTree.path_length_le (.node i l r) c hc
    have hdepth := HTree.depth_le (.node i l r)
    have hl := l.leaves_pos
    have hr := r.leaves_pos
    refine ⟨fun _ => hlen.trans hdepth, fun h1 => ?_⟩
    simp only [HTree.leaves] at h1
    omega

/-- Settles O52: the valid entries are the codes of the tree, and each item is a property of those. -/
theorem codeTableIsPrefixFreeAndFull : Obligations.CodeTableIsPrefixFreeAndFull := by
  unfold Obligations.CodeTableIsPrefixFreeAndFull
  intro s t tr hs h herr hholds hidx
  show (∀ x ∈ t.eng.validSyms, ∀ y ∈ t.eng.validSyms, x ≠ y → _) ∧ (_ → (t.eng.validSyms.map _).sum = _) ∧
    (_ → (t.eng.validSyms.map _).sum = _) ∧ (∀ x ∈ t.eng.validSyms, _) ∧ _ ∧ t.eng.validSyms.length = _
  have table := genCodes_tableOf hs h herr hholds hidx
  obtain ⟨hres, hleaves, -⟩ := genCodes_table hs h herr hholds hidx
  have hperm := table.validSyms_perm
  have hleaf {x : Nat} (hx : x ∈ t.eng.validSyms) : ∃ c ∈ tr.codes, (s.eng.nodeAt c.1).sym.toNat = x ∧
      (t.eng.ctAt x).code = c.2 ∧ (t.eng.ctAt x).len.toNat = c.2.length := by
    obtain ⟨c, hc, rfl⟩ := List.mem_map.1 (hperm.mem_iff.1 hx)
    obtain ⟨d, hd, rfl⟩ := Engine.mem_symCodes.1 hc
    exact ⟨d, hd, rfl, table.code hc, table.len hc⟩
  have hsum : (t.eng.validSyms.map fun x => 2 ^ (255 - (t.eng.ctAt x).len.toNat)).sum =
      (tr.codes.map fun c => 2 ^ (255 - c.2.length)).sum := by
    rw [table.sum_validSyms fun n => 2 ^ (255 - n), Engine.symCodes, List.map_map]
    rfl
  rw [hsum]
  obtain ⟨hkraft, hkraftLeaf⟩ := tr.codes_kraft hleaves
  refine ⟨fun x hx y hy hne hprefix => ?prefixFree, hkraft, hkraftLeaf, fun x hx => ?lengths, hres, ?count⟩
  case prefixFree =>
    obtain ⟨c, hc, rfl, hcode, -⟩ := hleaf hx
    obtain ⟨d, hd, rfl, hcode', -⟩ := hleaf hy
    rw [hcode, hcode'] at hprefix
    rw [tr.codes_prefix c hc d hd hprefix] at hne
    exact hne rfl
  case lengths =>
    obtain ⟨c, hc, -, -, hlen⟩ := hleaf hx
    rw [hlen]
    exact tr.codes_length_bounds hc
  case count =>
    rw [hperm.length_eq, List.length_map, Engine.length_symCodes]

/-! ## Encoding and decoding back -/

theorem Engine.refDecode_congr {e e' : Engine} (hnode : e'.node = e.node) (hroot : e'.rootIdx = e.rootIdx)
    (bits : List Bool) : e'.refDecode bits = e.refDecode bits := by
  have hnodeAt : e'.nodeAt = e.nodeAt := by funext i; simp only [Engine.nodeAt, hnode]
  rw [Engine.refDecode, Engine.refDecode, Engine.decodeFrom_congr hnode, hroot, hnodeAt]

/-- The reference decoder at the top of a tree with children reads one code after another as their symbols. -/
theorem Engine.Holds.decodeFrom_codes {e : Engine} {i : Nat} {l r : HTree} (h : e.Holds (.node i l r)) {n : NodeIdx}
    (hn : n.toNat = i) {code : Byte → List Bool} {txt : List Byte}
    (hcode : ∀ b ∈ txt, (b, code b) ∈ e.symCodes (.node i l r)) :
    e.decodeFrom n n (txt.flatMap code) = some txt := by
  induction txt with
  | nil => simp [Engine.decodeFrom]
  | cons b txt ih =>
    obtain ⟨hb, htxt⟩ := List.forall_mem_cons.1 hcode
    obtain ⟨c, hc, heq⟩ := Engine.mem_symCodes.1 hb
    obtain ⟨rfl, hpath⟩ := Prod.mk.inj heq
    have hne : c.2 ≠ [] := List.ne_nil_of_length_pos (HTree.code_length_pos _ c hc)
    rw [List.flatMap_cons, ← hpath, h.decode_path hn n _ c hc hne, ih htxt]
    rfl

/-- The reference decoder recovers a text from the codes its symbols have in the tree at ROOT. -/
theorem Engine.Holds.refDecode_codes {e : Engine} {tr : HTree} (h : e.Holds tr) (hidx : tr.idx = e.rootIdx.toNat)
    {code : Byte → List Bool} {txt : List Byte} (hcode : ∀ b ∈ txt, (b, code b) ∈ e.symCodes tr) :
    e.refDecode (txt.flatMap code) = some txt := by
  rw [Engine.refDecode, ← hidx]
  cases tr with
  | leaf i =>
    have hone : ∀ b ∈ txt, b = (e.nodeAt i).sym ∧ code b = [false] := fun b hb =>
      Prod.mk.inj (List.mem_singleton.1 (hcode b hb))
    have hbits : txt.flatMap code = txt.map fun _ => false := by
      rw [← List.flatMap_pure_eq_map]
      exact List.flatMap_congr fun b hb => (hone b hb).2
    have htxt : txt.map (fun _ => (e.nodeAt i).sym) = txt := by
      conv_rhs => rw [← List.map_id txt]
      exact List.map_congr_left fun b hb => (hone b hb).1.symm
    rw [HTree.idx, if_neg (by simp [h.2]), if_neg (by simp [hbits]), hbits, List.map_map]
    exact congrArg some htxt
  | node i l r =>
    rw [HTree.idx, if_pos h.2.1]
    exact h.decodeFrom_codes hidx.symm hcode

/-- The stream after bits emitted from its start on is those bits. -/
theorem emitCode_stream (junk : Byte) {e : Engine} (c : List Bool) (h0 : e.outBits.toNat = 0)
    (hc : c.length < 2 ^ 32) : (e.emitCode junk c).stream = c := by
  obtain ⟨-, hbits, hemitted, -⟩ := emitCode_spec junk e c (by omega)
  rw [h0, Nat.zero_add] at hbits
  refine List.ext_getElem (by simp [Engine.stream, hbits]) fun k hk hk' => ?_
  have hbit := hemitted k hk'
  rw [h0, Nat.zero_add, List.getD_eq_getElem _ _ hk'] at hbit
  simp [Engine.stream, hbit]

/-- A new ENCODE without an error read a whole text of symbols with codes, and its stream is their codes in order. -/
theorem encode_stream {s t : State} (hp : s.params.wf = true) (h : exec (.encode false) s = .next t)
    (herr : t.err = 0#4) :
    ∃ txt, s.eng.text s.arg0L.toNat s.arg1L.toNat = some txt ∧ (∀ b ∈ txt, (s.eng.ctAt b.toNat).valid = true) ∧
      t.eng.stream = s.eng.codesOf txt := by
  have hsmall := Params.stream_small hp
  obtain (⟨-, rfl⟩ | ⟨-, -, rfl⟩) | ⟨-, -, ⟨e, k, hrun, rfl⟩ | ⟨x, e, off, b, hrun, rfl⟩⟩ := execEncode_next h
  · cases herr
  · cases herr
  · obtain ⟨txt, htext, hvalid, rfl, -, hfit⟩ := encodeLoop_finished _ _ _ _ _ _ _ _ hrun hsmall (Nat.zero_le _)
    have hlen := Nat.le_of_add_left_le hfit
    rw [Engine.text_congr (startOutput_same s.eng false).inMem] at htext
    exact ⟨txt, htext, hvalid, emitCode_stream _ _ rfl (by omega)⟩
  · obtain ⟨-, -, -, -, -, -, ⟨rfl, -⟩ | ⟨rfl, -⟩⟩ := encodeLoop_stopped _ _ _ _ _ _ _ _ _ _ hrun
    · cases herr
    · cases herr

/-- Settles O53: the stream is the codes of the text in order, each the path to its symbol's leaf in the tree that the
decoder walks. -/
theorem encodedTextDecodesBack : Obligations.EncodedTextDecodesBack := by
  unfold Obligations.EncodedTextDecodesBack
  intro s s1 s2 s3 hs hgen hgenErr hparams hct hnode hroot henc hencErr
  obtain ⟨tr, hidx, hholds⟩ := genCodes_tree hs hgen hgenErr
  have table := genCodes_tableOf hs hgen hgenErr hholds hidx
  obtain ⟨-, -, -, -, -, hnode1, hroot1⟩ := genCodes_table hs hgen hgenErr hholds hidx
  obtain ⟨txt, htext, hvalid, hstream⟩ := encode_stream hparams henc hencErr
  have hsame := execEncode_same henc
  refine ⟨txt, htext, ?_⟩
  rw [hstream,
    Engine.refDecode_congr (hsame.node.trans (hnode.trans hnode1)) (hsame.rootIdx.trans (hroot.trans hroot1))]
  have hctAt (b : Byte) : s2.eng.ctAt b.toNat = s1.eng.ctAt b.toNat := by simp only [Engine.ctAt, hct]
  refine hholds.refDecode_codes hidx fun b hb => ?_
  have hbvalid := hvalid b hb
  rw [hctAt] at hbvalid ⊢
  exact table.mem_of_valid hbvalid

end Sys2Proof.Machine
end

section
/-! PROOFS. 44_encoder.md R200-R204: the bit-string encoder. ENCODE of a text is one run of emit_bit over the
concatenated codes (`State.encoded`), and the next symbol alone says whether the loop stops or faults there. -/

namespace Sys2Proof.Machine

/-! ## emit_bit -/

/-- A run of emit_bit writes no byte of OUT_MEM but those of the positions it emits. -/
theorem emitCode_read_of_not_emitted (junk : Byte) {e : Engine} {c : List Bool} {a : Nat}
    (hsmall : e.outBits.toNat + c.length < 2 ^ 32)
    (ha : ∀ p, e.outBits.toNat ≤ p → p < e.outBits.toNat + c.length → p / 8 ≠ a) :
    (e.emitCode junk c).outMem.read a = e.outMem.read a := by
  obtain rfl | hc := eq_or_ne c []
  · rfl
  · obtain ⟨-, -, -, -, houtside, -⟩ := emitCode_spec junk e c hsmall
    have hpos := List.length_pos_of_ne_nil hc
    refine houtside a ?_
    by_contra! hin
    have := ha (max e.outBits.toNat (8 * a))
    omega

/-- The bits of the byte emit_bit writes: the new bit in its place, and the others zeroed in a new byte and kept in a
written one. -/
theorem emitBit_byte (junk : Byte) (e : Engine) (b : Bool) :
    ∃ y, (e.emitBit junk b).outMem.read (e.outBits.toNat / 8) = some y ∧
      y.getLsbD (7 - e.outBits.toNat % 8) = b ∧
      ∀ k, k < 8 → k ≠ 7 - e.outBits.toNat % 8 →
        (e.outBits.toNat % 8 = 0 → y.getLsbD k = false) ∧
          ∀ z, e.outBits.toNat % 8 ≠ 0 → e.outMem.read (e.outBits.toNat / 8) = some z →
            y.getLsbD k = z.getLsbD k := by
  refine ⟨_, by rw [emitBit_read, if_pos rfl], ?_, fun k _ hk => ?_⟩
  · rw [getLsbD_setBit, if_pos ⟨rfl, by omega⟩]
  · rw [getLsbD_setBit, if_neg fun h => hk h.1, Engine.emitOld]
    refine ⟨fun hnew => ?_, fun z hold hz => ?_⟩
    · rw [if_pos hnew, BitVec.getLsbD_zero]
    · rw [if_neg hold, hz, Option.getD_some]

/-- Settles O47: the byte emit_bit writes, and the pad bits, which a byte boundary has none of. -/
theorem emitBitPlacesBit : Obligations.EmitBitPlacesBit := by
  unfold Obligations.EmitBitPlacesBit
  refine fun junk e => ⟨fun b hb => ⟨emitBit_outBits junk e b hb, fun a ha => ?_, emitBit_byte junk e b⟩,
    fun c q hc h8 hq hbyte hpad => ?_⟩
  · rw [emitBit_read, if_neg ha]
  · obtain ⟨-, houtBits, -, -, -, -, hpadded⟩ := emitCode_spec junk e c hc
    have hboundary : e.padded := fun _ _ _ h => absurd h8 h
    exact hpadded hboundary q (by rwa [houtBits]) (by rwa [houtBits]) (by rwa [houtBits])

/-! ## The operands -/

theorem exec_encode_noSymbol {s : State} {A : Bool} (h0 : s.arg1L = 0#32) :
    exec (.encode A) s = .next (s.complete (raised s.eng .invalidInput)) := by
  rw [exec, execEncode, if_pos (by rw [h0]; rfl)]

theorem exec_encode_badRange {s : State} {A : Bool} (h0 : s.arg1L.toNat ≠ 0)
    (hrange : s.params.inBytes < s.arg0L.toNat + s.arg1L.toNat) :
    exec (.encode A) s = .next (s.complete (raised s.eng .badRange)) := by
  rw [exec, execEncode, if_neg h0, if_pos (by simpa [rangeBad] using hrange)]

/-- Settles O38: the two checks before the loop. -/
theorem encodeRejectsOperands : Obligations.EncodeRejectsOperands := by
  unfold Obligations.EncodeRejectsOperands
  exact fun s A => ⟨exec_encode_noSymbol, fun h0 => exec_encode_badRange (BitVec.toNat_ne.1 h0)⟩

/-! ## One turn of the loop that ends it -/

section
variable {e : Engine} {off : Nat} (outBytes : Nat) (junk : Byte) (n k : Nat)

/-- Why ENCODE's loop raises `E` at the symbol `x`: no code, or a code that does not fit (44_encoder.md R201). -/
def Engine.Rejects (e : Engine) (outBytes : Nat) (x : Byte) (E : ErrCode) : Prop :=
  ((e.ctAt x.toNat).valid = false ∧ E = .symbolNotFound) ∨
    ((e.ctAt x.toNat).valid = true ∧ 8 * outBytes < e.outBits.toNat + (e.ctAt x.toNat).len.toNat ∧ E = .outOverflow)

theorem encodeLoop_of_rejects {x : Byte} {E : ErrCode} (hx : e.inMem.read off = some x)
    (hE : e.Rejects outBytes x E) : encodeLoop outBytes junk (n + 1) off k e = .stopped E e off x := by
  rw [encodeLoop, hx]
  obtain ⟨hnone, rfl⟩ | ⟨hvalid, hroom, rfl⟩ := hE
  · simp [hnone]
  · simp [hvalid, hroom]

theorem encodeLoop_of_unwritten (hx : e.inMem.read off = none) :
    encodeLoop outBytes junk (n + 1) off k e = .unwritten off := by
  rw [encodeLoop, hx]

end

/-! ## ENCODE of a text, and what the symbol after it does -/

/-- The engine-owned state that ENCODE of `txt` leaves: its codes emitted from where its output starts. -/
def State.encoded (s : State) (A : Bool) (txt : List Byte) : Engine :=
  (s.eng.startOutput A).emitCode (Config.freeByte s.draws) (s.eng.codesOf txt)

theorem encoded_same (s : State) (A : Bool) (txt : List Byte) : SameButOutput s.eng (s.encoded A txt) :=
  (startOutput_same s.eng A).trans (emitCode_same _ _ _)

theorem encoded_ctAt (s : State) (A : Bool) (txt : List Byte) (x : Nat) : (s.encoded A txt).ctAt x = s.eng.ctAt x := by
  simp only [Engine.ctAt, (encoded_same s A txt).ct]

section
variable {s : State} {A : Bool} {m : Nat} {txt : List Byte} (hp : s.params.wf = true)
  (hrange : s.arg0L.toNat + s.arg1L.toNat ≤ s.params.inBytes)
  (htext : s.eng.text s.arg0L.toNat m = some txt) (hvalid : ∀ b ∈ txt, (s.eng.ctAt b.toNat).valid = true)
  (hfit : (if A then s.eng.outBits.toNat else 0) + (s.eng.codesOf txt).length ≤ 8 * s.params.outBytes)

include hp hfit

theorem startOutput_fits : (s.eng.startOutput A).outBits.toNat + (s.eng.codesOf txt).length < 2 ^ 32 := by
  have := Params.stream_small hp
  rw [startOutput_num]
  omega

theorem encoded_outBits :
    (s.encoded A txt).outBits.toNat = (if A then s.eng.outBits.toNat else 0) + (s.eng.codesOf txt).length := by
  obtain ⟨-, houtBits, -⟩ := emitCode_spec (Config.freeByte s.draws) _ _ (startOutput_fits hp hfit)
  rwa [startOutput_num] at houtBits

theorem encoded_emits_codes {k : Nat} (hk : k < (s.eng.codesOf txt).length) :
    (s.encoded A txt).streamBit ((if A then s.eng.outBits.toNat else 0) + k) =
      some ((s.eng.codesOf txt).getD k false) := by
  obtain ⟨-, -, hemitted, -⟩ := emitCode_spec (Config.freeByte s.draws) _ _ (startOutput_fits hp hfit)
  rw [← startOutput_num]
  exact hemitted k hk

theorem encoded_keeps_earlier {p : Nat} {x : Bool} (hlt : p < if A then s.eng.outBits.toNat else 0)
    (hx : s.eng.streamBit p = some x) : (s.encoded A txt).streamBit p = some x := by
  obtain ⟨-, -, -, hearlier, -⟩ := emitCode_spec (Config.freeByte s.draws) _ _ (startOutput_fits hp hfit)
  rw [← startOutput_num] at hlt
  refine hearlier p x hlt ?_
  rwa [Engine.streamBit, startOutput_outMem]

theorem encoded_read_of_not_emitted {a : Nat}
    (ha : ∀ p, (if A then s.eng.outBits.toNat else 0) ≤ p → p < (s.encoded A txt).outBits.toNat → p / 8 ≠ a) :
    (s.encoded A txt).outMem.read a = s.eng.outMem.read a := by
  rw [encoded_outBits hp hfit, ← startOutput_num] at ha
  rw [← startOutput_outMem s.eng A]
  exact emitCode_read_of_not_emitted _ (startOutput_fits hp hfit) ha

include htext hvalid

/-- The loop with `n` symbols left after `txt`. -/
theorem encodeRun_after_text {n : Nat} (hn : s.arg1L.toNat = m + n) :
    s.encodeRun A = encodeLoop s.params.outBytes (Config.freeByte s.draws) n (s.arg0L.toNat + m)
      (s.eng.codesOf txt).length (s.encoded A txt) := by
  rw [← startOutput_num] at hfit
  rw [State.encodeRun, hn]
  exact encodeRun_prefix n hp htext hvalid hfit

theorem encodeRun_reaches_next (hm : m < s.arg1L.toNat) :
    ∃ n, s.encodeRun A = encodeLoop s.params.outBytes (Config.freeByte s.draws) (n + 1) (s.arg0L.toNat + m)
      (s.eng.codesOf txt).length (s.encoded A txt) :=
  ⟨s.arg1L.toNat - m - 1, encodeRun_after_text hp htext hvalid hfit (by omega)⟩

include hrange

theorem exec_encode_text (hm : s.arg1L.toNat = m) (h0 : m ≠ 0) :
    exec (.encode A) s = .next ({ s with draws := s.draws + 1 }.complete
      (success (s.encoded A txt) (natWord (s.eng.codesOf txt).length) s.arg1L)) := by
  rw [exec, execEncode_runs (by omega) hrange, encodeRun_after_text hp htext hvalid hfit (n := 0) hm]
  rfl

theorem exec_encode_stops {x : Byte} {E : ErrCode} (hm : m < s.arg1L.toNat)
    (hx : s.eng.inMem.read (s.arg0L.toNat + m) = some x)
    (hE : (s.encoded A txt).Rejects s.params.outBytes x E) :
    exec (.encode A) s = .next ({ s with draws := s.draws + 1 }.complete
      ⟨s.encoded A txt, E, natWord (s.arg0L.toNat + m), symWord x⟩) := by
  obtain ⟨n, hrun⟩ := encodeRun_reaches_next hp htext hvalid hfit hm
  rw [← (encoded_same s A txt).inMem] at hx
  rw [exec, execEncode_runs (by omega) hrange, hrun, encodeLoop_of_rejects _ _ _ _ hx hE]

theorem exec_encode_faults (hm : m < s.arg1L.toNat) (hx : s.eng.inMem.read (s.arg0L.toNat + m) = none) :
    exec (.encode A) s = .fault (.unwrittenInput (s.arg0L.toNat + m)) := by
  obtain ⟨n, hrun⟩ := encodeRun_reaches_next hp htext hvalid hfit hm
  rw [← (encoded_same s A txt).inMem] at hx
  rw [exec, execEncode_runs (by omega) hrange, hrun, encodeLoop_of_unwritten _ _ _ _ hx]

end

/-- A text each of whose symbols has a bit in its code has no more symbols than bits. -/
theorem Engine.length_le_codesOf (e : Engine) {txt : List Byte} (h : ∀ b ∈ txt, 1 ≤ (e.ctAt b.toNat).len.toNat) :
    txt.length ≤ (e.codesOf txt).length := by
  rw [e.codesOf_length, ← List.length_map (as := txt)]
  exact List.length_le_sum_of_one_le _ (List.forall_mem_map.2 h)

/-! ## The obligations on ENCODE -/

/-- Settles O39: the loop runs through the text, and what a run of emit_bit does is the output. -/
theorem encodeResult : Obligations.EncodeResult := by
  unfold Obligations.EncodeResult
  rintro s A txt B0 hp h0 hrange htext hvalid rfl hfit
  refine ⟨s.encoded A txt, exec_encode_text hp hrange htext hvalid hfit rfl (BitVec.toNat_ne.1 h0),
    (encoded_same s A txt).eng_eq, s.eng.codesOf_length txt, encoded_outBits hp hfit,
    fun k => encoded_emits_codes hp hfit, fun p x => encoded_keeps_earlier hp hfit, fun hlen => ?_⟩
  rw [← Engine.text_length htext]
  exact s.eng.length_le_codesOf hlen

/-- Settles O40: the loop stops after the first `m` symbols, in the state that ENCODE of those symbols leaves. -/
theorem encodeStopsPrecisely : Obligations.EncodeStopsPrecisely := by
  unfold Obligations.EncodeStopsPrecisely
  intro s A m txt x B0 hp hm hrange htext hvalid hB0 hfit hx E hE
  have hB0num : B0.toNat = if A then s.eng.outBits.toNat else 0 := by rw [hB0]; cases A <;> rfl
  rw [hB0num] at hfit hE
  refine ⟨s.encoded A txt, exec_encode_stops hp hrange htext hvalid hfit hm hx ?rejects, ?first, ?later⟩
  case rejects =>
    rw [Engine.Rejects, encoded_ctAt, encoded_outBits hp hfit]
    exact hE
  case first =>
    rintro rfl
    obtain rfl : txt = [] := List.length_eq_zero_iff.1 (Engine.text_length htext)
    subst hB0
    cases A <;> rfl
  case later =>
    intro h0
    have hm' : (BitVec.ofNat 32 m).toNat = m := natWord_toNat (hm.trans s.arg1L.isLt)
    have hrange' : s.arg0L.toNat + (BitVec.ofNat 32 m).toNat ≤ s.params.inBytes := by omega
    exact exec_encode_text (s := { s with arg1L := BitVec.ofNat 32 m }) hp hrange' htext hvalid hfit hm' h0

/-- Settles O41: the loop reaches the unwritten byte. -/
theorem encodeFaultsOnUnwrittenInput : Obligations.EncodeFaultsOnUnwrittenInput := by
  unfold Obligations.EncodeFaultsOnUnwrittenInput
  exact fun s A m txt hp hm hrange htext hvalid hfit hx => exec_encode_faults hp hrange htext hvalid hfit hm hx

/-- ENCODE that ends in a next state rejected its operands and kept the engine-owned state, or left the state that
ENCODE of some text leaves, whose bits fit. -/
theorem encode_eng_cases {s t : State} {A : Bool} (hp : s.params.wf = true)
    (hbits : s.eng.outBits.toNat ≤ 8 * s.params.outBytes) (h : exec (.encode A) s = .next t) :
    t.eng = s.eng ∨ ∃ txt, t.eng = s.encoded A txt ∧
      (if A then s.eng.outBits.toNat else 0) + (s.eng.codesOf txt).length ≤ 8 * s.params.outBytes := by
  have hsmall := Params.stream_small hp
  have hstart : (s.eng.startOutput A).outBits.toNat ≤ 8 * s.params.outBytes := by
    rw [startOutput_num]; split <;> omega
  rw [← startOutput_num]
  obtain (⟨-, rfl⟩ | ⟨-, -, rfl⟩) | ⟨-, -, ⟨e, k, hrun, rfl⟩ | ⟨x, e, off, b, hrun, rfl⟩⟩ := execEncode_next h
  · exact .inl rfl
  · exact .inl rfl
  · obtain ⟨-, txt, -, -, he, hfit⟩ := encodeRun_emits (.inl ⟨k, hrun⟩) hsmall hstart
    exact .inr ⟨txt, he, hfit⟩
  · obtain ⟨-, txt, -, -, he, hfit⟩ := encodeRun_emits (.inr ⟨x, off, b, hrun⟩) hsmall hstart
    exact .inr ⟨txt, he, hfit⟩

/-- Settles O43: the stores of ENCODE are those of a run of emit_bit. -/
theorem encodeStoreFrame : Obligations.EncodeStoreFrame := by
  unfold Obligations.EncodeStoreFrame
  intro s t A hp hbits h
  obtain heng | ⟨txt, heng, hfit⟩ := encode_eng_cases hp hbits h
  · rw [heng]
    exact ⟨fun _ _ => rfl, fun _ _ _ hx => hx, hbits⟩
  · rw [heng]
    exact ⟨fun a => encoded_read_of_not_emitted hp hfit, fun p x => encoded_keeps_earlier hp hfit,
      (encoded_outBits hp hfit).trans_le hfit⟩

end Sys2Proof.Machine
end

section
/-! PROOFS. 60_exceptions.md R226, R62, R65: which transfers the bus fails, by the rows of the address map and the
window lock; and R227, R228: the events of a step that set or clear the two sticky status bits. -/

namespace Sys2Proof.Machine

/-! ## Bus errors -/

/-- 60_exceptions.md R226: the three cases in which a transfer fails. -/
theorem busError_iff {s : State} (hp : s.params.wf = true) (a : BusAddr) :
    s.busError (region s.params a) = true ↔
      a.toNat % 4 ≠ 0 ∨ ¬ (inRegisters a.toNat ∨ inWindow s.params a.toNat) ∨
        (inWindow s.params a.toNat ∧ s.phase ≠ .idle) := by
  obtain ⟨⟨-, -, hin⟩, -, -, hout⟩ := (Params.wf_iff _).1 hp
  obtain ⟨-, ⟨h4, hg⟩ | ⟨h4, hreg, r, hg, -⟩ | ⟨h4, -, hwin, hw⟩ | ⟨h4, hreg, hg, hwin⟩⟩ := region_cases s.params a
  · simp [hg, State.busError, h4]
  · simp [hg, busError_reg, h4, hreg, not_inWindow_of_inRegisters hreg]
  · simp [busError_window hw, State.busy, h4, hwin]
  · simp [hg, State.busError, hreg, hwin hin hout]

/-- Settles O14, with PSLVERR and PRDATA of the region that the address selects. -/
theorem busErrorsExactly : Obligations.BusErrorsExactly := by
  unfold Obligations.BusErrorsExactly
  intro s a d hp
  exact ⟨s.busError (region s.params a), s.busData (region s.params a), busError_iff hp a, busData_error, rfl, rfl,
    busWrite_error d⟩

/-! ## OVERRUN and DONE -/

/-- Everything a write transfer can do to the two sticky bits: nothing, a write to STATUS, or the two cases of a write
to CMD. -/
theorem busWrite_sticky_cases (s : State) (a : BusAddr) (d : Word) :
    ((s.busWrite a d).overrun = s.overrun ∧ (s.busWrite a d).done = s.done) ∨
      (a = regAddr .status ∧ (s.busWrite a d).overrun = (s.overrun && !d.getLsbD 2) ∧
        (s.busWrite a d).done = (s.done && !d.getLsbD 1)) ∨
      (a = regAddr .cmd ∧ s.phase = .idle ∧ s.busWrite a d = { s.accept d with resp := some (.writeDone false) }) ∨
      (a = regAddr .cmd ∧ s.phase ≠ .idle ∧
        s.busWrite a d = { s.setOverrun with resp := some (.writeDone false) }) := by
  obtain h | ⟨r, rfl, h⟩ | ⟨-, -, -, h⟩ := busWrite_cases s a d
  · rw [h]; exact .inl ⟨rfl, rfl⟩
  · cases r with
    | status => rw [h]; exact .inr (.inl ⟨rfl, rfl, rfl⟩)
    | cmd =>
      by_cases hi : s.phase = .idle
      · exact .inr (.inr (.inl ⟨rfl, hi, busWrite_cmd_idle d hi⟩))
      · exact .inr (.inr (.inr ⟨rfl, hi, busWrite_cmd_busy d hi⟩))
    | _ => rw [h]; exact .inl ⟨rfl, rfl⟩
  · rw [h]; exact .inl ⟨rfl, rfl⟩

/-- What a step from `s` to `t` does to OVERRUN and DONE, event by event (60_exceptions.md R227, R228). -/
inductive StickyEvent (s t : State) : Prop where
  | kept : t.overrun = s.overrun → t.done = s.done → StickyEvent s t
  | completed : s.phase = .busy → t.phase = .idle → t.overrun = s.overrun → t.done = true → StickyEvent s t
  | reset {rest : List HostMove} : s.host = .reset :: rest → t.overrun = false → t.done = false → StickyEvent s t
  | statusWritten {d : Word} {rest : List HostMove} : s.host = .write (regAddr .status) d :: rest →
      t.overrun = (s.overrun && !d.getLsbD 2) → t.done = (s.done && !d.getLsbD 1) → StickyEvent s t
  | accepted {v : Word} {rest : List HostMove} : s.host = .write (regAddr .cmd) v :: rest → s.phase = .idle →
      t.phase = .busy → t.overrun = s.overrun → t.done = false → StickyEvent s t
  | overran {v : Word} {rest : List HostMove} : s.host = .write (regAddr .cmd) v :: rest → s.phase ≠ .idle →
      t = { s with overrun := true, resp := some (.writeDone false), host := rest, busyMoves := s.busyMoves + 1 } →
      StickyEvent s t

theorem hostMove_stickyEvent {s : State} {m : HostMove} {rest : List HostMove} (hh : s.host = m :: rest) :
    StickyEvent s (({ s with busyMoves := s.busyMoves + 1 } : State).hostMove m rest) := by
  obtain ⟨l, a, -, h⟩ | ⟨a, d, rfl, h⟩ | ⟨-, h | h⟩ | ⟨rfl, h⟩ :=
    hostMove_cases { s with busyMoves := s.busyMoves + 1 } m rest
  · rw [h]; exact .kept rfl rfl
  · rw [h]
    obtain ⟨ho, hd⟩ | ⟨rfl, ho, hd⟩ | ⟨rfl, hi, hw⟩ | ⟨rfl, hi, hw⟩ :=
      busWrite_sticky_cases { s with busyMoves := s.busyMoves + 1, host := rest } a d
    · exact .kept ho hd
    · exact .statusWritten hh ho hd
    · rw [hw]; exact .accepted hh hi rfl rfl rfl
    · rw [hw]; exact .overran hh hi rfl
  · rw [h]; exact .kept rfl rfl
  · rw [h]; exact .kept rfl rfl
  · rw [h]; exact .reset hh rfl rfl

theorem step_stickyEvent {s t : State} (h : step s = .next t) : StickyEvent s t := by
  obtain ⟨-, rfl⟩ | ⟨hbusy, i, -, hx⟩ | ⟨hbusy, rfl⟩ | ⟨m, rest, hh, rfl⟩ | ⟨-, -, rfl⟩ := step_cases h
  · exact .kept rfl rfl
  · obtain ⟨c, k, rfl, -⟩ := exec_completion hx
    exact .completed hbusy rfl rfl rfl
  · exact .completed hbusy rfl rfl rfl
  · exact hostMove_stickyEvent hh
  · exact .kept rfl rfl

section
variable {s t : State} (h : StickyEvent s t)
include h

theorem StickyEvent.overrun_set (h0 : s.overrun = false) (h1 : t.overrun = true) :
    s.phase ≠ .idle ∧ t.irq = s.irq ∧ ∃ v rest, s.host = .write (regAddr .cmd) v :: rest ∧
      t = { s with overrun := true, resp := some (.writeDone false), host := rest,
                   busyMoves := s.busyMoves + 1 } := by
  cases h with
  | overran hh hp ht => exact ⟨hp, by rw [ht]; rfl, _, _, hh, ht⟩
  | _ => simp_all

theorem StickyEvent.overrun_cleared (h1 : s.overrun = true) (h0 : t.overrun = false) :
    ∃ rest, s.host = .reset :: rest ∨ ∃ d, s.host = .write (regAddr .status) d :: rest ∧ d.getLsbD 2 = true := by
  cases h with
  | reset hh => exact ⟨_, .inl hh⟩
  | statusWritten hh ho => exact ⟨_, .inr ⟨_, hh, by simpa [h1, h0] using ho⟩⟩
  | _ => simp_all

theorem StickyEvent.done_set (h0 : s.done = false) (h1 : t.done = true) : s.phase = .busy ∧ t.phase = .idle := by
  cases h with
  | completed hs ht => exact ⟨hs, ht⟩
  | _ => simp_all

theorem StickyEvent.done_cleared (h1 : s.done = true) (h0 : t.done = false) :
    ∃ rest, s.host = .reset :: rest ∨ ∃ d, (s.host = .write (regAddr .status) d :: rest ∧ d.getLsbD 1 = true) ∨
      (s.host = .write (regAddr .cmd) d :: rest ∧ s.phase = .idle ∧ t.phase = .busy) := by
  cases h with
  | reset hh => exact ⟨_, .inl hh⟩
  | statusWritten hh _ hd => exact ⟨_, .inr ⟨_, .inl ⟨hh, by simpa [h1, h0] using hd⟩⟩⟩
  | accepted hh hs ht => exact ⟨_, .inr ⟨_, .inr ⟨hh, hs, ht⟩⟩⟩
  | _ => simp_all

end

/-- Settles O12: each clause by the events that change its bit that way. -/
theorem stickyStatusBits : Obligations.StickyStatusBits := by
  unfold Obligations.StickyStatusBits
  intro s t h
  have hevent := step_stickyEvent h
  exact ⟨hevent.overrun_set, hevent.overrun_cleared, hevent.done_set, hevent.done_cleared⟩

end Sys2Proof.Machine
end

section
/-! PROOFS. 60_exceptions.md R220-R225: completion and errors. Every command ends in a success, in a rejection that keeps
the engine-owned state, or, for ENCODE alone, in a stop at a symbol of its range; ENCODE alone can fault, at an unwritten
byte of its range. -/

namespace Sys2Proof.Machine

/-! ## ENCODE's run -/

/-- A fault of ENCODE's run: an unwritten byte of its range. -/
theorem encodeRun_unwritten {s : State} {A : Bool} {off : Nat} (h : s.encodeRun A = .unwritten off) :
    s.arg0L.toNat ≤ off ∧ off < s.arg0L.toNat + s.arg1L.toNat ∧ s.eng.inMem.read off = none := by
  rw [← (startOutput_same s.eng A).inMem]
  exact encodeLoop_unwritten _ _ _ _ _ _ _ h

/-- A stop of ENCODE's run: one of two errors, at a symbol of its range, with nothing written but the output. -/
theorem encodeRun_stopped {s : State} {A : Bool} {x : ErrCode} {e : Engine} {off : Nat} {b : Byte}
    (h : s.encodeRun A = .stopped x e off b) :
    (x = .symbolNotFound ∨ x = .outOverflow) ∧ s.arg0L.toNat ≤ off ∧ off < s.arg0L.toNat + s.arg1L.toNat ∧
      s.eng.inMem.read off = some b ∧ SameButOutput s.eng e := by
  obtain ⟨m, -, hm, rfl, -, hread, hx⟩ := encodeLoop_stopped _ _ _ _ _ _ _ _ _ _ h
  have hsame : SameButOutput s.eng e :=
    (startOutput_same s.eng A).trans (encodeLoop_same _ _ _ _ _ _ _ (.inr ⟨x, _, b, h⟩))
  rw [hsame.inMem] at hread
  exact ⟨hx.imp And.left And.left, Nat.le_add_right _ _, Nat.add_lt_add_left hm _, hread, hsame⟩

/-! ## Completion -/

/-- A GEN_CODES over a forest of trees completes: the tree at ROOT is never too deep. -/
theorem exec_genCodes_completes {s : State} (p : Parts s.eng) : ∃ t, exec .genCodes s = .next t := by
  cases hroot : s.eng.rootValid with
  | false => exact ⟨_, exec_genCodes_noTree hroot⟩
  | true =>
    obtain ⟨tr, -, -, -, hcodes, -⟩ := p.rootCodes hroot
    exact ⟨_, execGenCodes_ok hroot hcodes⟩

/-- An ENCODE completes, or its range holds an unwritten byte, at which it faults. -/
theorem exec_encode_completes_or_faults (s : State) (A : Bool) :
    (∃ t, exec (.encode A) s = .next t) ∨
      ∃ off, s.arg0L.toNat ≤ off ∧ off < s.arg0L.toNat + s.arg1L.toNat ∧ s.eng.inMem.read off = none ∧
        exec (.encode A) s = .fault (.unwrittenInput off) := by
  by_cases h0 : s.arg1L.toNat = 0
  · exact .inl ⟨_, exec_encode_noSymbol (BitVec.eq_of_toNat_eq h0)⟩
  by_cases hrange : s.params.inBytes < s.arg0L.toNat + s.arg1L.toNat
  · exact .inl ⟨_, exec_encode_badRange h0 hrange⟩
  have hexec : exec (.encode A) s = _ := execEncode_runs h0 (Nat.le_of_not_lt hrange)
  cases hrun : s.encodeRun A with
  | finished e k => exact .inl ⟨_, by rw [hexec, hrun]⟩
  | stopped x e off b => exact .inl ⟨_, by rw [hexec, hrun]⟩
  | unwritten off =>
    obtain ⟨hlo, hhi, hread⟩ := encodeRun_unwritten hrun
    exact .inr ⟨off, hlo, hhi, hread, by rw [hexec, hrun]⟩

/-- Settles O56: only GEN_CODES and ENCODE can answer anything but a next state. -/
theorem everyCommandCompletes : Obligations.EveryCommandCompletes := by
  unfold Obligations.EveryCommandCompletes
  intro i s hs
  cases i with
  | genCodes => exact .inl (exec_genCodes_completes hs.struct.parts)
  | encode A => exact (exec_encode_completes_or_faults s A).imp_right fun ⟨off, h⟩ => ⟨A, off, rfl, h⟩
  | _ => exact .inl ⟨_, rfl⟩

/-! ## The errors of each command -/

/-- The errors that the checks of a command raise with results (0, 0) and nothing committed (60_exceptions.md R221,
R224). -/
def rejections : Instr → List ErrCode
  | .nop => []
  | .clear => []
  | .heapBuild => [.invalidInput, .weightOverflow]
  | .pqInsert => [.badNode, .nodeNotLoose, .queueFull]
  | .pqExtract => [.queueEmpty]
  | .pqPeek => [.queueEmpty]
  | .nodeMerge => [.badNode, .nodeNotLoose, .arenaFull, .weightOverflow]
  | .mergeStep => [.queueEmpty, .arenaFull, .weightOverflow]
  | .setRoot => [.badNode, .nodeNotLoose]
  | .buildTree => [.invalidInput, .weightOverflow]
  | .genCodes => [.noTree]
  | .ctClear => []
  | .encode _ => [.invalidInput, .badRange]

/-- A completion on the engine-owned state `e` that succeeds, or raises one of `xs` and keeps `e`. -/
inductive SucceedsOrRaises (e : Engine) (xs : List ErrCode) : Completion → Prop where
  | succeeds (e' : Engine) (r0 r1 : Word) : SucceedsOrRaises e xs (success e' r0 r1)
  | raises {x : ErrCode} : x ∈ xs → SucceedsOrRaises e xs (raised e x)

theorem cmdHeapBuild_ends (e : Engine) : SucceedsOrRaises e (rejections .heapBuild) e.cmdHeapBuild := by
  unfold Engine.cmdHeapBuild
  split
  · next hbody => exact .raises (List.mem_pair.2 (heapBuildBody_err hbody))
  · exact .succeeds _ _ _

theorem cmdPqInsert_ends (e : Engine) (n : Word) : SucceedsOrRaises e (rejections .pqInsert) (e.cmdPqInsert n) := by
  unfold Engine.cmdPqInsert
  split_ifs
  · exact .raises (by decide)
  · exact .raises (by decide)
  · exact .raises (by decide)
  · exact .succeeds _ _ _

theorem cmdPqExtract_ends (e : Engine) : SucceedsOrRaises e (rejections .pqExtract) e.cmdPqExtract := by
  unfold Engine.cmdPqExtract
  split_ifs
  · exact .raises (by decide)
  · exact .succeeds _ _ _

theorem cmdPqPeek_ends (e : Engine) : SucceedsOrRaises e (rejections .pqPeek) e.cmdPqPeek := by
  unfold Engine.cmdPqPeek
  split_ifs
  · exact .raises (by decide)
  · exact .succeeds _ _ _

theorem cmdNodeMerge_ends (e : Engine) (a b : Word) :
    SucceedsOrRaises e (rejections .nodeMerge) (e.cmdNodeMerge a b) := by
  unfold Engine.cmdNodeMerge
  split_ifs
  · exact .raises (by decide)
  · exact .raises (by decide)
  · exact .raises (by decide)
  · exact .raises (by decide)
  · exact .succeeds _ _ _

theorem cmdMergeStep_ends (e : Engine) : SucceedsOrRaises e (rejections .mergeStep) e.cmdMergeStep := by
  unfold Engine.cmdMergeStep
  split
  · next hbody => exact .raises (by simpa [rejections] using mergeStepBody_err hbody)
  · exact .succeeds _ _ _

theorem cmdSetRoot_ends (e : Engine) (n : Word) : SucceedsOrRaises e (rejections .setRoot) (e.cmdSetRoot n) := by
  unfold Engine.cmdSetRoot
  split_ifs
  · exact .raises (by decide)
  · exact .raises (by decide)
  · exact .succeeds _ _ _

theorem cmdBuildTree_ends (e : Engine) : SucceedsOrRaises e (rejections .buildTree) e.cmdBuildTree := by
  unfold Engine.cmdBuildTree
  split
  · next hbody => exact .raises (List.mem_pair.2 (buildTreeBody_err hbody))
  · exact .succeeds _ _ _

/-- How a command that completes can have ended: in a success, in an error of its checks that commits nothing
(60_exceptions.md R224), or, as ENCODE, at a symbol of its range with the output so far kept (R225). -/
inductive CommandEnd (s t : State) : Instr → Prop where
  | succeeded {i : Instr} : t.err = 0#4 → CommandEnd s t i
  | rejected {i : Instr} {x : ErrCode} : x ∈ rejections i → t = s.complete (raised s.eng x) → CommandEnd s t i
  | stopped {A : Bool} {x : ErrCode} {e : Engine} {off : Nat} {b : Byte} : s.encodeRun A = .stopped x e off b →
      t = ({ s with draws := s.draws + 1 } : State).complete ⟨e, x, natWord off, symWord b⟩ →
      CommandEnd s t (.encode A)

theorem SucceedsOrRaises.commandEnd {s : State} {i : Instr} {c : Completion}
    (h : SucceedsOrRaises s.eng (rejections i) c) : CommandEnd s (s.complete c) i := by
  cases h with
  | succeeds => exact .succeeded rfl
  | raises hx => exact .rejected hx rfl

theorem execGenCodes_ends {s t : State} (h : execGenCodes s = .next t) : CommandEnd s t .genCodes := by
  unfold execGenCodes at h
  split at h
  · split at h
    · cases h
    · obtain rfl := Host.Outcome.next.inj h
      exact .succeeded rfl
  · exact .rejected (by decide) (Host.Outcome.next.inj h).symm

theorem execEncode_ends {s t : State} {A : Bool} (h : execEncode A s = .next t) : CommandEnd s t (.encode A) := by
  obtain (⟨-, ht⟩ | ⟨-, -, ht⟩) | ⟨-, -, ⟨e, k, -, rfl⟩ | ⟨x, e, off, b, hrun, ht⟩⟩ := execEncode_next h
  · exact .rejected List.mem_cons_self ht
  · exact .rejected (List.mem_cons_of_mem _ List.mem_cons_self) ht
  · exact .succeeded rfl
  · exact .stopped hrun ht

theorem exec_ends {i : Instr} {s t : State} (h : exec i s = .next t) : CommandEnd s t i := by
  cases i with
  | nop => obtain rfl := Host.Outcome.next.inj h; exact .succeeded rfl
  | clear => obtain rfl := Host.Outcome.next.inj h; exact .succeeded rfl
  | heapBuild => obtain rfl := Host.Outcome.next.inj h; exact (cmdHeapBuild_ends _).commandEnd
  | pqInsert => obtain rfl := Host.Outcome.next.inj h; exact (cmdPqInsert_ends _ _).commandEnd
  | pqExtract => obtain rfl := Host.Outcome.next.inj h; exact (cmdPqExtract_ends _).commandEnd
  | pqPeek => obtain rfl := Host.Outcome.next.inj h; exact (cmdPqPeek_ends _).commandEnd
  | nodeMerge => obtain rfl := Host.Outcome.next.inj h; exact (cmdNodeMerge_ends _ _ _).commandEnd
  | mergeStep => obtain rfl := Host.Outcome.next.inj h; exact (cmdMergeStep_ends _).commandEnd
  | setRoot => obtain rfl := Host.Outcome.next.inj h; exact (cmdSetRoot_ends _ _).commandEnd
  | buildTree => obtain rfl := Host.Outcome.next.inj h; exact (cmdBuildTree_ends _).commandEnd
  | genCodes => exact execGenCodes_ends h
  | ctClear => obtain rfl := Host.Outcome.next.inj h; exact .succeeded rfl
  | encode A => exact execEncode_ends h

/-! ## What an error commits -/

/-- ENCODE's two errors at a symbol are no command's rejections. -/
theorem errNumber_of_rejection {i : Instr} {x : ErrCode} (h : x ∈ rejections i) :
    errNumber x ≠ 0x2#4 ∧ errNumber x ≠ 0xB#4 := by
  have hall : ∀ x ∈ rejections i, errNumber x ≠ 0x2#4 ∧ errNumber x ≠ 0xB#4 := by
    cases i <;> simp [rejections, errNumber]
  exact hall x h

/-- Settles O57, by how the command ended: a rejection commits nothing, a stop the output alone. -/
theorem errorsCommitPrecisely : Obligations.ErrorsCommitPrecisely := by
  unfold Obligations.ErrorsCommitPrecisely
  refine ⟨completeIllegal_eq, fun i s t h herr => ?_⟩
  cases exec_ends h with
  | succeeded hok => exact absurd hok herr
  | rejected hx ht =>
    obtain ⟨h2, hB⟩ := errNumber_of_rejection hx
    subst ht
    exact ⟨rfl, rfl, rfl, rfl, fun _ => ⟨rfl, rfl, rfl⟩, fun hstop => absurd hstop (not_or.2 ⟨h2, hB⟩)⟩
  | stopped hrun ht =>
    obtain ⟨hx, hlo, hhi, hread, hsame⟩ := encodeRun_stopped hrun
    have hstop := hx.imp (congrArg errNumber) (congrArg errNumber)
    subst ht
    exact ⟨rfl, rfl, rfl, rfl, fun hnot => absurd hstop (not_or.2 hnot),
      fun _ => ⟨⟨_, rfl⟩, hsame.eng_eq, _, _, hlo, hhi, hread, rfl, rfl⟩⟩

/-! ## The error codes -/

/-- The errors ENCODE's loop raises at a symbol; no other command has such a loop (60_exceptions.md R221, R225). -/
def stops : Instr → List ErrCode
  | .encode _ => [.symbolNotFound, .outOverflow]
  | _ => []

/-- The numbers of the codes a command can end with: success, a rejection, or a stop. -/
def errNumbers (i : Instr) : List (BitVec 4) := (.ok :: rejections i ++ stops i).map errNumber

theorem CommandEnd.err_mem {s t : State} {i : Instr} (h : CommandEnd s t i) : t.err ∈ errNumbers i := by
  cases h with
  | succeeded hok => rw [hok]; exact List.mem_cons_self
  | rejected hx ht =>
    subst ht
    exact List.mem_map_of_mem (List.mem_cons_of_mem _ (List.mem_append_left _ hx))
  | stopped hrun ht =>
    subst ht
    exact List.mem_map_of_mem (List.mem_append_right _ (List.mem_pair.2 (encodeRun_stopped hrun).1))

/-- Settles O58: the codes R221 lists for a command are those of its ways to end. -/
theorem errorCodesRaised : Obligations.ErrorCodesRaised := by
  unfold Obligations.ErrorCodesRaised
  refine ⟨fun i s t h => ?_, State.completeIllegal_err⟩
  have hmem := (exec_ends h).err_mem
  cases i <;> exact hmem

end Sys2Proof.Machine
end

section
/-! PROOFS. 70_reset_and_hazards.md R250, R251: hardware reset and the initialisation step. Of the state before it a
reset keeps no register and no engine state; the initialisation step clears what CLEAR clears and ends INIT. -/

namespace Sys2Proof.Machine

/-! ## Hardware reset -/

/-- The state after the host's reset move is the at-reset state of the same instance, but for fields that are the
model's own (logs 2, 3, 6): a command in progress cannot be told from it. -/
theorem hostMove_reset_eq (s : State) (rest : List HostMove) :
    s.hostMove .reset rest =
      { State.resetOf s.params with host := rest, resp := s.resp, starts := s.starts + 1, draws := s.draws } := rfl

/-- Settles O24: every value is that of the at-reset state, whatever the state before. -/
theorem hardwareResetFromAnyState : Obligations.HardwareResetFromAnyState := by
  unfold Obligations.HardwareResetFromAnyState
  intro s rest
  rw [hostMove_reset_eq]
  exact ⟨rfl, rfl, rfl, rfl, rfl, rfl, rfl, rfl, rfl, rfl, rfl, rfl, rfl, rfl, rfl, rfl, fun _ => ⟨rfl, rfl⟩,
    irq_of_done_false rfl⟩

/-! ## The initialisation step -/

/-- NODE, OWN, H and both buffers are kept where FREQ, CT, the counts, ROOT and OUT_BITS are cleared. -/
theorem cleared_frame (e : Engine) :
    e.cleared = { e with freq := e.cleared.freq, ct := e.cleared.ct, nodeCount := e.cleared.nodeCount,
                         leafCount := e.cleared.leafCount, heapSize := e.cleared.heapSize,
                         rootValid := e.cleared.rootValid, rootIdx := e.cleared.rootIdx,
                         outBits := e.cleared.outBits } := rfl

/-- Settles O25: the step is `initStep`, with the cleared engine; before it PHASE is not IDLE, so BUSY is 1, the
windows are locked and a command is dropped. -/
theorem initialisationStep : Obligations.InitialisationStep := by
  unfold Obligations.InitialisationStep
  intro s hinit
  have hbusy : s.phase ≠ .idle := by rw [hinit]; exact Phase.noConfusion
  refine ⟨fun hturn => ⟨s.eng.cleared, step_init hinit hturn, cleared_frame s.eng, ?tables, ?registersAndBuffers⟩,
    ?status, fun a d hwin => ?window, fun v => ?command⟩
  case tables => exact fun x => ⟨cleared_freqAt s.eng x.toNat, cleared_ctAt s.eng x.toNat⟩
  case registersAndBuffers => exact ⟨rfl, rfl, rfl, rfl, rfl, rfl, rfl, rfl⟩
  case status =>
    obtain ⟨hbit, -⟩ := statusWord_getLsbD_low s
    rw [hbit, busy_of_not_idle hbusy]
  case window =>
    have herr := busError_of_inWindow hbusy hwin
    rw [busRead_error herr, busWrite_error d herr]
    exact ⟨rfl, rfl⟩
  case command => exact congrArg State.overrun (busWrite_cmd_busy v hbusy)

end Sys2Proof.Machine
end
